-- ==== Sys2Proof/Word.lean ====
section
/-! DEFINITION. The word types of the HTPE: what spec/00_scope.md R12, R13 treats as bits. -/

namespace Sys2Proof

/-- One byte of an item, a key or slot RAM. -/
abbrev Byte := BitVec 8

/-- A host-visible register, a command word, a metadata word (spec/00_scope.md R12). -/
abbrev Word := BitVec 32

/-- The 20 bytes of a key buffer: byte `n` is bits `8n+7 : 8n` (spec/10_state.md R39). -/
abbrev KeyBuf := BitVec 160

/-- The 16 bytes of a keyed-hash secret (spec/10_state.md R42), packed like a key buffer. -/
abbrev Secret := BitVec 128

end Sys2Proof
end

