-- ==== Sys2Proof/Syntax.lean ====
section
/-! DEFINITION. The commands of the HTPE, whole (spec/30_encoding.md R122, R123; spec/opcode_table.json): one
constructor per row, its arguments the flags that row admits. The operands of a command are no part of its word: they
come from the latched copy (R126). -/

namespace Sys2Proof

/-- The commands. `k`, `d`, `z`, `p` are the flags K (key supplied), D (data supplied), Z (zero secret) and P (disposer
present) of R121. -/
inductive Instr where
  /-- INIT: create a table with a given exponent (spec/42_table_commands.md R251). -/
  | init (z p : Bool)
  /-- INIT_SIZE: create a table for a number of elements (R253). -/
  | initSize (z p : Bool)
  /-- INSERT: insert or replace an entry (spec/43_map_commands.md R300). -/
  | insert (k d : Bool)
  /-- GET: look an entry up (R310). -/
  | get (k : Bool)
  /-- REMOVE: remove an entry (R320). -/
  | remove (k : Bool)
  /-- LEN: the number of entries (spec/42_table_commands.md R260). -/
  | len
  /-- ITER_START: begin an iteration (spec/44_iteration_commands.md R350). -/
  | iterStart
  /-- ITER_NEXT: the visit returned true (R352). -/
  | iterNext
  /-- ITER_STOP: the visit returned false (R354). -/
  | iterStop
  /-- FREE: destroy the table (spec/42_table_commands.md R265). -/
  | free
  /-- DISPOSE_ACK: the disposer has returned (R270). -/
  | disposeAck
  /-- PEEK: read one metadata word (R262). -/
  | peek
deriving DecidableEq, Repr

/-- The fields of a command word as spec/30_encoding.md R121 cuts it, before any check. -/
structure RawCommand where
  /-- OPC, bits 4:0. -/
  opc : BitVec 5
  /-- Reserved bits 7:5. -/
  low : BitVec 3
  /-- K, bit 8. -/
  k : Bool
  /-- D, bit 9. -/
  d : Bool
  /-- Z, bit 10. -/
  z : Bool
  /-- P, bit 11. -/
  p : Bool
  /-- Reserved bits 31:12. -/
  high : BitVec 20
deriving DecidableEq, Repr

end Sys2Proof
end

