-- ==== Sys2Proof/WellFormed.lean ====
section
/-! DEFINITION. Which command words are legal (spec/30_encoding.md R125): three checks on the fields of R121, each with
a name under which the decoder refuses a word. -/

namespace Sys2Proof

/-- Why a command word is illegal (spec/30_encoding.md R125). All three complete with ERR_ILLEGAL_CMD (R124). -/
inductive IllegalReason where
  /-- OPC `0x00` or `0x0D` to `0x1F`. -/
  | reservedOpcode
  /-- A 1 in bits 7:5 or 31:12. -/
  | reservedBits
  /-- A flag set on an opcode that does not admit it (R123). -/
  | unadmittedFlag
deriving DecidableEq, Repr

/-- The opcode is one of the twelve of R122. -/
def RawCommand.opcodeAssigned (r : RawCommand) : Bool :=
  decide (1 ≤ r.opc.toNat) && decide (r.opc.toNat ≤ 12)

/-- Bits 7:5 and 31:12 are 0 (R121, R125). -/
def RawCommand.reservedClear (r : RawCommand) : Bool :=
  decide (r.low = 0#3) && decide (r.high = 0#20)

/-- Every flag that is set is one the opcode admits (the table of R123): Z and P for INIT and INIT_SIZE, K and D for
INSERT, K for GET and REMOVE, none for the others. -/
def RawCommand.flagsAdmitted (r : RawCommand) : Bool :=
  let isInit := decide (r.opc.toNat = 1) || decide (r.opc.toNat = 2)
  let isInsert := decide (r.opc.toNat = 3)
  let isKeyed := decide (r.opc.toNat = 4) || decide (r.opc.toNat = 5)
  (!r.k || isInsert || isKeyed) && (!r.d || isInsert) && (!r.z || isInit) && (!r.p || isInit)

/-- A command word that R125 does not call illegal. -/
def RawCommand.wellFormed (r : RawCommand) : Bool :=
  r.opcodeAssigned && r.reservedClear && r.flagsAdmitted

/-- The fields of the word that spells an instruction (R121, R122). -/
def Instr.raw : Instr → RawCommand
  | .init z p => ⟨1#5, 0#3, false, false, z, p, 0#20⟩
  | .initSize z p => ⟨2#5, 0#3, false, false, z, p, 0#20⟩
  | .insert k d => ⟨3#5, 0#3, k, d, false, false, 0#20⟩
  | .get k => ⟨4#5, 0#3, k, false, false, false, 0#20⟩
  | .remove k => ⟨5#5, 0#3, k, false, false, false, 0#20⟩
  | .len => ⟨6#5, 0#3, false, false, false, false, 0#20⟩
  | .iterStart => ⟨7#5, 0#3, false, false, false, false, 0#20⟩
  | .iterNext => ⟨8#5, 0#3, false, false, false, false, 0#20⟩
  | .iterStop => ⟨9#5, 0#3, false, false, false, false, 0#20⟩
  | .free => ⟨10#5, 0#3, false, false, false, false, 0#20⟩
  | .disposeAck => ⟨11#5, 0#3, false, false, false, false, 0#20⟩
  | .peek => ⟨12#5, 0#3, false, false, false, false, 0#20⟩

/-- An instruction is well-formed when its fields are. Each constructor has only the flags its row admits, so this
holds of every instruction; the checks have their force on `RawCommand`, where the decoder meets them. -/
def Instr.wellFormed (i : Instr) : Bool := i.raw.wellFormed

end Sys2Proof
end

