-- ==== Sys2Proof/Decode.lean ====
section
/-! DEFINITION. Decoding and encoding of command words (spec/30_encoding.md R120 to R125): the mask and match table of
R123, a decoder that is total on 32-bit words and refuses by name, and the encoder of R129. -/

namespace Sys2Proof

/-- One row of the table of spec/30_encoding.md R123: a word `w` with `w &&& mask = matchWord` is the command `instr w`. -/
structure CommandRow where
  matchWord : Word
  mask : Word
  instr : Word → Instr

/-- Flag K, bit 8 (R121). -/
def flagK (w : Word) : Bool := w.getLsbD 8

/-- Flag D, bit 9 (R121). -/
def flagD (w : Word) : Bool := w.getLsbD 9

/-- Flag Z, bit 10 (R121). -/
def flagZ (w : Word) : Bool := w.getLsbD 10

/-- Flag P, bit 11 (R121). -/
def flagP (w : Word) : Bool := w.getLsbD 11

/-- The table of R123, in its order. -/
def commandRows : List CommandRow := [
  ⟨0x00000001#32, 0xFFFFF3FF#32, fun w => .init (flagZ w) (flagP w)⟩,
  ⟨0x00000002#32, 0xFFFFF3FF#32, fun w => .initSize (flagZ w) (flagP w)⟩,
  ⟨0x00000003#32, 0xFFFFFCFF#32, fun w => .insert (flagK w) (flagD w)⟩,
  ⟨0x00000004#32, 0xFFFFFEFF#32, fun w => .get (flagK w)⟩,
  ⟨0x00000005#32, 0xFFFFFEFF#32, fun w => .remove (flagK w)⟩,
  ⟨0x00000006#32, 0xFFFFFFFF#32, fun _ => .len⟩,
  ⟨0x00000007#32, 0xFFFFFFFF#32, fun _ => .iterStart⟩,
  ⟨0x00000008#32, 0xFFFFFFFF#32, fun _ => .iterNext⟩,
  ⟨0x00000009#32, 0xFFFFFFFF#32, fun _ => .iterStop⟩,
  ⟨0x0000000A#32, 0xFFFFFFFF#32, fun _ => .free⟩,
  ⟨0x0000000B#32, 0xFFFFFFFF#32, fun _ => .disposeAck⟩,
  ⟨0x0000000C#32, 0xFFFFFFFF#32, fun _ => .peek⟩]

/-- A word selects a row (R124). -/
def CommandRow.matches (r : CommandRow) (w : Word) : Bool := w &&& r.mask == r.matchWord

/-- The fields of a word (R121). -/
def rawOf (w : Word) : RawCommand :=
  ⟨w.extractLsb' 0 5, w.extractLsb' 5 3, flagK w, flagD w, flagZ w, flagP w, w.extractLsb' 12 20⟩

/-- The name under which an illegal word is refused: the first check of R125 it fails. -/
def illegalReason (w : Word) : IllegalReason :=
  if !(rawOf w).opcodeAssigned then .reservedOpcode
  else if !(rawOf w).reservedClear then .reservedBits
  else .unadmittedFlag

/-- Decoding (R124): the row the word selects, or a refusal by name. -/
def decode (w : Word) : Except IllegalReason Instr :=
  match commandRows.find? (fun r => r.matches w) with
  | some r => .ok (r.instr w)
  | none => .error (illegalReason w)

/-- The flag bits of a command word: `(K<<8) | (D<<9) | (Z<<10) | (P<<11)` (R129). -/
def flagBits (k d z p : Bool) : Word :=
  (BitVec.ofBool k).setWidth 32 <<< 8 ||| (BitVec.ofBool d).setWidth 32 <<< 9 |||
    (BitVec.ofBool z).setWidth 32 <<< 10 ||| (BitVec.ofBool p).setWidth 32 <<< 11

/-- Encoding: `match(MNEMONIC) | flags` (R129), with the matches of R123. -/
def encode : Instr → Word
  | .init z p => 0x00000001#32 ||| flagBits false false z p
  | .initSize z p => 0x00000002#32 ||| flagBits false false z p
  | .insert k d => 0x00000003#32 ||| flagBits k d false false
  | .get k => 0x00000004#32 ||| flagBits k false false false
  | .remove k => 0x00000005#32 ||| flagBits k false false false
  | .len => 0x00000006#32
  | .iterStart => 0x00000007#32
  | .iterNext => 0x00000008#32
  | .iterStop => 0x00000009#32
  | .free => 0x0000000A#32
  | .disposeAck => 0x0000000B#32
  | .peek => 0x0000000C#32

/-- The instruction the decoder reads from the bits `w` of a table row of `nbits` bits. A command is one 32-bit word
written whole to CMD (R120), so there is no byte order to lay out; bits from `nbits` up are 0. -/
def decodeTableWord (nbits w : Nat) : Option Instr :=
  match decode (BitVec.ofNat 32 (w % 2 ^ nbits)) with
  | .ok i => some i
  | .error _ => none

end Sys2Proof
end

