-- ==== Sys2Proof/Config.lean ====
section
/-! DEFINITION. What is fixed for the machine: the constants of spec/00_scope.md R10 and R11, and the values the
spec leaves open, as opaque constants that no proof can look into. -/

namespace Sys2Proof.Config

/-- `ID` (spec/10_state.md R31). -/
def idValue : Word := 0x48545045#32

/-- `VERSION` (spec/10_state.md R31). -/
def versionValue : Word := 0x00000001#32

/-- `MIN_EXP` (spec/00_scope.md R10). -/
def minExp : Nat := 4

/-- `MAX_EXP` (R10). -/
def maxExp : Nat := 20

/-- `DEFAULT_EXP` (R10): the exponent of the one-argument `init` of spec/30_encoding.md R130. -/
def defaultExp : Nat := 4

/-- `KEY_BYTES` (R10). -/
def keyBytes : Nat := 20

/-- `KEY_MAX` (R10). -/
def keyMax : Nat := 19

/-- `META_BYTES` (R10). -/
def metaBytes : Nat := 4

/-- `MAX_PSL` (R10). -/
def maxPsl : Nat := 2047

/-- `SCRATCH_SLOTS` (R10). -/
def scratchSlots : Nat := 2

/-- `GROW_NUM / GROW_DEN` (R10). -/
def growNum : Nat := 9

/-- `GROW_DEN` (R10). -/
def growDen : Nat := 10

/-- `SHRINK_NUM / SHRINK_DEN` (R10). -/
def shrinkNum : Nat := 4

/-- `SHRINK_DEN` (R10). -/
def shrinkDen : Nat := 10

/-- `PTR_ALIGN` (spec/00_scope.md R11). -/
def ptrAlign : Nat := 8

/-- The largest value of the 32-bit size field (spec/42_table_commands.md R254). -/
def maxSlotSize : Nat := 0xFFFFFFFF

/-- The reset value of the parameter `MEM_BYTES` (R11): any natural number. DESIGN CHOICE, log entry 1, safe. -/
opaque memBytes : Nat

/-- The parameter `KEYED_HASH` (R11, spec/40_metadata_codec.md R170): any total function of the key's bytes and the
secret, for the keys `Env.hashes` does not list. Log entry 2, safe. -/
opaque keyedHash : List Byte → Secret → BitVec 64

/-- The answer of the entropy port (R11, spec/42_table_commands.md R256) for the `n`-th draw, where `Env.entropy` holds
no answer: 16 bytes, or `none` for FAIL. Log entry 3, safe. -/
opaque entropyDraw : Nat → Option Secret

/-- Whether a malformed access made while BUSY sets STATUS.BUS_ERR, for the `n`-th draw: spec/20_memory.md R82 to R86
and R88 both speak of it and neither says. Log entry 11, safe. -/
opaque busErrWhileBusy : Nat → Bool

end Sys2Proof.Config
end

