-- ==== Sys2Proof/Machine/State.lean ====
section
/-! DEFINITION. The state of one HTPE instance as plain data (spec/10_state.md R30 to R57), the environment it is
driven by, the reasons a step can stop, and the state right after reset. -/

namespace Sys2Proof.Machine

/-- Bytes of slot RAM, listed as (offset, byte) with offsets strictly rising and no byte 0 listed. An unlisted byte
reads 0: every allocation zero-fills (spec/20_memory.md R95). -/
abbrev Memory := List Host.Cell

/-- `phase` (spec/10_state.md R51). -/
inductive Phase where
  | idle
  | busy
deriving DecidableEq, Repr

/-- `tstate` (spec/10_state.md R40). -/
inductive TState where
  /-- No table exists. -/
  | none
  /-- A table exists and accepts map commands. -/
  | ready
  /-- FREE has started; the engine waits for DISPOSE_ACK. -/
  | disposing
deriving DecidableEq, Repr

/-- `ref` (spec/10_state.md R47): the item region the REF aperture shows. -/
inductive Ref where
  | none
  | slot (i : Nat)
  | removed
deriving DecidableEq, Repr

/-- The error codes of spec/60_exceptions.md R400, in its order: the code of the `n`-th is `n`. -/
inductive ErrCode where
  | ok
  | illegalCmd
  | state
  | keyAbsent
  | keyInvalid
  | dataAbsent
  | notFound
  | capExp
  | itemSize
  | alloc
  | entropy
  | full
  | resizeAlloc
  | resizePsl
  | pslOverflow
  | range
deriving DecidableEq, Repr

/-- The latched command `L` (spec/10_state.md R51). -/
structure Latch where
  word : Word
  arg0 : Word
  arg1 : Word
  keyLen : BitVec 5
  key : KeyBuf
deriving DecidableEq, Repr

/-- The table fields (spec/10_state.md R42), the slot array (R43) and the scratch area (R45). `array` is slot RAM from
the array's first byte on, `scratch` from the scratch's first byte on (spec/20_memory.md R89, R91). -/
structure Table where
  /-- Capacity exponent: `2^e` slots. -/
  e : BitVec 5
  /-- Occupied slot count. -/
  occ : Word
  /-- Item byte size. -/
  itemSize : Word
  /-- Slot byte size `S`. -/
  slotSize : Word
  /-- The table was created with a disposer. -/
  disposer : Bool
  /-- The keyed-hash secret. -/
  secret : Secret
  array : Memory
  scratch : Memory
deriving DecidableEq, Repr

/-- The address spaces of spec/20_memory.md R80. -/
inductive Space where
  | reg
  | stage
  | ref
  | reserved
deriving DecidableEq, Repr

/-- A host access (spec/00_scope.md R14): `MemRead(space, off, n)` or `MemWrite(space, off, n, v)`. A value wider than
32 bits is never stored: an access of more than 4 bytes is refused (R82, R86). -/
inductive Access where
  | read (space : Space) (off : BitVec 32) (n : Nat)
  | write (space : Space) (off : BitVec 32) (n : Nat) (v : Word)
deriving DecidableEq, Repr

/-- What happens next at the HTPE's boundary: a host access (spec/20_memory.md R97), the engine taking its step
(spec/10_state.md R52), or reset (spec/70_reset_and_hazards.md R450). Every interleaving of host and engine is a list
of these. DESIGN CHOICE, log entry 4, safe. -/
inductive Event where
  | access (a : Access)
  | engine
  | reset
deriving DecidableEq, Repr

/-- One known answer of the keyed hash: `KEYED_HASH(key, secret) = hash`. -/
structure HashAnswer where
  key : List Byte
  secret : Secret
  hash : BitVec 64
deriving DecidableEq, Repr

/-- The environment of the block: the model's own fields, no state of the HTPE. -/
structure Env where
  /-- What host, platform and engine do next, in order. -/
  events : List Event
  /-- What the host's last read returned. -/
  readData : Word
  /-- The parameter `MEM_BYTES` (spec/00_scope.md R11); no step changes it. -/
  memBytes : Nat
  /-- The parameter `KEYED_HASH` (R11) where it is known; no step changes it. -/
  hashes : List HashAnswer
  /-- The entropy port's next answers (R11): 16 bytes, or `none` for FAIL. -/
  entropy : List (Option Secret)
  /-- How many free values have been drawn: the argument of the next one. -/
  draws : Nat
deriving DecidableEq, Repr

/-- The state of one HTPE instance (spec/10_state.md R30) and its environment. -/
structure State where
  /-- R51. -/
  phase : Phase
  /-- R51. -/
  latch : Latch
  /-- STATUS.ERR (R33, R34). -/
  err : ErrCode
  /-- STATUS.GREW (R34). -/
  grew : Bool
  /-- STATUS.SHRANK (R34). -/
  shrank : Bool
  /-- STATUS.SHRINK_FAIL (R34). -/
  shrinkFail : Bool
  /-- STATUS.BUSY_VIOL (R35). -/
  busyViol : Bool
  /-- STATUS.BUS_ERR (R35). -/
  busErr : Bool
  /-- RESULT (R36). -/
  result : Word
  /-- ARG0 (R37). -/
  arg0 : Word
  /-- ARG1 (R37). -/
  arg1 : Word
  /-- KEY_LEN bits 4:0; bits 31:5 are hardwired to 0 (R38). -/
  keyLen : BitVec 5
  /-- KEY0 (R39). -/
  key0 : Word
  /-- KEY1 (R39). -/
  key1 : Word
  /-- KEY2 (R39). -/
  key2 : Word
  /-- KEY3 (R39). -/
  key3 : Word
  /-- KEY4 (R39). -/
  key4 : Word
  /-- R40. -/
  tstate : TState
  /-- R42 to R45; read only while `tstate` is not NONE. -/
  tab : Table
  /-- R47. -/
  ref : Ref
  /-- `iter.active` (R49). -/
  iterActive : Bool
  /-- `iter.cursor` (R49); read only while `iterActive`. -/
  iterCursor : Nat
  /-- The dispose cursor `disp` (R50); read only while DISPOSING. -/
  disp : Nat
  /-- The environment. -/
  env : Env
deriving DecidableEq, Repr

/-- The table fields while no table exists: they "hold no value" (spec/10_state.md R42, R57) and no rule reads them.
DESIGN CHOICE, log entry 6. -/
def Table.absent : Table where
  e := 0#5
  occ := 0#32
  itemSize := 0#32
  slotSize := 0#32
  disposer := false
  secret := 0#128
  array := []
  scratch := []

/-- The latched command before the first CMD write; never read. DESIGN CHOICE, log entry 7. -/
def Latch.initial : Latch where
  word := 0#32
  arg0 := 0#32
  arg1 := 0#32
  keyLen := 0#5
  key := 0#160

/-- The environment of `State.reset`: nothing happens next, nothing was read, MEM_BYTES and KEYED_HASH are free values.
DESIGN CHOICE, log entries 1 to 5. -/
def Env.initial : Env where
  events := []
  readData := 0#32
  memBytes := Config.memBytes
  hashes := []
  entropy := []
  draws := 0

/-- The machine right after reset (spec/10_state.md R57, spec/70_reset_and_hazards.md R450). `latch`, `iterCursor`,
`disp` and `tab` have no reset value in the spec: log entries 6 and 7. -/
def State.reset : State where
  phase := .idle
  latch := Latch.initial
  err := .ok
  grew := false
  shrank := false
  shrinkFail := false
  busyViol := false
  busErr := false
  result := 0#32
  arg0 := 0#32
  arg1 := 0#32
  keyLen := 0#5
  key0 := 0#32
  key1 := 0#32
  key2 := 0#32
  key3 := 0#32
  key4 := 0#32
  tstate := .none
  tab := Table.absent
  ref := .none
  iterActive := false
  iterCursor := 0
  disp := 0
  env := Env.initial

/-- Why the machine stops. The HTPE has no fault of its own (spec/60_exceptions.md R407: errors complete). -/
inductive Fault where
  /-- Raised by FREE when the table has a disposer and `occ > 0` while no slot is taken: spec/42_table_commands.md R265
  then asks for "the lowest index j" of a taken slot and there is none. R55 INV2 rules such a state out, so no run
  reaches it. Safe: log entry 13. -/
  | freeFoundNoEntry
deriving DecidableEq, Repr

/-- Why an instruction has no meaning in this model. -/
inductive Refusal where
  /-- Raised by `exec` for an instruction without a meaning; no arm does. Safe: nothing is claimed of it. -/
  | notModelled (mnemonic : String)
deriving DecidableEq, Repr

end Sys2Proof.Machine
end

