-- ==== Sys2Proof/Machine/Ops.lean ====
section
/-! DEFINITION. The named operations over slot RAM, the byte order, and the completion of a command: how a step writes
STATUS and RESULT, the one shared operation behind every success and every error (spec/10_state.md R34, R36, R52,
spec/60_exceptions.md R402, R407). -/

namespace Sys2Proof.Machine

/-! ## Slot RAM -/

/-- The byte at an offset; an unlisted byte reads 0 (spec/20_memory.md R95). -/
def Memory.read : Memory → Nat → Byte
  | [], _ => 0#8
  | (a, b) :: m, x => if a = x then b else Memory.read m x

/-- Write one byte, keeping the canonical form: offsets rise, no 0 is listed. -/
def Memory.write : Memory → Nat → Byte → Memory
  | [], x, v => if v = 0#8 then [] else [(x, v)]
  | (a, b) :: m, x, v =>
    if x < a then (if v = 0#8 then (a, b) :: m else (x, v) :: (a, b) :: m)
    else if x = a then (if v = 0#8 then m else (x, v) :: m)
    else (a, b) :: Memory.write m x v

/-- The canonical form from offset `lo` on. -/
def Memory.wfFrom : Nat → Memory → Bool
  | _, [] => true
  | lo, (a, b) :: m => decide (lo ≤ a) && !(b == 0#8) && Memory.wfFrom (a + 1) m

/-- The canonical form: offsets strictly rise and no byte listed is 0. -/
def Memory.wf (m : Memory) : Bool := Memory.wfFrom 0 m

/-- The listed bytes at offsets `base .. base+n-1`, counted from `base`. -/
def Memory.extract : Memory → (base n : Nat) → Memory
  | [], _, _ => []
  | (a, b) :: m, base, n =>
    if base ≤ a ∧ a < base + n then (a - base, b) :: Memory.extract m base n else Memory.extract m base n

/-- Zero the bytes at offsets `base .. base+n-1`. -/
def Memory.clear : Memory → (base n : Nat) → Memory
  | [], _, _ => []
  | (a, b) :: m, base, n =>
    if base ≤ a ∧ a < base + n then Memory.clear m base n else (a, b) :: Memory.clear m base n

/-- Write every listed byte of `src` below `n` at `base` plus its offset. -/
def Memory.overlay (m : Memory) (base n : Nat) : Memory → Memory
  | [] => m
  | (a, b) :: src => if a < n then (Memory.overlay m base n src).write (base + a) b else Memory.overlay m base n src

/-- Copy the `n` bytes of the region `src` to offsets `base .. base+n-1`. -/
def Memory.blit (m : Memory) (base n : Nat) (src : Memory) : Memory := (m.clear base n).overlay base n src

/-! ## Byte order: little-endian, decided here once (spec/20_memory.md R87, R92; spec/10_state.md R39) -/

/-- The number whose bytes, least significant first, are these. -/
def leValue : List Byte → Nat
  | [] => 0
  | b :: bs => b.toNat + 256 * leValue bs

/-- The `n` low bytes of a number, least significant first. -/
def leBytes : (n v : Nat) → List Byte
  | 0, _ => []
  | n + 1, v => BitVec.ofNat 8 v :: leBytes n (v / 256)

/-- `n` bytes from an offset on. -/
def Memory.readBytes (m : Memory) : (x n : Nat) → List Byte
  | _, 0 => []
  | x, n + 1 => m.read x :: m.readBytes (x + 1) n

/-- Write bytes from an offset on. -/
def Memory.writeBytes (m : Memory) (x : Nat) : List Byte → Memory
  | [] => m
  | b :: bs => (Memory.writeBytes (m.write x b) (x + 1) bs)

/-- A little-endian read of `n` bytes: `Σ byte[x+b] · 2^(8b)` (R87). -/
def Memory.readLE (m : Memory) (x n : Nat) : Nat := leValue (m.readBytes x n)

/-- A little-endian write of the `n` low bytes of `v` (R87). -/
def Memory.writeLE (m : Memory) (x n v : Nat) : Memory := m.writeBytes x (leBytes n v)

/-! ## Sizes (spec/20_memory.md R90, R93) -/

/-- `S = ((24 + item_size + 7) div 8) · 8`, on unbounded naturals (R90). -/
def slotBytes (item : Nat) : Nat :=
  (Config.metaBytes + Config.keyBytes + item + (Config.ptrAlign - 1)) / Config.ptrAlign * Config.ptrAlign

/-- The footprint `F(cap, S) = (cap + 2) · S` (R93). -/
def footprint (cap slot : Nat) : Nat := (cap + Config.scratchSlots) * slot

/-- The number of slots, `2^e` (spec/10_state.md R42). -/
def Table.cap (t : Table) : Nat := 2 ^ t.e.toNat

/-! ## Latching a command -/

/-- The 20 key bytes of KEY0..KEY4: key byte `4j+b` is `KEYj[8b+7 : 8b]` (spec/10_state.md R39). -/
def State.keyBuf (s : State) : KeyBuf := s.key4 ++ s.key3 ++ s.key2 ++ s.key1 ++ s.key0

/-- An accepted CMD write: latch the word and the operand registers at this instant and go BUSY (R32, R51). -/
def State.latchCommand (s : State) (w : Word) : State :=
  { s with
    phase := .busy
    latch := { word := w, arg0 := s.arg0, arg1 := s.arg1, keyLen := s.keyLen, key := s.keyBuf } }

/-! ## Completing a command -/

/-- The number of an error code (spec/60_exceptions.md R400). -/
def ErrCode.code : ErrCode → BitVec 8
  | .ok => 0x00#8
  | .illegalCmd => 0x01#8
  | .state => 0x02#8
  | .keyAbsent => 0x03#8
  | .keyInvalid => 0x04#8
  | .dataAbsent => 0x05#8
  | .notFound => 0x06#8
  | .capExp => 0x07#8
  | .itemSize => 0x08#8
  | .alloc => 0x09#8
  | .entropy => 0x0A#8
  | .full => 0x0B#8
  | .resizeAlloc => 0x0C#8
  | .resizePsl => 0x0D#8
  | .pslOverflow => 0x0E#8
  | .range => 0x0F#8

/-- What a completing command writes to STATUS and RESULT (spec/10_state.md R34, R36). -/
structure Completion where
  err : ErrCode := .ok
  result : Word := 0#32
  grew : Bool := false
  shrank : Bool := false
  shrinkFail : Bool := false
deriving DecidableEq, Repr

/-- Complete the current command: ERR, GREW, SHRANK and SHRINK_FAIL are written together (R34), RESULT is written, and
the engine is IDLE again (R52). There is no trap: this is all that an error does (spec/60_exceptions.md R407). -/
def State.complete (s : State) (c : Completion) : State :=
  { s with
    phase := .idle
    err := c.err
    result := c.result
    grew := c.grew
    shrank := c.shrank
    shrinkFail := c.shrinkFail }

/-- `finish(result)` (spec/00_scope.md R14). -/
def State.finish (s : State) (result : Word) : State := s.complete { result := result }

/-- `raise Err(code)` (R14, spec/60_exceptions.md R402): RESULT 0, every flag 0. -/
def State.raise (s : State) (code : ErrCode) : State := s.complete { err := code }

/-- `Release()` (spec/42_table_commands.md R272): the table fields, the secret among them, cease to hold a value. -/
def State.release (s : State) : State :=
  { s with tstate := .none, tab := Table.absent, ref := .none, iterActive := false }

/-- Reset (spec/70_reset_and_hazards.md R450 to R452): every piece of the block's state takes its reset value; a
latched command and a live table are dropped. The environment is not the block's: log entry 5. -/
def State.onReset (s : State) : State := { State.reset with env := s.env }

/-! ## The ports (spec/60_exceptions.md R421) -/

/-- The listed answer for a key and a secret. -/
def lookupHash : List HashAnswer → List Byte → Secret → Option (BitVec 64)
  | [], _, _ => none
  | a :: as, k, sec => if a.key = k ∧ a.secret = sec then some a.hash else lookupHash as k sec

/-- The hash port `KEYED_HASH(key, secret)` (spec/40_metadata_codec.md R170). -/
def Env.keyedHash (v : Env) (k : List Byte) (sec : Secret) : BitVec 64 :=
  match lookupHash v.hashes k sec with
  | some h => h
  | none => Config.keyedHash k sec

/-- The answer of the entropy port to the next request (spec/42_table_commands.md R256). -/
def Env.entropyAnswer (v : Env) : Option Secret :=
  match v.entropy with
  | [] => Config.entropyDraw v.draws
  | a :: _ => a

/-- The environment after an entropy request: that answer is spent. -/
def Env.entropySpent (v : Env) : Env := { v with entropy := v.entropy.tail, draws := v.draws + 1 }

end Sys2Proof.Machine
end

