-- ==== Sys2Proof/Machine/Flags.lean ====
section
/-! DEFINITION. The status bits: the STATUS word as a view of the state (spec/10_state.md R33) and the two load-factor
predicates that the resize arbiters test (spec/40_metadata_codec.md R173, R174). -/

namespace Sys2Proof.Machine

/-- A word with only bit `n`, set when `b` is. -/
def bitAt (n : Nat) (b : Bool) : Word := if b then BitVec.ofNat 32 (2 ^ n) else 0#32

/-- A table exists: `tstate ∈ {READY, DISPOSING}` (R33 TABLE). -/
def State.hasTable (s : State) : Bool := decide (s.tstate ≠ .none)

/-- STATUS (R33): bits 0 to 4 and 10 are live views, 5 to 9 and ERR are stored, the rest read 0. -/
def State.status (s : State) : Word :=
  bitAt 0 (decide (s.phase = .busy)) ||| bitAt 1 s.hasTable ||| bitAt 2 s.iterActive |||
  bitAt 3 (decide (s.tstate = .disposing)) ||| bitAt 4 (decide (s.ref ≠ .none)) ||| bitAt 5 s.grew |||
  bitAt 6 s.shrank ||| bitAt 7 s.shrinkFail ||| bitAt 8 s.busyViol ||| bitAt 9 s.busErr |||
  bitAt 10 (s.hasTable && s.tab.disposer) ||| s.err.code.setWidth 32 <<< 16

/-- The effect of an accepted STATUS write (R35): a 1 in bit 8 or 9 clears that sticky bit; all else is ignored. -/
def State.clearSticky (s : State) (w : Word) : State :=
  { s with busyViol := s.busyViol && !w.getLsbD 8, busErr := s.busErr && !w.getLsbD 9 }

/-- `GrowNeeded(occ, e) ⟺ 10·occ ≥ 9·2^e` (spec/40_metadata_codec.md R173). -/
def growNeeded (occ e : Nat) : Bool := decide (Config.growDen * occ ≥ Config.growNum * 2 ^ e)

/-- `Sparse(occ, e) ⟺ 10·occ ≤ 4·2^e` (R174). -/
def sparse (occ e : Nat) : Bool := decide (Config.shrinkDen * occ ≤ Config.shrinkNum * 2 ^ e)

end Sys2Proof.Machine
end

