-- ==== Sys2Proof/Machine/Codec.lean ====
section
/-! DEFINITION. The metadata codec (spec/40_metadata_codec.md R160 to R168) and the slots of the array and the scratch
as records over slot RAM (spec/10_state.md R43 to R45, spec/20_memory.md R89, R91, R92). -/

namespace Sys2Proof.Machine

/-! ## The metadata word -/

/-- `get_taken(w) = w[0]` (R161). -/
def getTaken (w : Word) : Bool := w.getLsbD 0

/-- `get_psl(w) = w[11:1]` (R162). -/
def getPsl (w : Word) : BitVec 11 := w.extractLsb' 1 11

/-- `get_th(w) = w[31:12]` (R163). -/
def getTh (w : Word) : BitVec 20 := w.extractLsb' 12 20

/-- `set_taken(w, t)` (R164). -/
def setTaken (w : Word) (t : Bool) : Word := (w &&& 0xFFFFFFFE#32) ||| (BitVec.ofBool t).setWidth 32

/-- `set_psl(w, p)`: `p` is truncated to 11 bits (R165). -/
def setPsl (w : Word) (p : Nat) : Word := (w &&& 0xFFFFF001#32) ||| (BitVec.ofNat 32 p &&& 0x7FF#32) <<< 1

/-- `set_th(w, h)`: `h` is truncated to 20 bits (R166). -/
def setTh (w : Word) (h : Nat) : Word := (w &&& 0x00000FFF#32) ||| (BitVec.ofNat 32 h &&& 0xFFFFF#32) <<< 12

/-- `pack(t, p, h)` (R167). -/
def pack (t : Bool) (p h : Nat) : Word :=
  (BitVec.ofBool t).setWidth 32 ||| (BitVec.ofNat 32 p &&& 0x7FF#32) <<< 1 |||
    (BitVec.ofNat 32 h &&& 0xFFFFF#32) <<< 12

/-! ## Slots -/

/-- A slot: "{taken : 1 bit, psl : 11 bits, th : 20 bits, key : 20 bytes, item : item_size bytes}" (R43). The item is
its listed bytes, counted from the item's first byte. -/
structure Slot where
  taken : Bool
  psl : BitVec 11
  th : BitVec 20
  key : KeyBuf
  item : Memory
deriving DecidableEq, Repr

/-- An empty slot: metadata word 0 (R44). Its key and item bytes are never read; they are 0 here. DESIGN CHOICE, log
entry 9. -/
def Slot.empty : Slot where
  taken := false
  psl := 0#11
  th := 0#20
  key := 0#160
  item := []

/-- `meta(A[i])` of a slot's unpacked fields (R43, R167). -/
def Slot.metaWord (c : Slot) : Word := pack c.taken c.psl.toNat c.th.toNat

/-- The sizes that fix where a slot's bytes lie. -/
structure Geometry where
  /-- `S`. -/
  slotSize : Nat
  /-- `item_size`. -/
  itemSize : Nat
deriving DecidableEq, Repr

/-- The sizes of a table. -/
def Table.geometry (t : Table) : Geometry := ⟨t.slotSize.toNat, t.itemSize.toNat⟩

/-- A slot holds its metadata, its key and its item (spec/20_memory.md R89). -/
abbrev Geometry.fits (g : Geometry) : Prop := Config.metaBytes + Config.keyBytes + g.itemSize ≤ g.slotSize

/-- Slot `i` begins at offset `i·S` from its array's first byte (R91). -/
def Geometry.slotBase (g : Geometry) (i : Nat) : Nat := i * g.slotSize

/-- The key buffer follows the 4 metadata bytes (R89). -/
def Geometry.keyBase (g : Geometry) (i : Nat) : Nat := g.slotBase i + Config.metaBytes

/-- The item follows the 20 key bytes (R89). -/
def Geometry.itemBase (g : Geometry) (i : Nat) : Nat := g.keyBase i + Config.keyBytes

/-- The metadata word of slot `i`, little-endian in its bytes 0 to 3 (R92). -/
def slotMeta (g : Geometry) (m : Memory) (i : Nat) : Word :=
  BitVec.ofNat 32 (m.readLE (g.slotBase i) Config.metaBytes)

/-- The 20 key bytes of slot `i`. -/
def slotKey (g : Geometry) (m : Memory) (i : Nat) : KeyBuf :=
  BitVec.ofNat 160 (m.readLE (g.keyBase i) Config.keyBytes)

/-- The item bytes of slot `i`. -/
def slotItem (g : Geometry) (m : Memory) (i : Nat) : Memory := m.extract (g.itemBase i) g.itemSize

/-- `A[i]` (spec/00_scope.md R14): slot `i` as a record. -/
def getSlot (g : Geometry) (m : Memory) (i : Nat) : Slot where
  taken := getTaken (slotMeta g m i)
  psl := getPsl (slotMeta g m i)
  th := getTh (slotMeta g m i)
  key := slotKey g m i
  item := slotItem g m i

/-- Write the key bytes of slot `i`. -/
def putKey (g : Geometry) (m : Memory) (i : Nat) (k : KeyBuf) : Memory :=
  m.writeLE (g.keyBase i) Config.keyBytes k.toNat

/-- Write the item bytes of slot `i`. -/
def putItem (g : Geometry) (m : Memory) (i : Nat) (item : Memory) : Memory := m.blit (g.itemBase i) g.itemSize item

/-- `A[i] <- c` (R14). -/
def setSlot (g : Geometry) (m : Memory) (i : Nat) (c : Slot) : Memory :=
  putItem g (putKey g (m.writeLE (g.slotBase i) Config.metaBytes c.metaWord.toNat) i c.key) i c.item

/-! ## The scratch area: scratch slot 0 holds STAGE, scratch slot 1 holds REMOVED (spec/20_memory.md R91) -/

/-- The scratch slot whose item bytes are STAGE. -/
def stageSlot : Nat := 0

/-- The scratch slot whose key and item bytes are REMOVED. -/
def removedSlot : Nat := 1

/-- The STAGE bytes (spec/10_state.md R45). -/
def Table.stage (t : Table) : Memory := slotItem t.geometry t.scratch stageSlot

/-- The key bytes of REMOVED (R45). -/
def Table.removedKey (t : Table) : KeyBuf := slotKey t.geometry t.scratch removedSlot

/-- The item bytes of REMOVED (R45). -/
def Table.removedItem (t : Table) : Memory := slotItem t.geometry t.scratch removedSlot

/-- `REMOVED.key <- k; REMOVED.item <- v` (spec/43_map_commands.md R320). -/
def Table.setRemoved (t : Table) (k : KeyBuf) (v : Memory) : Table :=
  { t with scratch := putItem t.geometry (putKey t.geometry t.scratch removedSlot k) removedSlot v }

/-- `A[i]` of a table. -/
def Table.slot (t : Table) (i : Nat) : Slot := getSlot t.geometry t.array i

/-! ## Looking for taken slots (spec/42_table_commands.md R265, R270; spec/44_iteration_commands.md R350, R352) -/

/-- The lowest taken slot among `i .. i+n-1`. -/
def takenFrom (g : Geometry) (m : Memory) : (n i : Nat) → Option Nat
  | 0, _ => none
  | n + 1, i => if (getSlot g m i).taken = true then some i else takenFrom g m n (i + 1)

/-- How many of the slots `i .. i+n-1` are taken. -/
def countTaken (g : Geometry) (m : Memory) : (n i : Nat) → Nat
  | 0, _ => 0
  | n + 1, i => (if (getSlot g m i).taken = true then 1 else 0) + countTaken g m n (i + 1)

/-- The lowest index `j ≥ lo` of the table with `A[j].taken = 1`. -/
def Table.firstTaken (t : Table) (lo : Nat) : Option Nat := takenFrom t.geometry t.array (t.cap - lo) lo

/-- How many slots with index at least `lo` are taken. -/
def Table.takenCount (t : Table) (lo : Nat) : Nat := countTaken t.geometry t.array (t.cap - lo) lo

end Sys2Proof.Machine
end

