-- ==== Sys2Proof/Machine/Operands.lean ====
section
/-! DEFINITION. The operands of the commands (spec/30_encoding.md R126 to R128): the key operand with its check, its
normal form and its truncated hash (spec/40_metadata_codec.md R169 to R171, spec/43_map_commands.md R298). All are
taken from the latched copy, never from the live registers. -/

namespace Sys2Proof.Machine

/-- Key byte `j` of a key buffer (spec/10_state.md R39). -/
def keyByte (key : KeyBuf) (j : Nat) : Byte := key.extractLsb' (8 * j) 8

/-- `key[0 .. len-1]` (spec/30_encoding.md R127). -/
def keyPrefix (key : KeyBuf) (len : Nat) : List Byte := (List.range len).map (keyByte key)

/-- `NK(k) = k ++` zero bytes up to 20 (spec/40_metadata_codec.md R169). -/
def normalKey (k : List Byte) : KeyBuf := BitVec.ofNat 160 (leValue k)

/-- The outcome of KeyCheck (R169). -/
inductive KeyResult where
  | absent
  | invalid
  | valid (k : List Byte)
deriving DecidableEq, Repr

/-- KeyCheck (R169): absent without K; invalid when the length is 0 or above 19 or a byte of the key is 0. -/
def keyCheck (k : Bool) (len : Nat) (key : KeyBuf) : KeyResult :=
  if !k then .absent
  else if len = 0 then .invalid
  else if len > Config.keyMax then .invalid
  else if (keyPrefix key len).any (· == 0#8) then .invalid
  else .valid (keyPrefix key len)

/-- `TH(k) = H[19:0]` (R171) for `H = KEYED_HASH(k, secret)` (R170). -/
def State.truncHash (s : State) (k : List Byte) : BitVec 20 := (s.env.keyedHash k s.tab.secret).setWidth 20

/-- A key operand that passed its check: its stored form `NK(k)` and its truncated hash `TH(k)`. -/
structure KeyOperand where
  key : KeyBuf
  th : BitVec 20
deriving DecidableEq, Repr

/-- `GetKey()` (spec/43_map_commands.md R298). -/
def State.getKey (s : State) (k : Bool) : Except ErrCode KeyOperand :=
  match keyCheck k s.latch.keyLen.toNat s.latch.key with
  | .absent => .error .keyAbsent
  | .invalid => .error .keyInvalid
  | .valid k => .ok ⟨normalKey k, s.truncHash k⟩

end Sys2Proof.Machine
end

