-- ==== Sys2Proof/Machine/Probe.lean ====
section
/-! DEFINITION. The probe-sequence engine (spec/41_probe_engine.md R200 to R218): home index and advance, the insertion
walk with theft, the lookup walk, the backward shift, resize, and the grow and shrink arbiters. A loop of the spec is a
recursion on a bound that the loop never reaches, on any array (log entry 12). -/

namespace Sys2Proof.Machine

/-- `Home(t, e) = t & (2^e - 1)` (R200). -/
def home (t : BitVec 20) (e : Nat) : Nat := t.toNat &&& (2 ^ e - 1)

/-- `Next(i, e) = (i + 1) & (2^e - 1)` (R201). -/
def nextIndex (i e : Nat) : Nat := (i + 1) &&& (2 ^ e - 1)

/-! ## The insertion walk (R202 to R206) -/

/-- The entry a walk carries: `(t, k, v)` of R202. -/
structure Candidate where
  th : BitVec 20
  key : KeyBuf
  item : Memory
deriving DecidableEq, Repr

/-- The slot a candidate fills at distance `d`: `{taken: 1, psl: d, th: t, key: k, item: v}` (R202). -/
def Candidate.toSlot (c : Candidate) (d : Nat) : Slot := ⟨true, BitVec.ofNat 11 d, c.th, c.key, c.item⟩

/-- The entry of a slot, carried on after a theft (R203). -/
def Slot.candidate (s : Slot) : Candidate := ⟨s.th, s.key, s.item⟩

/-- The outcome of the walk (R202). OVERFLOW brings no array: the array is the one the walk was given (R204). -/
inductive WalkResult where
  | placed (b : Memory)
  | replaced (b : Memory)
  | overflow
deriving DecidableEq, Repr

/-- The loop of InsertWalk (R202): `b` the working copy, `i` the slot, `d` the distance, `c` the candidate. A theft sets
`d` back to the stored psl, so a walk with thefts may examine more than 2048 slots, and R206 bounds it by `2^e`; "at most
2048 slots" of spec/70_reset_and_hazards.md R471 is read as the bound on one carried entry's distance. DESIGN CHOICE, log
entry 18, unsafe. -/
def insertLoop (g : Geometry) (e : Nat) : (bound : Nat) → (b : Memory) → (i d : Nat) → (c : Candidate) → WalkResult
  | 0, _, _, _, _ => .overflow
  | bound + 1, b, i, d, c =>
    let s := getSlot g b i
    if s.taken = false then .placed (setSlot g b i (c.toSlot d))
    else if s.th = c.th ∧ s.key = c.key then
      .replaced (setSlot g b i { s with item := c.item, psl := BitVec.ofNat 11 d })
    else if d > s.psl.toNat then
      if s.psl.toNat = Config.maxPsl then .overflow
      else insertLoop g e bound (setSlot g b i (c.toSlot d)) (nextIndex i e) (s.psl.toNat + 1) s.candidate
    else if d = Config.maxPsl then .overflow
    else insertLoop g e bound b (nextIndex i e) (d + 1) c

/-- A bound on the iterations of any insertion walk: at most `2047·2^e` thefts, each raising a stored psl, and at most
2048 iterations between two of them. -/
def insertBound (e : Nat) : Nat := 2 ^ (e + 22)

/-- `InsertWalk(A, e, t0, k0, v0)` (R202). -/
def insertWalk (g : Geometry) (e : Nat) (a : Memory) (c : Candidate) : WalkResult :=
  insertLoop g e (insertBound e) a (home c.th e) 0 c

/-! ## The lookup walk (R207, R208) -/

/-- The loop of Find (R207). -/
def findLoop (g : Geometry) (e : Nat) (a : Memory) (k : KeyOperand) : (bound : Nat) → (i d : Nat) → Option Nat
  | 0, _, _ => none
  | bound + 1, i, d =>
    let s := getSlot g a i
    if s.taken = false then none
    else if s.psl.toNat < d then none
    else if s.th = k.th ∧ s.key = k.key then some i
    else findLoop g e a k bound (nextIndex i e) (d + 1)

/-- `Find(A, e, t, k)` (R207): FOUND(i) is `some i`. At distance 2048 every stored psl is below the distance (R208). -/
def findSlot (g : Geometry) (e : Nat) (a : Memory) (k : KeyOperand) : Option Nat :=
  findLoop g e a k (Config.maxPsl + 2) (home k.th e) 0

/-! ## Backward-shift deletion (R209, R210) -/

/-- The loop of BackwardShift (R209), then the emptying of the last slot. -/
def shiftLoop (g : Geometry) (e : Nat) : (bound : Nat) → (a : Memory) → (prev j : Nat) → Memory
  | 0, a, prev, _ => setSlot g a prev Slot.empty
  | bound + 1, a, prev, j =>
    let s := getSlot g a j
    if s.taken = true ∧ s.psl.toNat > 0 then
      shiftLoop g e bound (setSlot g a prev { s with psl := BitVec.ofNat 11 (s.psl.toNat - 1) }) j (nextIndex j e)
    else setSlot g a prev Slot.empty

/-- A bound on the shifts: an entry is shifted again only after a whole turn, with its psl one lower. -/
def shiftBound (e : Nat) : Nat := 2 ^ (e + 11)

/-- `BackwardShift(A, e, i)` (R209). -/
def backwardShift (g : Geometry) (e : Nat) (a : Memory) (i : Nat) : Memory :=
  shiftLoop g e (shiftBound e) a i (nextIndex i e)

/-! ## Resize (R211 to R215) -/

/-- Reinsert the taken ones of the slots `i .. i+n-1` of the old array into the new one, in ascending order (R211,
R212), each with its stored truncated hash and from distance 0; `none` when a walk overflows. -/
def reinsert (g : Geometry) (a : Memory) (eNew : Nat) : (n i : Nat) → (b : Memory) → Option Memory
  | 0, _, b => some b
  | n + 1, i, b =>
    let s := getSlot g a i
    if s.taken then
      match insertWalk g eNew b s.candidate with
      | .placed b' => reinsert g a eNew n (i + 1) b'
      | .replaced b' => reinsert g a eNew n (i + 1) b'
      | .overflow => none
    else reinsert g a eNew n (i + 1) b

/-- The outcome of Resize (R211). -/
inductive ResizeResult where
  | ok (t : Table)
  | failAlloc
  | failPsl
deriving DecidableEq, Repr

/-- `Resize(e_new)` (R211): both footprints must fit (spec/20_memory.md R94); the new array starts zero-filled (R95);
STAGE and REMOVED are copied byte for byte (R214), so the scratch is as before; nothing else of the table changes. -/
def Table.resize (t : Table) (memBytes eNew : Nat) : ResizeResult :=
  if footprint t.cap t.slotSize.toNat + footprint (2 ^ eNew) t.slotSize.toNat > memBytes then .failAlloc
  else
    match reinsert t.geometry t.array eNew t.cap 0 [] with
    | none => .failPsl
    | some b => .ok { t with array := b, e := BitVec.ofNat 5 eNew }

/-! ## The load-factor arbiters (R216, R217) -/

/-- The grow arbiter's PROCEED, with whether it grew, or its error. -/
inductive GrowResult where
  | proceed (t : Table) (grew : Bool)
  | fail (c : ErrCode)
deriving DecidableEq, Repr

/-- `GrowArbiter()` (R216). -/
def Table.growArbiter (t : Table) (memBytes : Nat) : GrowResult :=
  if growNeeded t.occ.toNat t.e.toNat = false then .proceed t false
  else if t.e.toNat = Config.maxExp then .fail .full
  else
    match t.resize memBytes (t.e.toNat + 1) with
    | .ok t' => .proceed t' true
    | .failAlloc => .fail .resizeAlloc
    | .failPsl => .fail .resizePsl

/-- The exponent the shrink loop stops at (R217): `while e_new > MIN_EXP and Sparse(occ, e_new): e_new <- e_new - 1`. -/
def shrinkExp (occ : Nat) : Nat → Nat
  | 0 => 0
  | e + 1 => if e + 1 > Config.minExp ∧ sparse occ (e + 1) = true then shrinkExp occ e else e + 1

/-- What the shrink arbiter leaves: the table, SHRANK, SHRINK_FAIL, and the code it returns (R217). -/
structure ShrinkResult where
  table : Table
  shrank : Bool
  failed : Bool
  code : ErrCode
deriving DecidableEq, Repr

/-- `ShrinkArbiter()` (R217): one resize, directly to the exponent the loop stops at. -/
def Table.shrinkArbiter (t : Table) (memBytes : Nat) : ShrinkResult :=
  if t.e.toNat > Config.minExp ∧ sparse t.occ.toNat t.e.toNat = true then
    match t.resize memBytes (shrinkExp t.occ.toNat t.e.toNat) with
    | .ok t' => ⟨t', true, false, .ok⟩
    | .failAlloc => ⟨t, false, true, .resizeAlloc⟩
    | .failPsl => ⟨t, false, true, .resizePsl⟩
  else ⟨t, false, false, .ok⟩

end Sys2Proof.Machine
end

