-- ==== Sys2Proof/Machine/IterationCommands.lean ====
section
/-! DEFINITION. The iteration commands ITER_START, ITER_NEXT and ITER_STOP (spec/44_iteration_commands.md R350 to R357). -/

namespace Sys2Proof.Machine

/-- Present the lowest taken slot with index at least `lo`, or end the iteration with RESULT 1 (R350, R352). -/
def State.present (s : State) (lo : Nat) : State :=
  match s.tab.firstTaken lo with
  | some j => { s with iterActive := true, iterCursor := j, ref := .slot j }.finish 0#32
  | none => { s with iterActive := false, ref := .none }.finish 1#32

/-- ITER_START (R350). -/
def execIterStart (s : State) : Host.Outcome State Fault Refusal :=
  if s.tstate ≠ .ready then .next (s.raise .state) else .next (s.present 0)

/-- ITER_NEXT (R352). -/
def execIterNext (s : State) : Host.Outcome State Fault Refusal :=
  if s.tstate ≠ .ready ∨ s.iterActive = false then .next (s.raise .state) else .next (s.present (s.iterCursor + 1))

/-- ITER_STOP (R354). -/
def execIterStop (s : State) : Host.Outcome State Fault Refusal :=
  if s.tstate ≠ .ready ∨ s.iterActive = false then .next (s.raise .state)
  else .next ({ s with iterActive := false, ref := .none }.finish 0#32)

end Sys2Proof.Machine
end

