-- ==== Sys2Proof/Machine/MapCommands.lean ====
section
/-! DEFINITION. The map commands INSERT, GET and REMOVE (spec/43_map_commands.md R298 to R325). -/

namespace Sys2Proof.Machine

/-- The first action of INSERT and REMOVE (R299): the iteration ends and every reference becomes invalid. -/
def State.endReferences (s : State) : State := { s with iterActive := false, ref := .none }

/-- What INSERT does once its operands are checked and its pre-check has left table `t` (R300): walk, then commit. On
OVERFLOW the growth of the pre-check stays (R303). -/
def State.insertInto (s : State) (t : Table) (grew : Bool) (k : KeyOperand) : State :=
  match insertWalk t.geometry t.e.toNat t.array ⟨k.th, k.key, t.stage⟩ with
  | .placed b => { s with tab := { t with array := b, occ := t.occ + 1#32 } }.complete { result := 1#32, grew := grew }
  | .replaced b => { s with tab := { t with array := b } }.complete { result := 2#32, grew := grew }
  | .overflow => { s with tab := t }.complete { err := .pslOverflow, grew := grew }

/-- INSERT (R300). -/
def execInsert (k d : Bool) (s : State) : Host.Outcome State Fault Refusal :=
  if s.tstate ≠ .ready then .next (s.raise .state)
  else
    match s.getKey k with
    | .error c => .next (s.endReferences.raise c)
    | .ok key =>
      if d = false then .next (s.endReferences.raise .dataAbsent)
      else
        match s.tab.growArbiter s.env.memBytes with
        | .fail c => .next (s.endReferences.raise c)
        | .proceed t grew => .next (s.endReferences.insertInto t grew key)

/-- GET (R310). -/
def execGet (k : Bool) (s : State) : Host.Outcome State Fault Refusal :=
  if s.tstate ≠ .ready then .next (s.raise .state)
  else
    match s.getKey k with
    | .error c => .next ({ s with ref := .none }.raise c)
    | .ok key =>
      match findSlot s.tab.geometry s.tab.e.toNat s.tab.array key with
      | none => .next ({ s with ref := .none }.raise .notFound)
      | some i => .next ({ s with ref := .slot i }.finish (BitVec.ofNat 32 i))

/-- The table after the entry in slot `i` was copied to REMOVED, the count decremented and the gap closed (R320),
before the shrink arbiter. -/
def Table.removeAt (t : Table) (i : Nat) : Table :=
  { t.setRemoved (t.slot i).key (t.slot i).item with
    occ := t.occ - 1#32
    array := backwardShift t.geometry t.e.toNat t.array i }

/-- REMOVE's RESULT (R320): the slot index, with the shrink error code in bits 31:24. -/
def removeResult (i : Nat) (c : ErrCode) : Word := BitVec.ofNat 32 i ||| c.code.setWidth 32 <<< 24

/-- REMOVE (R320). -/
def execRemove (k : Bool) (s : State) : Host.Outcome State Fault Refusal :=
  if s.tstate ≠ .ready then .next (s.raise .state)
  else
    match s.getKey k with
    | .error c => .next (s.endReferences.raise c)
    | .ok key =>
      match findSlot s.tab.geometry s.tab.e.toNat s.tab.array key with
      | none => .next (s.endReferences.raise .notFound)
      | some i =>
        let r := (s.tab.removeAt i).shrinkArbiter s.env.memBytes
        .next ({ s.endReferences with tab := r.table, ref := .removed }.complete
          { result := removeResult i r.code, shrank := r.shrank, shrinkFail := r.failed })

end Sys2Proof.Machine
end

