-- ==== Sys2Proof/Machine/TableCommands.lean ====
section
/-! DEFINITION. The table lifecycle commands INIT, INIT_SIZE, LEN, PEEK, FREE and DISPOSE_ACK
(spec/42_table_commands.md R250 to R272). -/

namespace Sys2Proof.Machine

/-- The secret of a new table (R256): zero with Z, else the entropy port's answer; `none` is FAIL. -/
def State.newSecret (s : State) (z : Bool) : Option Secret := if z then some 0#128 else s.env.entropyAnswer

/-- The environment after the secret was acquired: one answer is spent unless Z is set (R256). -/
def State.secretDrawn (s : State) (z : Bool) : State := if z then s else { s with env := s.env.entropySpent }

/-- The table a successful creation makes (R250): `2^exp` empty slots and a zero scratch. -/
def newTable (exp item : Nat) (p : Bool) (sec : Secret) : Table where
  e := BitVec.ofNat 5 exp
  occ := 0#32
  itemSize := BitVec.ofNat 32 item
  slotSize := BitVec.ofNat 32 (slotBytes item)
  disposer := p
  secret := sec
  array := []
  scratch := []

/-- `TableCreate(exp, item, Z, P)` (R250), its checks in the rule's order. -/
def State.tableCreate (s : State) (exp item : Nat) (z p : Bool) : State :=
  if exp < Config.minExp ∨ exp > Config.maxExp then s.raise .capExp
  else if slotBytes item > Config.maxSlotSize then s.raise .itemSize
  else if footprint (2 ^ exp) (slotBytes item) > s.env.memBytes then s.raise .alloc
  else
    match s.newSecret z with
    | none => (s.secretDrawn z).raise .entropy
    | some sec =>
      { s.secretDrawn z with
        tstate := .ready
        tab := newTable exp item p sec
        ref := .none
        iterActive := false }.finish (BitVec.ofNat 32 exp)

/-- The least exponent of `e .. e+n-1` with `size ≤ 2^e`. -/
def expSearch (size : Nat) : (n e : Nat) → Option Nat
  | 0, _ => none
  | n + 1, e => if size ≤ 2 ^ e then some e else expSearch size n (e + 1)

/-- `ExpForSize(n)` (R252). -/
def expForSize (size : Nat) : Option Nat := expSearch size (Config.maxExp + 1 - Config.minExp) Config.minExp

/-- INIT (R251). -/
def execInit (z p : Bool) (s : State) : Host.Outcome State Fault Refusal :=
  if s.tstate ≠ .none then .next (s.raise .state)
  else .next (s.tableCreate s.latch.arg0.toNat s.latch.arg1.toNat z p)

/-- INIT_SIZE (R253). -/
def execInitSize (z p : Bool) (s : State) : Host.Outcome State Fault Refusal :=
  if s.tstate ≠ .none then .next (s.raise .state)
  else
    match expForSize s.latch.arg0.toNat with
    | none => .next (s.raise .capExp)
    | some x => .next (s.tableCreate x s.latch.arg1.toNat z p)

/-- LEN (R260). -/
def execLen (s : State) : Host.Outcome State Fault Refusal :=
  if s.tstate ≠ .ready then .next (s.raise .state) else .next (s.finish s.tab.occ)

/-- PEEK (R262). -/
def execPeek (s : State) : Host.Outcome State Fault Refusal :=
  if s.tstate ≠ .ready then .next (s.raise .state)
  else if s.latch.arg0.toNat ≥ s.tab.cap then .next (s.raise .range)
  else .next (s.finish (slotMeta s.tab.geometry s.tab.array s.latch.arg0.toNat))

/-- FREE (R265). -/
def execFree (s : State) : Host.Outcome State Fault Refusal :=
  if s.tstate ≠ .ready then .next (s.raise .state)
  else if s.tab.disposer = true ∧ s.tab.occ.toNat > 0 then
    match s.tab.firstTaken 0 with
    | some j =>
      .next ({ s with iterActive := false, disp := j, tstate := .disposing, ref := .slot j }.finish s.tab.occ)
    | none => .fault .freeFoundNoEntry
  else .next (s.release.finish 0#32)

/-- DISPOSE_ACK (R270). -/
def execDisposeAck (s : State) : Host.Outcome State Fault Refusal :=
  if s.tstate ≠ .disposing then .next (s.raise .state)
  else
    match s.tab.firstTaken (s.disp + 1) with
    | some j => .next ({ s with disp := j, ref := .slot j }.finish (BitVec.ofNat 32 (s.tab.takenCount j)))
    | none => .next (s.release.finish 0#32)

end Sys2Proof.Machine
end

