-- ==== Sys2Proof/Machine/Dispatch.lean ====
section
/-! DEFINITION. One arm per command: its meaning on the latched operands (spec/60_exceptions.md R401 after decoding). -/

namespace Sys2Proof.Machine

def exec (i : Instr) (s : State) : Host.Outcome State Fault Refusal :=
  match i with
  | .init z p => Sys2Proof.Machine.execInit z p s
  | .initSize z p => Sys2Proof.Machine.execInitSize z p s
  | .insert k d => Sys2Proof.Machine.execInsert k d s
  | .get k => Sys2Proof.Machine.execGet k s
  | .remove k => Sys2Proof.Machine.execRemove k s
  | .len => Sys2Proof.Machine.execLen s
  | .iterStart => Sys2Proof.Machine.execIterStart s
  | .iterNext => Sys2Proof.Machine.execIterNext s
  | .iterStop => Sys2Proof.Machine.execIterStop s
  | .free => Sys2Proof.Machine.execFree s
  | .disposeAck => Sys2Proof.Machine.execDisposeAck s
  | .peek => Sys2Proof.Machine.execPeek s

end Sys2Proof.Machine
end

