-- ==== Sys2Proof/Machine/HostAccess.lean ====
section
/-! DEFINITION. Host accesses (spec/20_memory.md R80 to R88, R104): the register map, the item apertures, and what an
access does while IDLE and while BUSY. -/

namespace Sys2Proof.Machine

/-- The registers of the REG space (R81). -/
inductive Reg where
  | id
  | version
  | cmd
  | status
  | result
  | arg0
  | arg1
  | keyLen
  | key0
  | key1
  | key2
  | key3
  | key4
  | capExp
  | occ
  | itemSize
  | slotSize
  | refIndex
  | refKey0
  | refKey1
  | refKey2
  | refKey3
  | refKey4
deriving DecidableEq, Repr

/-- The register map (R81): every register with its offset. -/
def regMap : List (Nat × Reg) := [
  (0x00, .id), (0x04, .version), (0x08, .cmd), (0x0C, .status), (0x10, .result), (0x14, .arg0), (0x18, .arg1),
  (0x1C, .keyLen), (0x20, .key0), (0x24, .key1), (0x28, .key2), (0x2C, .key3), (0x30, .key4), (0x34, .capExp),
  (0x38, .occ), (0x3C, .itemSize), (0x40, .slotSize), (0x44, .refIndex), (0x48, .refKey0), (0x4C, .refKey1),
  (0x50, .refKey2), (0x54, .refKey3), (0x58, .refKey4)]

/-- The register at an offset, if one is mapped there. -/
def lookupReg : List (Nat × Reg) → Nat → Option Reg
  | [], _ => none
  | (o, r) :: rest, off => if o = off then some r else lookupReg rest off

/-- The register a REG access reaches: it must be 4 bytes wide at a multiple of 4 (R82) and mapped (R83). -/
def accessedReg (off : BitVec 32) (n : Nat) : Option Reg :=
  if n = 4 ∧ off.toNat % 4 = 0 then lookupReg regMap off.toNat else none

/-- A mirror register: the value while a table exists, else 0 (spec/10_state.md R41). -/
def State.mirror (s : State) (v : Word) : Word := if s.hasTable then v else 0#32

/-- `REF_INDEX` (R48). -/
def State.refIndex (s : State) : Word :=
  match s.ref with
  | .slot i => BitVec.ofNat 32 i
  | .removed => 0xFFFFFFFE#32
  | .none => 0xFFFFFFFF#32

/-- The 20 bytes the REF_KEY registers show (R48): 0 when `ref = NONE` and while DISPOSING. -/
def State.refKey (s : State) : KeyBuf :=
  if s.tstate = .disposing then 0#160
  else
    match s.ref with
    | .slot i => (s.tab.slot i).key
    | .removed => s.tab.removedKey
    | .none => 0#160

/-- The `j`-th 32-bit word of a key buffer (R39). -/
def keyWord (k : KeyBuf) (j : Nat) : Word := k.extractLsb' (32 * j) 32

/-- What a read of a register returns while IDLE (R31 to R48); CMD reads 0 (R32). -/
def State.readReg (s : State) : Reg → Word
  | .id => Config.idValue
  | .version => Config.versionValue
  | .cmd => 0#32
  | .status => s.status
  | .result => s.result
  | .arg0 => s.arg0
  | .arg1 => s.arg1
  | .keyLen => s.keyLen.setWidth 32
  | .key0 => s.key0
  | .key1 => s.key1
  | .key2 => s.key2
  | .key3 => s.key3
  | .key4 => s.key4
  | .capExp => s.mirror (s.tab.e.setWidth 32)
  | .occ => s.mirror s.tab.occ
  | .itemSize => s.mirror s.tab.itemSize
  | .slotSize => s.mirror s.tab.slotSize
  | .refIndex => s.refIndex
  | .refKey0 => keyWord s.refKey 0
  | .refKey1 => keyWord s.refKey 1
  | .refKey2 => keyWord s.refKey 2
  | .refKey3 => keyWord s.refKey 3
  | .refKey4 => keyWord s.refKey 4

/-- What a write of a register does while IDLE: read-only registers ignore it (R83), a CMD write starts a command
(R32), a STATUS write clears sticky bits (R35), KEY_LEN keeps bits 4:0 (R38). -/
def State.writeReg (s : State) (w : Word) : Reg → State
  | .id => s
  | .version => s
  | .cmd => s.latchCommand w
  | .status => s.clearSticky w
  | .result => s
  | .arg0 => { s with arg0 := w }
  | .arg1 => { s with arg1 := w }
  | .keyLen => { s with keyLen := w.setWidth 5 }
  | .key0 => { s with key0 := w }
  | .key1 => { s with key1 := w }
  | .key2 => { s with key2 := w }
  | .key3 => { s with key3 := w }
  | .key4 => { s with key4 := w }
  | .capExp => s
  | .occ => s
  | .itemSize => s
  | .slotSize => s
  | .refIndex => s
  | .refKey0 => s
  | .refKey1 => s
  | .refKey2 => s
  | .refKey3 => s
  | .refKey4 => s

/-! ## The item apertures (R84 to R87) -/

/-- An aperture access has width 1, 2 or 4 and stays inside the item (R86). Only `item_size` bounds an aperture, as R80 and
R86 say, also for an item above 4096 bytes; spec/92_eei_decisions.md D2 calls the spaces 4 KiB. DESIGN CHOICE, log entry 19,
unsafe. -/
def State.insideItem (s : State) (off : BitVec 32) (n : Nat) : Bool :=
  (decide (n = 1) || decide (n = 2) || decide (n = 4)) && decide (off.toNat + n ≤ s.tab.itemSize.toNat)

/-- The first byte of the STAGE item in the scratch (R84, R91). -/
def State.stageBase (s : State) : Nat := s.tab.geometry.itemBase stageSlot

/-- The STAGE aperture is open only while READY (R84). -/
def State.stageOpen (s : State) : Bool := decide (s.tstate = .ready)

/-- The item region the REF aperture shows (R85). -/
inductive RefRegion where
  /-- In the slot array, from this offset on. -/
  | array (base : Nat)
  /-- In the scratch, from this offset on. -/
  | scratch (base : Nat)
  /-- The aperture is closed. -/
  | closed
deriving DecidableEq, Repr

/-- The item region `ref` names (R85). -/
def State.refRegion (s : State) : RefRegion :=
  match s.ref with
  | .slot i => .array (s.tab.geometry.itemBase i)
  | .removed => .scratch (s.tab.geometry.itemBase removedSlot)
  | .none => .closed

/-! ## Refusal (R80, R82 to R86) -/

/-- The access is one that R80, R82 to R86 refuse. -/
def State.refuses (s : State) (space : Space) (off : BitVec 32) (n : Nat) : Bool :=
  match space with
  | .reg => (accessedReg off n).isNone
  | .stage => !(s.stageOpen && s.insideItem off n)
  | .ref => !(decide (s.refRegion ≠ .closed) && s.insideItem off n)
  | .reserved => true

/-- A read returns `w` to the host. -/
def State.returns (s : State) (w : Word) : State := { s with env := { s.env with readData := w } }

/-- A refused write is ignored and sets STATUS.BUS_ERR; nothing else changes (R82, spec/60_exceptions.md R409). -/
def State.refuse (s : State) : State := { s with busErr := true }

/-! ## An access while IDLE -/

/-- The value a read that is not refused returns while IDLE. -/
def State.readValue (s : State) (space : Space) (off : BitVec 32) (n : Nat) : Word :=
  match space with
  | .reg => match accessedReg off n with
    | some r => s.readReg r
    | none => 0#32
  | .stage => BitVec.ofNat 32 (s.tab.scratch.readLE (s.stageBase + off.toNat) n)
  | .ref => match s.refRegion with
    | .array base => BitVec.ofNat 32 (s.tab.array.readLE (base + off.toNat) n)
    | .scratch base => BitVec.ofNat 32 (s.tab.scratch.readLE (base + off.toNat) n)
    | .closed => 0#32
  | .reserved => 0#32

/-- The effect of a write that is not refused while IDLE. -/
def State.writeValue (s : State) (space : Space) (off : BitVec 32) (n : Nat) (v : Word) : State :=
  match space with
  | .reg => match accessedReg off n with
    | some r => s.writeReg v r
    | none => s
  | .stage => { s with tab := { s.tab with scratch := s.tab.scratch.writeLE (s.stageBase + off.toNat) n v.toNat } }
  | .ref => match s.refRegion with
    | .array base => { s with tab := { s.tab with array := s.tab.array.writeLE (base + off.toNat) n v.toNat } }
    | .scratch base => { s with tab := { s.tab with scratch := s.tab.scratch.writeLE (base + off.toNat) n v.toNat } }
    | .closed => s
  | .reserved => s

/-- A host access while IDLE. -/
def State.accessIdle (s : State) : Access → State
  | .read space off n => if s.refuses space off n then s.refuse.returns 0#32 else s.returns (s.readValue space off n)
  | .write space off n v => if s.refuses space off n then s.refuse else s.writeValue space off n v

/-! ## An access while BUSY (R88) -/

/-- BUS_ERR after an access made while BUSY that R80, R82 to R86 would refuse: a free value, since R88 does not say
whether those rules still set it. Any other access leaves BUS_ERR. Log entry 11, safe. -/
def State.busyMalformed (s : State) (space : Space) (off : BitVec 32) (n : Nat) : State :=
  if s.refuses space off n then
    { s with
      busErr := s.busErr || Config.busErrWhileBusy s.env.draws
      env := { s.env with draws := s.env.draws + 1 } }
  else s

/-- What a read returns while BUSY (R88): 0, except ID, VERSION and STATUS. -/
def State.busyValue (s : State) (space : Space) (off : BitVec 32) (n : Nat) : Word :=
  match space with
  | .reg => match accessedReg off n with
    | some .id => s.readReg .id
    | some .version => s.readReg .version
    | some .status => s.readReg .status
    | _ => 0#32
  | _ => 0#32

/-- A host access while BUSY (R88): a write is dropped and sets STATUS.BUSY_VIOL. -/
def State.accessBusy (s : State) : Access → State
  | .read space off n => (s.busyMalformed space off n).returns (s.busyValue space off n)
  | .write space off n _ => { s.busyMalformed space off n with busyViol := true }

/-- A host access (R80 to R88). -/
def State.access (s : State) (a : Access) : State :=
  match s.phase with
  | .idle => s.accessIdle a
  | .busy => s.accessBusy a

end Sys2Proof.Machine
end

