-- ==== Sys2Proof/Machine/Engine.lean ====
section
/-! DEFINITION. The engine's step over the latched word (spec/10_state.md R52, spec/30_encoding.md R124), and how a
command comes to be latched. The step function calls these. -/

namespace Sys2Proof.Machine

/-- Execute the latched command to completion: decode, then the command's meaning, or ERR_ILLEGAL_CMD (R124,
spec/60_exceptions.md R401). -/
def State.executeLatched (s : State) : Host.Outcome State Fault Refusal :=
  match decode s.latch.word with
  | .ok i => exec i s
  | .error _ => .next (s.raise .illegalCmd)

/-- The engine's turn (R52): it steps while BUSY; while IDLE it has nothing to do (spec/60_exceptions.md R426). -/
def State.engineTurn (s : State) : Host.Outcome State Fault Refusal :=
  match s.phase with
  | .idle => .next s
  | .busy => s.executeLatched

/-- The first event is taken from the list. -/
def State.popEvent (s : State) : State := { s with env := { s.env with events := s.env.events.tail } }

/-- An event is put before the others. -/
def State.pushEvent (s : State) (e : Event) : State := { s with env := { s.env with events := e :: s.env.events } }

/-- The command `w` latched with the operand registers as they are, as a CMD write does (R51), and the engine's turn
next. -/
def State.issue (s : State) (w : Word) : State := (s.latchCommand w).pushEvent .engine

end Sys2Proof.Machine
end

