-- ==== Sys2Proof/Machine/Step.lean ====
section
/-! DEFINITION. One step of the HTPE and its environment: the next event happens; when none is left, the engine takes
its step if it is BUSY, so that every command completes (spec/70_reset_and_hazards.md R470). -/

namespace Sys2Proof.Machine

/-- One step: a host access (spec/20_memory.md R97), the engine's step (spec/10_state.md R52), or reset
(spec/70_reset_and_hazards.md R450). -/
def step (s : State) : Host.Outcome State Fault Refusal :=
  match s.env.events with
  | [] => s.engineTurn
  | .engine :: _ => s.popEvent.engineTurn
  | .access a :: _ => .next (s.popEvent.access a)
  | .reset :: _ => .next s.popEvent.onReset

/-- The command with the low `nbits` bits of `w` stands latched and the engine steps next: the HTPE has no program
counter and fetches nothing; its "fetch" is the latch (spec/10_state.md R51, R54; spec/20_memory.md R101). -/
def State.withFetchWord (s : State) (nbits w : Nat) : State := s.issue (BitVec.ofNat 32 (w % 2 ^ nbits))

end Sys2Proof.Machine
end

