-- ==== Sys2Proof/Safety.lean ====
section
/-! DEFINITION. What a good state of the HTPE is: the invariants of the table context (spec/10_state.md R55, R56), the
agreement of the cursors and the reference with the table (R47 to R50), and the canonical form of slot RAM; the
iterations of the insertion walk; and what a safe step is. -/

namespace Sys2Proof.Machine

/-! ## The table -/

/-- A key that KeyCheck accepts (spec/40_metadata_codec.md R169): 1 to 19 bytes, none of them 0. -/
def validKey (k : List Byte) : Prop := 1 ≤ k.length ∧ k.length ≤ Config.keyMax ∧ ∀ b ∈ k, b ≠ 0#8

/-- Slot `i` of the table is taken. -/
def Table.takenAt (t : Table) (i : Nat) : Prop := i < t.cap ∧ (t.slot i).taken = true

/-- INV1 (spec/10_state.md R55): `4 ≤ e ≤ 20` and `0 ≤ occ < 2^e`. -/
def Table.bounds (t : Table) : Prop :=
  Config.minExp ≤ t.e.toNat ∧ t.e.toNat ≤ Config.maxExp ∧ t.occ.toNat < t.cap

/-- INV2 (R55): `occ` is the number of taken slots. -/
def Table.counted (t : Table) : Prop := t.occ.toNat = t.takenCount 0

/-- INV3 (R55): no two taken slots hold equal keys. -/
def Table.uniqueKeys (t : Table) : Prop :=
  ∀ i j, t.takenAt i → t.takenAt j → (t.slot i).key = (t.slot j).key → i = j

/-- INV4 (R55): a taken slot's psl is its distance from its home index; it fits its field by its type. -/
def Table.distances (t : Table) : Prop :=
  ∀ i, t.takenAt i → (t.slot i).psl.toNat = (i + t.cap - home (t.slot i).th t.e.toNat) % t.cap

/-- INV5 (R55): a taken slot holds the normal form of a valid key and that key's truncated hash under the table's
secret, for the environment's keyed hash. -/
def Table.hashed (t : Table) (v : Env) : Prop :=
  ∀ i, t.takenAt i → ∃ k, validKey k ∧ (t.slot i).key = normalKey k ∧
    (t.slot i).th = (v.keyedHash k t.secret).setWidth 20

/-- INV6 (R56): before a taken slot with psl above 0 stands a taken slot whose psl is at most one lower. -/
def Table.robinHood (t : Table) : Prop :=
  ∀ i, t.takenAt i → (t.slot i).psl.toNat > 0 →
    t.takenAt ((i + t.cap - 1) % t.cap) ∧ (t.slot i).psl.toNat ≤ (t.slot ((i + t.cap - 1) % t.cap)).psl.toNat + 1

/-- The sizes of a table are the ones its creation computed (spec/20_memory.md R90) and its footprint fits (R93). -/
def Table.sized (t : Table) (v : Env) : Prop :=
  t.slotSize.toNat = slotBytes t.itemSize.toNat ∧ footprint t.cap t.slotSize.toNat ≤ v.memBytes

/-- Every listed byte lies below a bound. -/
def Memory.below (m : Memory) (bound : Nat) : Prop := ∀ c ∈ m, c.1 < bound

/-- The array and the scratch are in canonical form and inside their allocations (R91, R93). -/
def Table.stored (t : Table) : Prop :=
  t.array.wf = true ∧ t.scratch.wf = true ∧ t.array.below (t.cap * t.slotSize.toNat) ∧
    t.scratch.below (Config.scratchSlots * t.slotSize.toNat)

/-- All of R55 and R56, for the table of a state. -/
structure Table.Inv (t : Table) (v : Env) : Prop where
  bounds : t.bounds
  counted : t.counted
  uniqueKeys : t.uniqueKeys
  distances : t.distances
  hashed : t.hashed v
  robinHood : t.robinHood
  sized : t.sized v
  stored : t.stored

/-! ## The map a table stands for -/

/-- The item a table holds for a key operand, by the lookup walk of spec/41_probe_engine.md R207. -/
def Table.lookup (t : Table) (k : KeyOperand) : Option Memory :=
  (findSlot t.geometry t.e.toNat t.array k).map fun i => (t.slot i).item

/-! ## The insertion walk, iteration by iteration -/

/-- After `m` iterations of InsertWalk's loop (spec/41_probe_engine.md R202) that return nothing, the working copy `a`, the
slot `i`, the distance `d` and the candidate `c` have become the last four arguments. -/
inductive WalkReaches (g : Geometry) (e : Nat) :
    Nat → Memory → Nat → Nat → Candidate → Memory → Nat → Nat → Candidate → Prop where
  | here (a : Memory) (i d : Nat) (c : Candidate) : WalkReaches g e 0 a i d c a i d c
  /-- Step 6 past a slot that keeps its entry. -/
  | pass (m : Nat) (a b : Memory) (i d j f : Nat) (c k : Candidate) : (getSlot g a i).taken = true →
      ((getSlot g a i).th ≠ c.th ∨ (getSlot g a i).key ≠ c.key) → d ≤ (getSlot g a i).psl.toNat → d ≠ 2047 →
      WalkReaches g e m a ((i + 1) % 2 ^ e) (d + 1) c b j f k → WalkReaches g e (m + 1) a i d c b j f k
  /-- Step 4, the theft, and then step 6 with the stolen entry (R203). -/
  | steal (m : Nat) (a b : Memory) (i d j f : Nat) (c k : Candidate) : (getSlot g a i).taken = true →
      ((getSlot g a i).th ≠ c.th ∨ (getSlot g a i).key ≠ c.key) → (getSlot g a i).psl.toNat < d →
      (getSlot g a i).psl.toNat ≠ 2047 →
      WalkReaches g e m (setSlot g a i ⟨true, BitVec.ofNat 11 d, c.th, c.key, c.item⟩) ((i + 1) % 2 ^ e)
        ((getSlot g a i).psl.toNat + 1) ⟨(getSlot g a i).th, (getSlot g a i).key, (getSlot g a i).item⟩ b j f k →
      WalkReaches g e (m + 1) a i d c b j f k

/-! ## The state -/

/-- The slot RAM of a state is in canonical form. -/
def State.canonical (s : State) : Prop := s.tab.array.wf = true ∧ s.tab.scratch.wf = true

/-- The shape of the table while one exists: the exponent's range (INV1), the sizes, the allocations. -/
structure State.Shape (s : State) : Prop where
  /-- `4 ≤ e ≤ 20`. -/
  exponent : s.tstate ≠ .none → Config.minExp ≤ s.tab.e.toNat ∧ s.tab.e.toNat ≤ Config.maxExp
  sized : s.tstate ≠ .none → s.tab.sized s.env
  stored : s.tstate ≠ .none → s.tab.stored
  absent : s.tstate = .none → s.tab = Table.absent

/-- The reference and the cursors name what R47 to R50 say they name. -/
structure State.Pointers (s : State) : Prop where
  /-- "`SLOT(i)` shows slot `i` of `A` (which is taken whenever `ref = SLOT(i)`)" (R47). -/
  slotTaken : ∀ i, s.ref = .slot i → s.tstate ≠ .none ∧ s.tab.takenAt i
  removedReady : s.ref = .removed → s.tstate = .ready
  /-- While DISPOSING the reference is the dispose cursor (R50, spec/42_table_commands.md R265, R270). -/
  disposing : s.tstate = .disposing → s.ref = .slot s.disp ∧ s.tab.disposer = true
  /-- An iteration is active only while READY, and its cursor is a taken slot (R49). -/
  cursor : s.iterActive = true → s.tstate = .ready ∧ s.tab.takenAt s.iterCursor

/-- A good state: the invariants of R55 and R56 while a table exists, and the pointers. -/
structure State.Inv (s : State) : Prop where
  table : s.tstate ≠ .none → s.tab.Inv s.env
  absent : s.tstate = .none → s.tab = Table.absent
  pointers : s.Pointers

/-! ## Safe steps -/

/-- A step is safe when it answers a next state: the HTPE has no fault (spec/60_exceptions.md R407). -/
def SafeStep (s : State) : Prop := ∃ t, step s = .next t

/-- A run of `n` steps from `s` that ends in `t`. -/
inductive Run : Nat → State → State → Prop where
  | done (s : State) : Run 0 s s
  | step (n : Nat) (s t u : State) : Machine.step s = .next t → Run n t u → Run (n + 1) s u

end Sys2Proof.Machine
end

