-- ==== Sys2Proof/Certificates/Slice0/Obligations.lean ====
section
/-! DEFINITION. The statements about the HTPE that are to be proved, each from a numbered rule of spec/. A next state is
written out as the old one with the fields the rule changes, so that everything else is unchanged: the frame. -/

open Sys2Proof Sys2Proof.Machine

/-! ## Decoding -/

/-- The command words that spec/30_encoding.md R129 writes out, and the illegal ones of R125, decode as they read. -/
def Obligations.SpecWordsDecode : Prop :=
  decode 0x00000001#32 = .ok (.init false false) ∧ decode 0x00000401#32 = .ok (.init true false) ∧
  decode 0x00000801#32 = .ok (.init false true) ∧ decode 0x00000C01#32 = .ok (.init true true) ∧
  decode 0x00000402#32 = .ok (.initSize true false) ∧ decode 0x00000303#32 = .ok (.insert true true) ∧
  decode 0x00000103#32 = .ok (.insert true false) ∧ decode 0x00000003#32 = .ok (.insert false false) ∧
  decode 0x00000104#32 = .ok (.get true) ∧ decode 0x00000105#32 = .ok (.remove true) ∧
  decode 0x00000006#32 = .ok .len ∧ decode 0x00000007#32 = .ok .iterStart ∧ decode 0x00000008#32 = .ok .iterNext ∧
  decode 0x00000009#32 = .ok .iterStop ∧ decode 0x0000000A#32 = .ok .free ∧ decode 0x0000000B#32 = .ok .disposeAck ∧
  decode 0x0000000C#32 = .ok .peek ∧ decode 0x00000000#32 = .error .reservedOpcode ∧
  decode 0x00000020#32 = .error .reservedOpcode ∧ decode 0x00001001#32 = .error .reservedBits ∧
  decode 0x00000403#32 = .error .unadmittedFlag

/-- Decode and encode agree, on every word and every instruction: the words that decode to `i` are `encode i` alone, so
no bit of an encoding is dropped (spec/30_encoding.md R121 to R124). -/
def Obligations.DecodeAndEncodeAgree : Prop :=
  ∀ (w : Word) (i : Instr), decode w = .ok i ↔ encode i = w

/-- spec/30_encoding.md R124: a latched word selects the row with `(w & mask) = match`; at most one row matches; if none
does, the command completes with ERR_ILLEGAL_CMD and changes nothing else; decoding is total. -/
def Obligations.DecodingSelectsTheOneMatchingRow : Prop :=
  (∀ (w : Word) (r : CommandRow), r ∈ commandRows → w &&& r.mask = r.matchWord → decode w = .ok (r.instr w)) ∧
  (∀ (w : Word) (r r' : CommandRow), r ∈ commandRows → r' ∈ commandRows → w &&& r.mask = r.matchWord →
    w &&& r'.mask = r'.matchWord → r.matchWord = r'.matchWord) ∧
  (∀ s : State, (∀ r ∈ commandRows, s.latch.word &&& r.mask ≠ r.matchWord) →
    s.executeLatched = .next { s with
      phase := .idle, err := .illegalCmd, result := 0#32, grew := false, shrank := false, shrinkFail := false }) ∧
  (∀ w : Word, (∃ r ∈ commandRows, w &&& r.mask = r.matchWord) ∨ ∃ reason, decode w = .error reason)

/-- spec/30_encoding.md R125: the illegal words are those with OPC 0 or 13 to 31, a 1 in bits 7:5 or 31:12, or a flag on
an opcode that does not admit it (R123), among them the word of all zeros; each raises ERR_ILLEGAL_CMD. -/
def Obligations.IllegalWordsAreTheReservedOnes : Prop :=
  (∀ w : Word, (∃ reason, decode w = .error reason) ↔
    ((w.extractLsb' 0 5).toNat = 0 ∨ (w.extractLsb' 0 5).toNat ≥ 13) ∨
    (w.extractLsb' 5 3 ≠ 0#3 ∨ w.extractLsb' 12 20 ≠ 0#20) ∨
    (w.getLsbD 8 = true ∧ (w.extractLsb' 0 5).toNat ∉ [3, 4, 5]) ∨
    (w.getLsbD 9 = true ∧ (w.extractLsb' 0 5).toNat ≠ 3) ∨
    ((w.getLsbD 10 = true ∨ w.getLsbD 11 = true) ∧ (w.extractLsb' 0 5).toNat ∉ [1, 2])) ∧
  (∃ reason, decode 0#32 = .error reason) ∧
  (∀ (s : State) (reason : IllegalReason), decode s.latch.word = .error reason →
    s.executeLatched = .next { s with
      phase := .idle, err := .illegalCmd, result := 0#32, grew := false, shrank := false, shrinkFail := false })

/-! ## The step -/

/-- What a step does with the next event. A step runs the decoded command: while BUSY, at the engine's turn, the step is
`exec` of the command the latched word decodes to, with that event taken (spec/10_state.md R52, spec/30_encoding.md R124);
a word that does not decode goes to `executeLatched`, as every latched word does. A host access in the list is performed,
with that event taken (spec/20_memory.md R97). THE MODEL'S CHOICE, not the spec's: that what comes next is a list of
events, and that with no event left the engine takes its turn (log entry 4; R52 says only "at some later point"), and that
an IDLE block at an engine turn or with no event left stays as it is (log entry 15). -/
def Obligations.StepRunsTheDecodedCommand : Prop :=
  (∀ (s : State) (i : Instr), s.phase = .busy → decode s.latch.word = .ok i → i.wellFormed = true →
    (s.env.events = [] → step s = exec i s) ∧
    (∀ es, s.env.events = .engine :: es → step s = exec i { s with env := { s.env with events := es } })) ∧
  (∀ s : State, s.phase = .busy →
    (s.env.events = [] → step s = s.executeLatched) ∧
    (∀ es, s.env.events = .engine :: es →
      step s = State.executeLatched { s with env := { s.env with events := es } })) ∧
  (∀ (s : State) (a : Access) (es : List Event), s.env.events = .access a :: es →
    step s = .next (State.access { s with env := { s.env with events := es } } a)) ∧
  (∀ s : State, s.phase = .idle →
    (s.env.events = [] → step s = .next s) ∧
    (∀ es, s.env.events = .engine :: es → step s = .next { s with env := { s.env with events := es } }))

/-! ## Reset -/

/-- The registers after reset read as spec/10_state.md R57 lists them; the block is IDLE, holds no table, no reference
and no iteration. -/
def Obligations.ResetLeavesTheListedValues : Prop :=
  State.reset.phase = .idle ∧ State.reset.tstate = .none ∧ State.reset.ref = .none ∧
  State.reset.iterActive = false ∧ State.reset.readReg .id = 0x48545045#32 ∧
  State.reset.readReg .version = 0x00000001#32 ∧ State.reset.readReg .refIndex = 0xFFFFFFFF#32 ∧
  ∀ r ∈ [Reg.cmd, .status, .result, .arg0, .arg1, .keyLen, .key0, .key1, .key2, .key3, .key4, .capExp, .occ, .itemSize,
    .slotSize, .refKey0, .refKey1, .refKey2, .refKey3, .refKey4], State.reset.readReg r = 0#32

/-- The state after reset meets every invariant that is stated of steps: the invariants of a good state, the shape, the
pointers, and the canonical form of slot RAM. THE MODEL'S CHOICE, not the spec's: that the table fields, which hold no value
after reset (spec/10_state.md R57), are the placeholder `Table.absent` (log entry 6, in `Inv` and `Shape`), and that slot
RAM is a canonical list of bytes (log entry 8). -/
def Obligations.ResetStateIsGood : Prop :=
  State.reset.Inv ∧ State.reset.canonical ∧ State.reset.Shape ∧ State.reset.Pointers

/-- A reset event, at any time, also while BUSY or DISPOSING, gives the state of reset: a latched command has no
effect, a table goes without dispose requests (spec/70_reset_and_hazards.md R450, R451, R452). THE MODEL'S CHOICE, not the
spec's, are three clauses of the equation: that the environment stays (log entry 5), that the table fields become the
placeholder `Table.absent` (log entry 6), and that the latched copy, `iter.cursor` and `disp` become 0 (log entry 7). -/
def Obligations.ResetDropsCommandAndTable : Prop :=
  ∀ (s : State) (es : List Event), s.env.events = .reset :: es →
    step s = .next { State.reset with env := { s.env with events := es } }

/-! ## The metadata codec and the sizes -/

/-- The metadata codec (spec/40_metadata_codec.md R161 to R167): what the reads, the setters and `pack` compute, as
numbers; every setter leaves the other two fields; `pack` undoes the three reads; the rules' examples. -/
def Obligations.CodecFieldsAreIndependent : Prop :=
  (∀ w : Word, (getTaken w = true ↔ w.toNat % 2 = 1) ∧ (getPsl w).toNat = w.toNat / 2 % 2048 ∧
    (getTh w).toNat = w.toNat / 4096) ∧
  (∀ (w : Word) (t : Bool), getTaken (setTaken w t) = t ∧ getPsl (setTaken w t) = getPsl w ∧
    getTh (setTaken w t) = getTh w) ∧
  (∀ (w : Word) (p : Nat), getTaken (setPsl w p) = getTaken w ∧ (getPsl (setPsl w p)).toNat = p % 2 ^ 11 ∧
    getTh (setPsl w p) = getTh w) ∧
  (∀ (w : Word) (h : Nat), getTaken (setTh w h) = getTaken w ∧ getPsl (setTh w h) = getPsl w ∧
    (getTh (setTh w h)).toNat = h % 2 ^ 20) ∧
  (∀ (t : Bool) (p h : Nat), (pack t p h).toNat = (if t then 1 else 0) + 2 * (p % 2048) + 4096 * (h % 1048576)) ∧
  (∀ w : Word, pack (getTaken w) (getPsl w).toNat (getTh w).toNat = w) ∧
  (getTaken 0x00003001#32 = true ∧ getTaken 0x00000000#32 = false ∧ getPsl 0x00012345#32 = 0x1A2#11 ∧
    getPsl 0xFFFFFFFF#32 = 2047#11 ∧ getTh 0x00012345#32 = 0x00012#20 ∧ getTh 0xABCDE007#32 = 0xABCDE#20 ∧
    setTaken 0x00003001#32 false = 0x00003000#32 ∧ setPsl 0x00003001#32 2 = 0x00003005#32 ∧
    setTh 0x00000001#32 0x123456 = 0x23456001#32) ∧
  pack true 3 0xABCDE = 0xABCDE007#32 ∧ pack true 2047 0xFFFFF = 0xFFFFFFFF#32 ∧ pack true 0 3 = 0x00003001#32 ∧
  pack false 0 0 = 0x00000000#32

/-- spec/20_memory.md R90 and spec/42_table_commands.md R254: the slot size is the least multiple of 8 that holds
metadata, key and item; an item size is accepted iff it is at most `0xFFFFFFE0`. -/
def Obligations.SlotSizeIsTheLeastMultipleOfEight : Prop :=
  (∀ item, 8 ∣ slotBytes item ∧ 24 + item ≤ slotBytes item ∧ ∀ n, 8 ∣ n → 24 + item ≤ n → slotBytes item ≤ n) ∧
  (∀ item, slotBytes item ≤ 0xFFFFFFFF ↔ item ≤ 0xFFFFFFE0)

/-- spec/42_table_commands.md R252: `ExpForSize(n)` is the smallest `e` from 4 to 20 with `n ≤ 2^e`, NONE iff
`n > 2^20`. -/
def Obligations.ExpForSizeIsTheSmallestFit : Prop :=
  (∀ n e, expForSize n = some e ↔ (4 ≤ e ∧ e ≤ 20 ∧ n ≤ 2 ^ e ∧ ∀ f, 4 ≤ f → f < e → 2 ^ f < n)) ∧
  (∀ n, expForSize n = none ↔ n > 2 ^ 20)

/-- spec/40_metadata_codec.md R173, R174: the two load-factor tests on exact integers, equal to a comparison with the
rounded threshold, with the values the rules give. -/
def Obligations.LoadFactorThresholds : Prop :=
  (∀ occ e, growNeeded occ e = true ↔ 10 * occ ≥ 9 * 2 ^ e) ∧ (∀ e, ¬ 10 ∣ 9 * 2 ^ e) ∧
  (∀ occ e, growNeeded occ e = true ↔ occ ≥ (9 * 2 ^ e + 9) / 10) ∧
  (∀ occ e, sparse occ e = true ↔ 10 * occ ≤ 4 * 2 ^ e) ∧ (∀ occ e, sparse occ e = true ↔ 5 * occ ≤ 2 ^ (e + 1)) ∧
  (∀ occ e, sparse occ e = true ↔ occ ≤ 4 * 2 ^ e / 10) ∧
  (9 * 2 ^ 4 + 9) / 10 = 15 ∧ (9 * 2 ^ 9 + 9) / 10 = 461 ∧ (9 * 2 ^ 20 + 9) / 10 = 943719 ∧
  4 * 2 ^ 4 / 10 = 6 ∧ 4 * 2 ^ 5 / 10 = 12 ∧ 4 * 2 ^ 8 / 10 = 102

/-- spec/41_probe_engine.md R218: a successful shrink goes down by at least one exponent, the table was sparse one
exponent above the new one, so `occ ≤ 0.8 · 2^e_new`, and the next pre-check does not grow the table back. -/
def Obligations.ShrinkIsNotFollowedByGrow : Prop :=
  ∀ (t u : Table) (memBytes : Nat), (t.shrinkArbiter memBytes).shrank = true → u = (t.shrinkArbiter memBytes).table →
    u.e.toNat < t.e.toNat ∧ sparse u.occ.toNat (u.e.toNat + 1) = true ∧ 10 * u.occ.toNat ≤ 8 * 2 ^ u.e.toNat ∧
    growNeeded u.occ.toNat u.e.toNat = false

/-- The shrink loop of spec/41_probe_engine.md R217 stops at the first exponent, going down, that is 4 or no longer
sparse. -/
def Obligations.ShrinkLoopStopsAtTheFirstDenseExponent : Prop :=
  ∀ occ e, 4 < e → sparse occ e = true →
    4 ≤ shrinkExp occ e ∧ shrinkExp occ e < e ∧ (shrinkExp occ e = 4 ∨ sparse occ (shrinkExp occ e) = false) ∧
    ∀ f, shrinkExp occ e < f → f ≤ e → sparse occ f = true

/-! ## Which commands run where -/

/-- spec/60_exceptions.md R401, step 2: a command in a state that does not allow it completes with ERR_STATE and changes
nothing else. -/
def Obligations.WrongStateRaisesErrState : Prop :=
  ∀ s : State,
    (s.tstate ≠ .none → ∀ i ∈ [Instr.init false false, .init false true, .init true false, .init true true,
        .initSize false false, .initSize false true, .initSize true false, .initSize true true],
      exec i s = .next { s with
        phase := .idle, err := .state, result := 0#32, grew := false, shrank := false, shrinkFail := false }) ∧
    (s.tstate ≠ .ready → ∀ i ∈ [Instr.insert false false, .insert false true, .insert true false, .insert true true,
        .get false, .get true, .remove false, .remove true, .len, .peek, .iterStart, .free],
      exec i s = .next { s with
        phase := .idle, err := .state, result := 0#32, grew := false, shrank := false, shrinkFail := false }) ∧
    (s.tstate ≠ .ready ∨ s.iterActive = false → ∀ i ∈ [Instr.iterNext, .iterStop],
      exec i s = .next { s with
        phase := .idle, err := .state, result := 0#32, grew := false, shrank := false, shrinkFail := false }) ∧
    (s.tstate ≠ .disposing → exec .disposeAck s = .next { s with
        phase := .idle, err := .state, result := 0#32, grew := false, shrank := false, shrinkFail := false })

/-! ## Table creation -/

/-- INIT with a valid exponent, an item size that fits and enough memory creates a table (spec/42_table_commands.md
R250, R251, R256): the secret is zero with Z, and the entropy port is not asked; else it is the port's answer.
THE MODEL'S CHOICE, not the spec's: that the answer is the first of a list, is spent and counts as a draw (log entry 3), and
that zero-filled slot RAM lists no byte (log entry 8). -/
def Obligations.InitCreatesATable : Prop :=
  ∀ (s : State) (z p : Bool) (sec : Secret),
    s.tstate = .none → 4 ≤ s.latch.arg0.toNat → s.latch.arg0.toNat ≤ 20 → s.latch.arg1.toNat ≤ 0xFFFFFFE0 →
    (2 ^ s.latch.arg0.toNat + 2) * slotBytes s.latch.arg1.toNat ≤ s.env.memBytes →
    (z = false → s.env.entropyAnswer = some sec) →
    exec (.init z p) s = .next { s with
      phase := .idle, err := .ok, result := s.latch.arg0, grew := false, shrank := false, shrinkFail := false
      tstate := .ready, ref := .none, iterActive := false
      tab := { e := BitVec.ofNat 5 s.latch.arg0.toNat, occ := 0#32, itemSize := s.latch.arg1,
               slotSize := BitVec.ofNat 32 (slotBytes s.latch.arg1.toNat), disposer := p,
               secret := if z then 0#128 else sec, array := [], scratch := [] }
      env := if z then s.env else { s.env with entropy := s.env.entropy.tail, draws := s.env.draws + 1 } }

/-- INIT_SIZE creates a table of the least exponent that holds ARG0 elements (spec/42_table_commands.md R252, R253). The
entropy list and the empty lists of bytes are the model's choice, log entries 3 and 8, as for INIT. -/
def Obligations.InitSizeCreatesTheLeastTable : Prop :=
  ∀ (s : State) (z p : Bool) (sec : Secret) (e : Nat),
    s.tstate = .none → 4 ≤ e → e ≤ 20 → s.latch.arg0.toNat ≤ 2 ^ e → (∀ f, 4 ≤ f → f < e → 2 ^ f < s.latch.arg0.toNat) →
    s.latch.arg1.toNat ≤ 0xFFFFFFE0 → (2 ^ e + 2) * slotBytes s.latch.arg1.toNat ≤ s.env.memBytes →
    (z = false → s.env.entropyAnswer = some sec) →
    exec (.initSize z p) s = .next { s with
      phase := .idle, err := .ok, result := BitVec.ofNat 32 e, grew := false, shrank := false, shrinkFail := false
      tstate := .ready, ref := .none, iterActive := false
      tab := { e := BitVec.ofNat 5 e, occ := 0#32, itemSize := s.latch.arg1,
               slotSize := BitVec.ofNat 32 (slotBytes s.latch.arg1.toNat), disposer := p,
               secret := if z then 0#128 else sec, array := [], scratch := [] }
      env := if z then s.env else { s.env with entropy := s.env.entropy.tail, draws := s.env.draws + 1 } }

/-- A creation that fails changes only STATUS and RESULT (spec/42_table_commands.md R258); and which error it reports, in
the priority order of R250, R251 and R253: the exponent, the item size (R254), the memory (R255), the entropy port (R256).
THE MODEL'S CHOICE, not the spec's: that a request to the entropy port spends the first answer of a list and counts a draw
(log entry 3). -/
def Obligations.FailedCreationChangesNothing : Prop :=
  ∀ (s t : State) (i : Instr) (z p : Bool) (exp : Option Nat), s.tstate = .none →
    (i = .init z p ∧ exp = some s.latch.arg0.toNat ∨ i = .initSize z p ∧ exp = expForSize s.latch.arg0.toNat) →
    exec i s = .next t →
    (t.err ≠ .ok → t = { s with
      phase := .idle, err := t.err, result := 0#32, grew := false, shrank := false, shrinkFail := false, env := t.env }) ∧
    (t.env = s.env ∨ t.env = { s.env with entropy := s.env.entropy.tail, draws := s.env.draws + 1 }) ∧
    (t.err = .capExp ↔ exp = none ∨ ∃ x, exp = some x ∧ (x < 4 ∨ x > 20)) ∧
    (t.err = .itemSize ↔ (∃ x, exp = some x ∧ 4 ≤ x ∧ x ≤ 20) ∧ s.latch.arg1.toNat > 0xFFFFFFE0) ∧
    (t.err = .alloc ↔ ∃ x, exp = some x ∧ 4 ≤ x ∧ x ≤ 20 ∧ s.latch.arg1.toNat ≤ 0xFFFFFFE0 ∧
      (2 ^ x + 2) * slotBytes s.latch.arg1.toNat > s.env.memBytes) ∧
    (t.err = .entropy ↔ z = false ∧ s.env.entropyAnswer = none ∧ ∃ x, exp = some x ∧ 4 ≤ x ∧ x ≤ 20 ∧
      s.latch.arg1.toNat ≤ 0xFFFFFFE0 ∧ (2 ^ x + 2) * slotBytes s.latch.arg1.toNat ≤ s.env.memBytes) ∧
    (t.err = .ok ∨ t.err = .capExp ∨ t.err = .itemSize ∨ t.err = .alloc ∨ t.err = .entropy)

/-! ## Keys -/

/-- GetKey (spec/43_map_commands.md R298) with KeyCheck (spec/40_metadata_codec.md R169) and the boundary of R307: no
key without K; a length of 0 or above 19, or a zero byte inside, is invalid; every other key gives its 20-byte normal
form, which has the key's bytes and then zeros, and the low 20 bits of its keyed hash (R171). -/
def Obligations.KeyOperandIsChecked : Prop :=
  ∀ s : State,
    s.getKey false = .error .keyAbsent ∧
    ((s.latch.keyLen.toNat = 0 ∨ s.latch.keyLen.toNat > 19 ∨
      ∃ j, j < s.latch.keyLen.toNat ∧ keyByte s.latch.key j = 0#8) → s.getKey true = .error .keyInvalid) ∧
    (1 ≤ s.latch.keyLen.toNat → s.latch.keyLen.toNat ≤ 19 →
      (∀ j, j < s.latch.keyLen.toNat → keyByte s.latch.key j ≠ 0#8) →
      ∃ key : KeyOperand, s.getKey true = .ok key ∧
        (∀ j, j < 20 → keyByte key.key j = if j < s.latch.keyLen.toNat then keyByte s.latch.key j else 0#8) ∧
        key.th = ((s.env.keyedHash ((List.range s.latch.keyLen.toNat).map (keyByte s.latch.key))
          s.tab.secret).setWidth 20))

/-- "Bytes `L.key[L.key_len .. 19]` are ignored" (spec/30_encoding.md R127): latches that agree on the length and on the
first bytes give the same key operand. -/
def Obligations.KeyBytesPastTheLengthAreIgnored : Prop :=
  ∀ (s : State) (k : Bool) (key : KeyBuf),
    (∀ j, j < s.latch.keyLen.toNat → keyByte key j = keyByte s.latch.key j) →
    State.getKey { s with latch := { s.latch with key := key } } k = s.getKey k

/-- The errors of the map commands before any probe, in the priority of spec/43_map_commands.md R298, R301: key absent,
key invalid, then, for INSERT, data absent. Each leaves the table as it was; INSERT and REMOVE end the iteration and the
reference, GET the reference (spec/60_exceptions.md R402). -/
def Obligations.OperandErrorsComeBeforeAnyMutation : Prop :=
  ∀ s : State, s.tstate = .ready →
    (∀ (k : Bool) (c : ErrCode), s.getKey k = .error c →
      (∀ d, exec (.insert k d) s = .next { s with
        phase := .idle, err := c, result := 0#32, grew := false, shrank := false, shrinkFail := false
        iterActive := false, ref := .none }) ∧
      exec (.get k) s = .next { s with
        phase := .idle, err := c, result := 0#32, grew := false, shrank := false, shrinkFail := false, ref := .none } ∧
      exec (.remove k) s = .next { s with
        phase := .idle, err := c, result := 0#32, grew := false, shrank := false, shrinkFail := false
        iterActive := false, ref := .none }) ∧
    (∀ (k : Bool) (key : KeyOperand), s.getKey k = .ok key → exec (.insert k false) s = .next { s with
        phase := .idle, err := .dataAbsent, result := 0#32, grew := false, shrank := false, shrinkFail := false
        iterActive := false, ref := .none })

/-! ## The map commands -/

/-- INSERT without growth (spec/43_map_commands.md R300): a walk that places the STAGE item adds one entry with RESULT 1;
a walk that meets the key replaces its item with RESULT 2. Only the array, and for a new entry `occ`, change in the
table. -/
def Obligations.InsertPlacesOrReplaces : Prop :=
  ∀ (s : State) (key : KeyOperand) (b : Memory), s.tstate = .ready → s.getKey true = .ok key →
    10 * s.tab.occ.toNat < 9 * 2 ^ s.tab.e.toNat →
    (insertWalk s.tab.geometry s.tab.e.toNat s.tab.array ⟨key.th, key.key, s.tab.stage⟩ = .placed b →
      exec (.insert true true) s = .next { s with
        phase := .idle, err := .ok, result := 1#32, grew := false, shrank := false, shrinkFail := false
        iterActive := false, ref := .none, tab := { s.tab with array := b, occ := s.tab.occ + 1#32 } }) ∧
    (insertWalk s.tab.geometry s.tab.e.toNat s.tab.array ⟨key.th, key.key, s.tab.stage⟩ = .replaced b →
      exec (.insert true true) s = .next { s with
        phase := .idle, err := .ok, result := 2#32, grew := false, shrank := false, shrinkFail := false
        iterActive := false, ref := .none, tab := { s.tab with array := b } }) ∧
    (insertWalk s.tab.geometry s.tab.e.toNat s.tab.array ⟨key.th, key.key, s.tab.stage⟩ = .overflow →
      exec (.insert true true) s = .next { s with
        phase := .idle, err := .pslOverflow, result := 0#32, grew := false, shrank := false, shrinkFail := false
        iterActive := false, ref := .none })

/-- INSERT at the load-factor threshold (spec/41_probe_engine.md R216, spec/43_map_commands.md R300, R303): at exponent
20 it fails with ERR_FULL; a failed growth fails the command and changes nothing in the table; a growth that succeeds is
kept, with GREW = 1, whatever the walk in the grown table gives. -/
def Obligations.InsertGrowsFirst : Prop :=
  ∀ (s : State) (key : KeyOperand), s.tstate = .ready → s.getKey true = .ok key →
    10 * s.tab.occ.toNat ≥ 9 * 2 ^ s.tab.e.toNat →
    (s.tab.e.toNat = 20 → exec (.insert true true) s = .next { s with
        phase := .idle, err := .full, result := 0#32, grew := false, shrank := false, shrinkFail := false
        iterActive := false, ref := .none }) ∧
    (s.tab.e.toNat < 20 → exec (.insert true true) s = .next (
      match s.tab.resize s.env.memBytes (s.tab.e.toNat + 1) with
      | .failAlloc => { s with
          phase := .idle, err := .resizeAlloc, result := 0#32, grew := false, shrank := false, shrinkFail := false
          iterActive := false, ref := .none }
      | .failPsl => { s with
          phase := .idle, err := .resizePsl, result := 0#32, grew := false, shrank := false, shrinkFail := false
          iterActive := false, ref := .none }
      | .ok g =>
        match insertWalk g.geometry g.e.toNat g.array ⟨key.th, key.key, g.stage⟩ with
        | .placed b => { s with
            phase := .idle, err := .ok, result := 1#32, grew := true, shrank := false, shrinkFail := false
            iterActive := false, ref := .none, tab := { g with array := b, occ := g.occ + 1#32 } }
        | .replaced b => { s with
            phase := .idle, err := .ok, result := 2#32, grew := true, shrank := false, shrinkFail := false
            iterActive := false, ref := .none, tab := { g with array := b } }
        | .overflow => { s with
            phase := .idle, err := .pslOverflow, result := 0#32, grew := true, shrank := false, shrinkFail := false
            iterActive := false, ref := .none, tab := g }))

/-- GET (spec/43_map_commands.md R310, R312): a found key sets `ref` and RESULT to its slot, an absent one clears `ref`
with ERR_NOT_FOUND; the table, every byte of slot RAM and the iteration stay. -/
def Obligations.GetFindsOrReportsNotFound : Prop :=
  ∀ (s : State) (key : KeyOperand), s.tstate = .ready → s.getKey true = .ok key →
    (∀ i, findSlot s.tab.geometry s.tab.e.toNat s.tab.array key = some i → exec (.get true) s = .next { s with
        phase := .idle, err := .ok, result := BitVec.ofNat 32 i, grew := false, shrank := false, shrinkFail := false
        ref := .slot i }) ∧
    (findSlot s.tab.geometry s.tab.e.toNat s.tab.array key = none → exec (.get true) s = .next { s with
        phase := .idle, err := .notFound, result := 0#32, grew := false, shrank := false, shrinkFail := false
        ref := .none })

/-- REMOVE of a key found in slot `i` (spec/43_map_commands.md R320, R321, R323): the entry is copied to REMOVED, `occ`
drops by one, the gap is closed, and then the shrink arbiter runs: it leaves the table as it is, or shrinks it once to
the exponent its loop stops at, or fails and is reported in SHRINK_FAIL and RESULT[31:24] while the removal stands. An
absent key is ERR_NOT_FOUND. -/
def Obligations.RemoveRemovesThenShrinks : Prop :=
  ∀ (s : State) (key : KeyOperand), s.tstate = .ready → s.getKey true = .ok key →
    (findSlot s.tab.geometry s.tab.e.toNat s.tab.array key = none → exec (.remove true) s = .next { s with
        phase := .idle, err := .notFound, result := 0#32, grew := false, shrank := false, shrinkFail := false
        iterActive := false, ref := .none }) ∧
    (∀ (i : Nat) (u : Table), findSlot s.tab.geometry s.tab.e.toNat s.tab.array key = some i →
      u = { s.tab with
        occ := s.tab.occ - 1#32
        array := backwardShift s.tab.geometry s.tab.e.toNat s.tab.array i
        scratch := putItem s.tab.geometry (putKey s.tab.geometry s.tab.scratch 1 (s.tab.slot i).key) 1
          (s.tab.slot i).item } →
      (¬ (u.e.toNat > 4 ∧ 10 * u.occ.toNat ≤ 4 * 2 ^ u.e.toNat) → exec (.remove true) s = .next { s with
        phase := .idle, err := .ok, result := BitVec.ofNat 32 i, grew := false, shrank := false, shrinkFail := false
        iterActive := false, ref := .removed, tab := u }) ∧
      (u.e.toNat > 4 ∧ 10 * u.occ.toNat ≤ 4 * 2 ^ u.e.toNat → exec (.remove true) s = .next (
        match u.resize s.env.memBytes (shrinkExp u.occ.toNat u.e.toNat) with
        | .ok g => { s with
            phase := .idle, err := .ok, result := BitVec.ofNat 32 i, grew := false, shrank := true, shrinkFail := false
            iterActive := false, ref := .removed, tab := g }
        | .failAlloc => { s with
            phase := .idle, err := .ok, result := BitVec.ofNat 32 i ||| 0x0C000000#32, grew := false, shrank := false
            shrinkFail := true, iterActive := false, ref := .removed, tab := u }
        | .failPsl => { s with
            phase := .idle, err := .ok, result := BitVec.ofNat 32 i ||| 0x0D000000#32, grew := false, shrank := false
            shrinkFail := true, iterActive := false, ref := .removed, tab := u })))

/-! ## The queries, the iteration, the destruction -/

/-- LEN and PEEK (spec/42_table_commands.md R260, R262): RESULT is `occ`, or the metadata word of the slot ARG0 names;
past the last slot PEEK is ERR_RANGE. Nothing but STATUS and RESULT changes. -/
def Obligations.LenAndPeekOnlyReport : Prop :=
  ∀ s : State, s.tstate = .ready →
    exec .len s = .next { s with
      phase := .idle, err := .ok, result := s.tab.occ, grew := false, shrank := false, shrinkFail := false } ∧
    (s.latch.arg0.toNat < 2 ^ s.tab.e.toNat → exec .peek s = .next { s with
      phase := .idle, err := .ok, grew := false, shrank := false, shrinkFail := false
      result := pack (s.tab.slot s.latch.arg0.toNat).taken (s.tab.slot s.latch.arg0.toNat).psl.toNat
        (s.tab.slot s.latch.arg0.toNat).th.toNat }) ∧
    (2 ^ s.tab.e.toNat ≤ s.latch.arg0.toNat → exec .peek s = .next { s with
      phase := .idle, err := .range, result := 0#32, grew := false, shrank := false, shrinkFail := false })

/-- ITER_START, ITER_NEXT and ITER_STOP (spec/44_iteration_commands.md R350, R352, R354): with `lo` = 0, or one past the
cursor, the lowest taken slot from `lo` on is presented with RESULT 0; if there is none the iteration ends with RESULT 1;
ITER_STOP ends it with RESULT 0. The table never changes. -/
def Obligations.IterationPresentsTheNextTakenSlot : Prop :=
  (∀ (s : State) (i : Instr) (lo : Nat), s.tstate = .ready →
    (i = .iterStart ∧ lo = 0 ∨ i = .iterNext ∧ s.iterActive = true ∧ lo = s.iterCursor + 1) →
    (∀ j, lo ≤ j → j < 2 ^ s.tab.e.toNat → (s.tab.slot j).taken = true →
      (∀ l, lo ≤ l → l < j → (s.tab.slot l).taken = false) → exec i s = .next { s with
        phase := .idle, err := .ok, result := 0#32, grew := false, shrank := false, shrinkFail := false
        iterActive := true, iterCursor := j, ref := .slot j }) ∧
    ((∀ l, lo ≤ l → l < 2 ^ s.tab.e.toNat → (s.tab.slot l).taken = false) → exec i s = .next { s with
        phase := .idle, err := .ok, result := 1#32, grew := false, shrank := false, shrinkFail := false
        iterActive := false, ref := .none })) ∧
  (∀ s : State, s.tstate = .ready → s.iterActive = true → exec .iterStop s = .next { s with
    phase := .idle, err := .ok, result := 0#32, grew := false, shrank := false, shrinkFail := false
    iterActive := false, ref := .none })

/-- FREE (spec/42_table_commands.md R265, R272): without a disposer, or without entries, the table is released at once;
else the lowest taken slot is presented for disposal and RESULT is the number of entries. After a release the table
fields are the model's placeholder `Table.absent` (the spec says they hold no value: log entry 6). -/
def Obligations.FreeReleasesOrStartsDisposal : Prop :=
  ∀ s : State, s.tstate = .ready →
    (s.tab.disposer = false ∨ s.tab.occ.toNat = 0 → exec .free s = .next { s with
      phase := .idle, err := .ok, result := 0#32, grew := false, shrank := false, shrinkFail := false
      tstate := .none, tab := Table.absent, ref := .none, iterActive := false }) ∧
    (∀ j, s.tab.disposer = true → s.tab.occ.toNat > 0 → j < 2 ^ s.tab.e.toNat → (s.tab.slot j).taken = true →
      (∀ l, l < j → (s.tab.slot l).taken = false) → exec .free s = .next { s with
        phase := .idle, err := .ok, result := s.tab.occ, grew := false, shrank := false, shrinkFail := false
        tstate := .disposing, ref := .slot j, disp := j, iterActive := false })

/-- DISPOSE_ACK (spec/42_table_commands.md R270, R272): the next taken slot above the dispose cursor is presented and
RESULT counts the taken slots from it on; when there is none the table is released with RESULT 0. The placeholder
`Table.absent` is the model's: log entry 6. -/
def Obligations.DisposeAckPresentsTheNextOrReleases : Prop :=
  ∀ s : State, s.tstate = .disposing →
    (∀ j, s.disp < j → j < 2 ^ s.tab.e.toNat → (s.tab.slot j).taken = true →
      (∀ l, s.disp < l → l < j → (s.tab.slot l).taken = false) → exec .disposeAck s = .next { s with
        phase := .idle, err := .ok, grew := false, shrank := false, shrinkFail := false
        result := BitVec.ofNat 32 (s.tab.takenCount j), ref := .slot j, disp := j }) ∧
    ((∀ l, s.disp < l → l < 2 ^ s.tab.e.toNat → (s.tab.slot l).taken = false) → exec .disposeAck s = .next { s with
        phase := .idle, err := .ok, result := 0#32, grew := false, shrank := false, shrinkFail := false
        tstate := .none, tab := Table.absent, ref := .none, iterActive := false })

/-- "with `N` entries the host sees exactly `N` pending dispose requests" (spec/42_table_commands.md R270): an
acknowledgement with `n + 1` taken slots from the cursor on leaves `n` requests and RESULT `n`; the last one releases
the table. -/
def Obligations.EachAcknowledgementCountsDown : Prop :=
  ∀ (s : State) (n : Nat), s.tstate = .disposing → s.tab.takenAt s.disp → s.tab.takenCount s.disp = n + 1 →
    ∃ t, exec .disposeAck s = .next t ∧ t.result.toNat = n ∧
      (n = 0 → t.tstate = .none ∧ t.ref = .none) ∧
      (0 < n → t.tstate = .disposing ∧ t.tab = s.tab ∧ s.disp < t.disp ∧ t.ref = .slot t.disp ∧ t.tab.takenAt t.disp ∧
        t.tab.takenCount t.disp = n)

/-! ## What commands leave alone -/

/-- Every command completes in one step (spec/10_state.md R52), and no command writes ARG0, ARG1, KEY_LEN, KEY0 to KEY4
(R53, spec/70_reset_and_hazards.md R461), clears a sticky bit (R35), touches the latched copy, or changes MEM_BYTES or
KEYED_HASH. -/
def Obligations.CommandsLeaveTheHostRegisters : Prop :=
  ∀ (i : Instr) (s t : State), exec i s = .next t →
    t.phase = .idle ∧ t.arg0 = s.arg0 ∧ t.arg1 = s.arg1 ∧ t.keyLen = s.keyLen ∧ t.key0 = s.key0 ∧ t.key1 = s.key1 ∧
    t.key2 = s.key2 ∧ t.key3 = s.key3 ∧ t.key4 = s.key4 ∧ t.busyViol = s.busyViol ∧ t.busErr = s.busErr ∧
    t.latch = s.latch ∧ t.env.events = s.env.events ∧ t.env.readData = s.env.readData ∧
    t.env.memBytes = s.env.memBytes ∧ t.env.hashes = s.env.hashes

/-- What a failed command changes (spec/60_exceptions.md R402): RESULT is 0, SHRANK and SHRINK_FAIL are 0, GREW is 0 but
after ERR_PSL_OVERFLOW; the table state and, but for a growth before that overflow, the table stay; INSERT and REMOVE
past the state check end the iteration and the reference, GET the reference; no other command changes either. -/
def Obligations.FailedCommandsChangeOnlyWhatIsListed : Prop :=
  ∀ (i : Instr) (s t : State), exec i s = .next t → t.err ≠ .ok →
    t.result = 0#32 ∧ t.shrank = false ∧ t.shrinkFail = false ∧ t.tstate = s.tstate ∧ t.disp = s.disp ∧
    t.iterCursor = s.iterCursor ∧
    (t.err ≠ .pslOverflow → t.grew = false ∧ t.tab = s.tab) ∧
    (t.err = .pslOverflow → t.grew = false ∧ t.tab = s.tab ∨
      t.grew = true ∧ s.tab.resize s.env.memBytes (s.tab.e.toNat + 1) = .ok t.tab) ∧
    (t.err = .state → t.ref = s.ref ∧ t.iterActive = s.iterActive) ∧
    (t.err ≠ .state → (∃ k d, i = .insert k d) ∨ (∃ k, i = .remove k) → t.ref = .none ∧ t.iterActive = false) ∧
    (t.err ≠ .state → (∃ k, i = .get k) → t.ref = .none ∧ t.iterActive = s.iterActive) ∧
    ((∀ k d, i ≠ .insert k d) → (∀ k, i ≠ .remove k) → (∀ k, i ≠ .get k) →
      t.ref = s.ref ∧ t.iterActive = s.iterActive)

/-! ## Host accesses -/

/-- Registers the host may write (spec/10_state.md R37, R38, R39): while IDLE a 4-byte write to one of them stores the
value, KEY_LEN its bits 4:0 only, and does nothing else (spec/20_memory.md R104); a read returns what is stored, and every
other register reads as before. -/
def Obligations.WritableRegistersReadBack : Prop :=
  ∀ (s : State) (v : Word) (off : BitVec 32), s.phase = .idle →
    (s.access (.write .reg 0x14#32 4 v) = { s with arg0 := v } ∧
      s.access (.write .reg 0x18#32 4 v) = { s with arg1 := v } ∧
      s.access (.write .reg 0x1C#32 4 v) = { s with keyLen := v.extractLsb' 0 5 } ∧
      s.access (.write .reg 0x20#32 4 v) = { s with key0 := v } ∧
      s.access (.write .reg 0x24#32 4 v) = { s with key1 := v } ∧
      s.access (.write .reg 0x28#32 4 v) = { s with key2 := v } ∧
      s.access (.write .reg 0x2C#32 4 v) = { s with key3 := v } ∧
      s.access (.write .reg 0x30#32 4 v) = { s with key4 := v }) ∧
    (∀ stored : Word,
      off = 0x14#32 ∧ stored = s.arg0 ∨ off = 0x18#32 ∧ stored = s.arg1 ∨ off = 0x1C#32 ∧ stored = 0#27 ++ s.keyLen ∨
        off = 0x20#32 ∧ stored = s.key0 ∨ off = 0x24#32 ∧ stored = s.key1 ∨ off = 0x28#32 ∧ stored = s.key2 ∨
        off = 0x2C#32 ∧ stored = s.key3 ∨ off = 0x30#32 ∧ stored = s.key4 →
      s.access (.read .reg off 4) = { s with env := { s.env with readData := stored } }) ∧
    (off = 0x14#32 ∨ off = 0x18#32 ∨ off = 0x20#32 ∨ off = 0x24#32 ∨ off = 0x28#32 ∨ off = 0x2C#32 ∨ off = 0x30#32 →
      ((s.access (.write .reg off 4 v)).access (.read .reg off 4)).env.readData = v ∧
      ∀ off', off' ≠ off → ((s.access (.write .reg off 4 v)).access (.read .reg off' 4)).env.readData =
        (s.access (.read .reg off' 4)).env.readData) ∧
    ((s.access (.write .reg 0x1C#32 4 v)).access (.read .reg 0x1C#32 4)).env.readData = v &&& 0x1F#32 ∧
    (∀ off', off' ≠ 0x1C#32 → ((s.access (.write .reg 0x1C#32 4 v)).access (.read .reg off' 4)).env.readData =
      (s.access (.read .reg off' 4)).env.readData)

/-- A refused access while IDLE (spec/20_memory.md R80, R82, R83, R84, R85, R86; spec/60_exceptions.md R409): a REG access
that is not 4 bytes at a multiple of 4 below `0x5C`, any access to space 3, a STAGE access while not READY, a REF access
with no reference, an aperture access of another width or past the item. It sets BUS_ERR, a read returns 0, and nothing
else changes. An offset above `0xFFF` is refused by the model's reading, log entry 10; this statement ends at `0xFFF`. -/
def Obligations.RefusedAccessOnlySetsBusErr : Prop :=
  ∀ (s : State) (space : Space) (off : BitVec 32) (n : Nat) (v : Word), s.phase = .idle →
    (space = .reg ∧ (n ≠ 4 ∨ off.toNat % 4 ≠ 0 ∨ 0x5C ≤ off.toNat ∧ off.toNat ≤ 0xFFF) ∨ space = .reserved ∨
      space = .stage ∧ s.tstate ≠ .ready ∨ space = .ref ∧ s.ref = .none ∨
      (space = .stage ∨ space = .ref) ∧ (n ∉ [1, 2, 4] ∨ off.toNat + n > s.tab.itemSize.toNat)) →
    s.access (.read space off n) = { s with busErr := true, env := { s.env with readData := 0#32 } } ∧
    s.access (.write space off n v) = { s with busErr := true }

/-- Accesses while BUSY (spec/20_memory.md R88, spec/10_state.md R31, R35): first, which accesses `State.refuses` names, by
R80 and R82 to R86. THE MODEL'S CHOICE, not the spec's: that a REG offset above `0xFFF` is among them (log entry 10), and
that a STAGE or REF offset of `0x1000` or more inside an item above 4096 bytes is not (log entry 19; decision D2 speaks of
4 KiB spaces). An access it does not name leaves BUS_ERR: a
write does nothing but set BUSY_VIOL, a read nothing but return 0, or the value of ID, VERSION or STATUS. One it does name
is dropped too, a read returns 0, and BUS_ERR stays set or becomes the next free value, which counts as drawn: the model's
choice, log entry 11. -/
def Obligations.BusyAccessIsDropped : Prop :=
  ∀ (s : State) (space : Space) (off : BitVec 32) (n : Nat) (v : Word), s.phase = .busy →
    (s.refuses space off n = false ↔
      space = .reg ∧ n = 4 ∧ (∃ m, m < 23 ∧ off.toNat = 4 * m) ∨
      space = .stage ∧ s.tstate = .ready ∧ n ∈ [1, 2, 4] ∧ off.toNat + n ≤ s.tab.itemSize.toNat ∨
      space = .ref ∧ s.ref ≠ .none ∧ n ∈ [1, 2, 4] ∧ off.toNat + n ≤ s.tab.itemSize.toNat) ∧
    (s.refuses space off n = false →
      s.access (.write space off n v) = { s with busyViol := true } ∧
      s.access (.read space off n) = { s with
        env := { s.env with
          readData :=
            if space = .reg ∧ off = 0x00#32 then 0x48545045#32
            else if space = .reg ∧ off = 0x04#32 then 0x00000001#32
            else if space = .reg ∧ off = 0x0C#32 then s.status else 0#32 } }) ∧
    (s.refuses space off n = true →
      s.access (.write space off n v) = { s with
        busyViol := true
        busErr := s.busErr || Config.busErrWhileBusy s.env.draws
        env := { s.env with draws := s.env.draws + 1 } } ∧
      s.access (.read space off n) = { s with
        busErr := s.busErr || Config.busErrWhileBusy s.env.draws
        env := { s.env with draws := s.env.draws + 1, readData := 0#32 } })

/-- STATUS.BUSY_VIOL and STATUS.BUS_ERR (spec/10_state.md R35): a STATUS write while IDLE clears exactly the ones it has
a 1 for and does nothing else; no command and no other access clears one; a STATUS write while BUSY is dropped and sets
BUSY_VIOL. -/
def Obligations.StickyBitsClearOnlyByWritingOnes : Prop :=
  (∀ (s : State) (v : Word), s.phase = .idle → s.access (.write .reg 0x0C#32 4 v) =
    { s with busyViol := s.busyViol && !v.getLsbD 8, busErr := s.busErr && !v.getLsbD 9 }) ∧
  (∀ (s t : State), s.executeLatched = .next t → t.busyViol = s.busyViol ∧ t.busErr = s.busErr) ∧
  (∀ (s : State) (a : Access), (∀ v, a ≠ .write .reg 0x0C#32 4 v) →
    (s.busyViol = true → (s.access a).busyViol = true) ∧ (s.busErr = true → (s.access a).busErr = true)) ∧
  (∀ (s : State) (v : Word), s.phase = .busy → s.access (.write .reg 0x0C#32 4 v) = { s with busyViol := true })

/-- The STATUS word (spec/10_state.md R33), field by field; the reserved bits 15:11 and 31:24 read 0. ERR holds the number
that spec/60_exceptions.md R400 gives each error, so 0x10 to 0xFF never. A host read of ID,
VERSION (R31) or STATUS returns it in either phase, a read of RESULT (R36) while IDLE, and changes nothing else; a write
to ID, VERSION or RESULT while IDLE is ignored without BUS_ERR (spec/20_memory.md R83). -/
def Obligations.StatusBitsShowTheState : Prop :=
  ∀ s : State,
    (s.status.getLsbD 0 = decide (s.phase = .busy) ∧ s.status.getLsbD 1 = decide (s.tstate ≠ .none) ∧
      s.status.getLsbD 2 = s.iterActive ∧ s.status.getLsbD 3 = decide (s.tstate = .disposing) ∧
      s.status.getLsbD 4 = decide (s.ref ≠ .none) ∧ s.status.getLsbD 5 = s.grew ∧ s.status.getLsbD 6 = s.shrank ∧
      s.status.getLsbD 7 = s.shrinkFail ∧ s.status.getLsbD 8 = s.busyViol ∧ s.status.getLsbD 9 = s.busErr ∧
      s.status.getLsbD 10 = (decide (s.tstate ≠ .none) && s.tab.disposer) ∧ s.status.extractLsb' 11 5 = 0#5 ∧
      s.status.extractLsb' 16 8 = s.err.code ∧ s.status.extractLsb' 24 8 = 0#8) ∧
    (ErrCode.ok.code = 0x00#8 ∧ ErrCode.illegalCmd.code = 0x01#8 ∧ ErrCode.state.code = 0x02#8 ∧
      ErrCode.keyAbsent.code = 0x03#8 ∧ ErrCode.keyInvalid.code = 0x04#8 ∧ ErrCode.dataAbsent.code = 0x05#8 ∧
      ErrCode.notFound.code = 0x06#8 ∧ ErrCode.capExp.code = 0x07#8 ∧ ErrCode.itemSize.code = 0x08#8 ∧
      ErrCode.alloc.code = 0x09#8 ∧ ErrCode.entropy.code = 0x0A#8 ∧ ErrCode.full.code = 0x0B#8 ∧
      ErrCode.resizeAlloc.code = 0x0C#8 ∧ ErrCode.resizePsl.code = 0x0D#8 ∧ ErrCode.pslOverflow.code = 0x0E#8 ∧
      ErrCode.range.code = 0x0F#8 ∧ (s.status.extractLsb' 16 8).toNat ≤ 0x0F) ∧
    s.access (.read .reg 0x00#32 4) = { s with env := { s.env with readData := 0x48545045#32 } } ∧
    s.access (.read .reg 0x04#32 4) = { s with env := { s.env with readData := 0x00000001#32 } } ∧
    s.access (.read .reg 0x0C#32 4) = { s with env := { s.env with readData := s.status } } ∧
    (s.phase = .idle →
      s.access (.read .reg 0x10#32 4) = { s with env := { s.env with readData := s.result } } ∧
      ∀ v, ∀ off ∈ [0x00#32, 0x04#32, 0x10#32], s.access (.write .reg off 4 v) = s)

/-- A CMD write (spec/10_state.md R32, R51): while IDLE it latches the word and the operand registers and goes BUSY;
while BUSY it is dropped and sets BUSY_VIOL; a read of CMD returns 0. -/
def Obligations.CmdWriteLatchesTheCommand : Prop :=
  ∀ (s : State) (v : Word),
    (s.phase = .idle → s.access (.write .reg 0x08#32 4 v) = { s with
      phase := .busy
      latch := { word := v, arg0 := s.arg0, arg1 := s.arg1, keyLen := s.keyLen
                 key := s.key4 ++ s.key3 ++ s.key2 ++ s.key1 ++ s.key0 } }) ∧
    (s.phase = .busy → s.access (.write .reg 0x08#32 4 v) = { s with busyViol := true }) ∧
    s.access (.read .reg 0x08#32 4) = { s with env := { s.env with readData := 0#32 } }

/-- The mirrors (spec/10_state.md R41): while IDLE the registers at `0x34`, `0x38`, `0x3C` and `0x40` read as the table's
exponent, count, item size and slot size while a table exists, else as 0, after reset too; a write to one is ignored. -/
def Obligations.MirrorsShowTheTable : Prop :=
  (∀ (s : State) (off : BitVec 32) (field : Word), s.phase = .idle →
    (off = 0x34#32 ∧ field = s.tab.e.setWidth 32 ∨ off = 0x38#32 ∧ field = s.tab.occ ∨
      off = 0x3C#32 ∧ field = s.tab.itemSize ∨ off = 0x40#32 ∧ field = s.tab.slotSize) →
    (s.tstate ≠ .none → s.access (.read .reg off 4) = { s with env := { s.env with readData := field } }) ∧
    (s.tstate = .none → s.access (.read .reg off 4) = { s with env := { s.env with readData := 0#32 } }) ∧
    (∀ v, s.access (.write .reg off 4 v) = s)) ∧
  ∀ off ∈ [0x34#32, 0x38#32, 0x3C#32, 0x40#32], (State.reset.access (.read .reg off 4)).env.readData = 0#32

/-- REF_INDEX and REF_KEY (spec/10_state.md R48), read while IDLE: the slot's number, `0xFFFFFFFE` or `0xFFFFFFFF`; the key
bytes of the entry that `ref` names, byte `4j+b` in bits `8b+7 : 8b` of the register at `0x48 + 4j`, and 0 without a
reference and while DISPOSING; a read of one of the six changes nothing else (spec/20_memory.md R104), a write to one is
ignored; what reset leaves. -/
def Obligations.RefRegistersShowTheNamedEntry : Prop :=
  (∀ s : State, s.phase = .idle →
    (∀ i, s.ref = .slot i → (s.access (.read .reg 0x44#32 4)).env.readData = BitVec.ofNat 32 i) ∧
    (s.ref = .removed → (s.access (.read .reg 0x44#32 4)).env.readData = 0xFFFFFFFE#32) ∧
    (s.ref = .none → (s.access (.read .reg 0x44#32 4)).env.readData = 0xFFFFFFFF#32) ∧
    (∀ key : KeyBuf, (s.ref = .none ∨ s.tstate = .disposing) ∧ key = 0#160 ∨
        s.tstate ≠ .disposing ∧ (s.ref = .removed ∧ key = s.tab.removedKey ∨ ∃ i, s.ref = .slot i ∧ key = (s.tab.slot i).key) →
      ∀ j b, j < 5 → b < 4 →
        (s.access (.read .reg (BitVec.ofNat 32 (0x48 + 4 * j)) 4)).env.readData.extractLsb' (8 * b) 8 =
          keyByte key (4 * j + b)) ∧
    (∀ j, j < 6 → s.access (.read .reg (BitVec.ofNat 32 (0x44 + 4 * j)) 4) =
      { s with env := { s.env with
        readData := (s.access (.read .reg (BitVec.ofNat 32 (0x44 + 4 * j)) 4)).env.readData } }) ∧
    (∀ (j : Nat) (v : Word), j < 6 → s.access (.write .reg (BitVec.ofNat 32 (0x44 + 4 * j)) 4 v) = s)) ∧
  (State.reset.access (.read .reg 0x44#32 4)).env.readData = 0xFFFFFFFF#32 ∧
  ∀ j, j < 5 → (State.reset.access (.read .reg (BitVec.ofNat 32 (0x48 + 4 * j)) 4)).env.readData = 0#32

/-- The STAGE aperture (spec/20_memory.md R84, R86, R87): while IDLE and READY an access of 1, 2 or 4 bytes inside the
item writes those bytes of the scratch, little-endian, and no other byte; a read returns them and changes nothing else.
THE MODEL'S CHOICE, not the spec's: for an item above 4096
bytes this holds at offsets from `0x1000` on too, by R86 and against decision D2 (log entry 19). -/
def Obligations.StageApertureStoresLittleEndian : Prop :=
  ∀ (s : State) (off : BitVec 32) (n : Nat) (v : Word), s.phase = .idle → s.tstate = .ready → n ∈ [1, 2, 4] →
    off.toNat + n ≤ s.tab.itemSize.toNat → s.tab.scratch.wf = true →
    (∀ a, (s.access (.write .stage off n v)).tab.scratch.read a =
      if 24 + off.toNat ≤ a ∧ a < 24 + off.toNat + n then v.extractLsb' (8 * (a - (24 + off.toNat))) 8
      else s.tab.scratch.read a) ∧
    s.access (.write .stage off n v) =
      { s with tab := { s.tab with scratch := (s.access (.write .stage off n v)).tab.scratch } } ∧
    ((s.access (.write .stage off n v)).access (.read .stage off n)).env.readData.toNat = v.toNat % 2 ^ (8 * n) ∧
    (∀ b, b < n → (s.access (.read .stage off n)).env.readData.extractLsb' (8 * b) 8 =
      s.tab.scratch.read (24 + off.toNat + b)) ∧
    (s.access (.read .stage off n)).env.readData.toNat < 2 ^ (8 * n) ∧
    s.access (.read .stage off n) =
      { s with env := { s.env with readData := (s.access (.read .stage off n)).env.readData } }

/-- A host write through `ref = SLOT(i)` (spec/20_memory.md R85) stores the bytes in the item of slot `i`, and "changes
no metadata and no key": every slot keeps its metadata and key, every other slot its item, every other byte of the array
its value, and nothing else changes. A read returns those bytes of the item, little-endian (R87), and changes nothing
else; after a write it returns what was written. THE MODEL'S CHOICE, not the spec's: for an item above 4096 bytes this
holds at offsets from `0x1000` on too, by R86 and against decision D2 (log entry 19). -/
def Obligations.RefWriteChangesOnlyTheItem : Prop :=
  ∀ (s : State) (i : Nat) (off : BitVec 32) (n : Nat) (v : Word), s.phase = .idle → s.ref = .slot i → n ∈ [1, 2, 4] →
    off.toNat + n ≤ s.tab.itemSize.toNat → s.tab.array.wf = true →
    s.tab.slotSize.toNat = slotBytes s.tab.itemSize.toNat →
    (∀ a, (s.access (.write .ref off n v)).tab.array.read a =
      if i * s.tab.slotSize.toNat + 24 + off.toNat ≤ a ∧ a < i * s.tab.slotSize.toNat + 24 + off.toNat + n then
        v.extractLsb' (8 * (a - (i * s.tab.slotSize.toNat + 24 + off.toNat))) 8
      else s.tab.array.read a) ∧
    s.access (.write .ref off n v) =
      { s with tab := { s.tab with array := (s.access (.write .ref off n v)).tab.array } } ∧
    (∀ j, ((s.access (.write .ref off n v)).tab.slot j).taken = (s.tab.slot j).taken ∧
      ((s.access (.write .ref off n v)).tab.slot j).psl = (s.tab.slot j).psl ∧
      ((s.access (.write .ref off n v)).tab.slot j).th = (s.tab.slot j).th ∧
      ((s.access (.write .ref off n v)).tab.slot j).key = (s.tab.slot j).key ∧
      (j ≠ i → (s.access (.write .ref off n v)).tab.slot j = s.tab.slot j)) ∧
    (∀ b, b < n → (s.access (.read .ref off n)).env.readData.extractLsb' (8 * b) 8 =
      s.tab.array.read (i * s.tab.slotSize.toNat + 24 + off.toNat + b)) ∧
    (s.access (.read .ref off n)).env.readData.toNat < 2 ^ (8 * n) ∧
    s.access (.read .ref off n) =
      { s with env := { s.env with readData := (s.access (.read .ref off n)).env.readData } } ∧
    ((s.access (.write .ref off n v)).access (.read .ref off n)).env.readData.toNat = v.toNat % 2 ^ (8 * n)

/-- A host write through `ref = REMOVED` changes only the REMOVED item in the scratch (spec/20_memory.md R85). A read
returns those bytes of the REMOVED item (spec/43_map_commands.md R321), little-endian, and changes nothing else; after a
write it returns what was written. THE MODEL'S CHOICE, not the spec's: for an item above 4096
bytes this holds at offsets from `0x1000` on too, by R86 and against decision D2 (log entry 19). -/
def Obligations.RemovedRefWriteChangesOnlyTheBuffer : Prop :=
  ∀ (s : State) (off : BitVec 32) (n : Nat) (v : Word), s.phase = .idle → s.ref = .removed → n ∈ [1, 2, 4] →
    off.toNat + n ≤ s.tab.itemSize.toNat → s.tab.scratch.wf = true →
    (∀ a, (s.access (.write .ref off n v)).tab.scratch.read a =
      if s.tab.slotSize.toNat + 24 + off.toNat ≤ a ∧ a < s.tab.slotSize.toNat + 24 + off.toNat + n then
        v.extractLsb' (8 * (a - (s.tab.slotSize.toNat + 24 + off.toNat))) 8
      else s.tab.scratch.read a) ∧
    s.access (.write .ref off n v) =
      { s with tab := { s.tab with scratch := (s.access (.write .ref off n v)).tab.scratch } } ∧
    (∀ b, b < n → (s.access (.read .ref off n)).env.readData.extractLsb' (8 * b) 8 =
      s.tab.scratch.read (s.tab.slotSize.toNat + 24 + off.toNat + b)) ∧
    (s.access (.read .ref off n)).env.readData.toNat = s.tab.removedItem.readLE off.toNat n ∧
    s.access (.read .ref off n) =
      { s with env := { s.env with readData := (s.access (.read .ref off n)).env.readData } } ∧
    ((s.access (.write .ref off n v)).access (.read .ref off n)).env.readData.toNat = v.toNat % 2 ^ (8 * n)

/-- "The secret key is never readable by the host through any register or aperture" (spec/10_state.md R46): a host access
does the same, and returns the same, whatever the secret is. -/
def Obligations.SecretIsNotReadable : Prop :=
  ∀ (s : State) (sec : Secret) (a : Access),
    State.access { s with tab := { s.tab with secret := sec } } a =
      { s.access a with tab := { (s.access a).tab with secret := sec } }

/-- While no table exists the table fields are never read (spec/10_state.md R42): a step does the same whatever they are,
and what the host sees of the state is the same. So the model's placeholder for them (log entry 6) cannot be seen. The
new table of a creation is compared with itself. -/
def Obligations.AbsentTableIsNeverRead : Prop :=
  ∀ (s : State) (u : Table), s.tstate = .none → s.ref = .none →
    (∀ r, State.readReg { s with tab := u } r = s.readReg r) ∧
    ((∃ t, step s = .next t ∧ t.tstate = .none ∧ (step { s with tab := u } = .next { t with tab := u } ∨
        step { s with tab := u } = .next t)) ∨
      (∃ t, step s = .next t ∧ t.tstate = .ready ∧ step { s with tab := u } = .next t))

/-! ## The probe engine -/

/-- What the lookup walk finds (spec/41_probe_engine.md R207, spec/40_metadata_codec.md R172): a taken slot inside the
array with the same truncated hash and the same 20 key bytes, on any array. -/
def Obligations.FindReturnsAMatchingSlot : Prop :=
  ∀ (g : Geometry) (e : Nat) (a : Memory) (k : KeyOperand) (i : Nat), findSlot g e a k = some i →
    i < 2 ^ e ∧ (getSlot g a i).taken = true ∧ (getSlot g a i).th = k.th ∧ (getSlot g a i).key = k.key

/-- In a good table the lookup walk is complete (spec/41_probe_engine.md R207, "no match can exist further along"): it
finds the entry of every taken slot. -/
def Obligations.FindIsCompleteInAGoodTable : Prop :=
  ∀ (t : Table) (v : Env) (i : Nat), t.Inv v → t.takenAt i →
    findSlot t.geometry t.e.toNat t.array ⟨(t.slot i).key, (t.slot i).th⟩ = some i

/-- The insertion walk ends within `2^e` iterations on an array with an empty slot (spec/41_probe_engine.md R206), and its
bound is never what ends it: more iterations give the same answer, and the answer of `2^e` iterations is a placing, a
replacing, or an OVERFLOW that fewer than `2^e` iterations came to by the rule (R204): at distance 2047, at a taken slot that
does not match and has psl 2047. The distance never passes the iterations made, so an overflow needs 2047 of them, and up to
exponent 11 the walk always places or replaces. That a walk with thefts may examine more than the 2048 slots of
spec/70_reset_and_hazards.md R471 is the model's choice for R202 and R206 (log entry 18). -/
def Obligations.InsertWalkReturnsWithinTheCapacity : Prop :=
  ∀ (g : Geometry) (e : Nat) (a : Memory) (c : Candidate), g.fits → a.wf = true →
    (∃ j, j < 2 ^ e ∧ (getSlot g a j).taken = false) →
    (∀ n, insertLoop g e (2 ^ e + n) a (home c.th e) 0 c = insertLoop g e (2 ^ e) a (home c.th e) 0 c) ∧
    ((∃ b, insertLoop g e (2 ^ e) a (home c.th e) 0 c = .placed b) ∨
      (∃ b, insertLoop g e (2 ^ e) a (home c.th e) 0 c = .replaced b) ∨
      insertLoop g e (2 ^ e) a (home c.th e) 0 c = .overflow ∧
        ∃ m b i k, 2047 ≤ m ∧ m < 2 ^ e ∧ WalkReaches g e m a (home c.th e) 0 c b i 2047 k ∧
          (getSlot g b i).taken = true ∧ ((getSlot g b i).th ≠ k.th ∨ (getSlot g b i).key ≠ k.key) ∧
          (getSlot g b i).psl.toNat = 2047) ∧
    (e ≤ 11 → (∃ b, insertLoop g e (2 ^ e) a (home c.th e) 0 c = .placed b) ∨
      ∃ b, insertLoop g e (2 ^ e) a (home c.th e) 0 c = .replaced b)

/-- One insertion walk up to its first event (spec/41_probe_engine.md R202 to R205), on any array: with `n` slots from the
home index on that are taken, do not match the candidate and have a psl of at least their distance, the slot at distance
`n` is filled if it is empty; has its item replaced, and its psl set to `n`, if it matches; is stolen if its psl is below
`n`, and the walk goes on with its entry at the next slot; and if none of these and `n` = 2047 the walk overflows. That a
walk with thefts may so examine more than the 2048 slots of spec/70_reset_and_hazards.md R471 is the model's choice for
R202 (log entry 18). -/
def Obligations.InsertWalkStopsOrStealsAtTheFirstEvent : Prop :=
  ∀ (g : Geometry) (e n i : Nat) (a : Memory) (c : Candidate), n ≤ 2047 → i = (home c.th e + n) % 2 ^ e →
    (∀ m, m < n → (getSlot g a ((home c.th e + m) % 2 ^ e)).taken = true ∧
      ((getSlot g a ((home c.th e + m) % 2 ^ e)).th ≠ c.th ∨ (getSlot g a ((home c.th e + m) % 2 ^ e)).key ≠ c.key) ∧
      m ≤ (getSlot g a ((home c.th e + m) % 2 ^ e)).psl.toNat) →
    ((getSlot g a i).taken = false →
      insertWalk g e a c = .placed (setSlot g a i ⟨true, BitVec.ofNat 11 n, c.th, c.key, c.item⟩)) ∧
    ((getSlot g a i).taken = true → (getSlot g a i).th = c.th → (getSlot g a i).key = c.key →
      insertWalk g e a c = .replaced (setSlot g a i ⟨true, BitVec.ofNat 11 n, c.th, c.key, c.item⟩)) ∧
    ((getSlot g a i).taken = true → ((getSlot g a i).th ≠ c.th ∨ (getSlot g a i).key ≠ c.key) →
      ((getSlot g a i).psl.toNat < n →
        insertWalk g e a c = insertLoop g e (insertBound e - n - 1)
          (setSlot g a i ⟨true, BitVec.ofNat 11 n, c.th, c.key, c.item⟩) ((i + 1) % 2 ^ e)
          ((getSlot g a i).psl.toNat + 1) ⟨(getSlot g a i).th, (getSlot g a i).key, (getSlot g a i).item⟩) ∧
      (n = 2047 → (getSlot g a i).psl.toNat = 2047 → insertWalk g e a c = .overflow))

/-- The insertion walk writes only slots it probes (spec/41_probe_engine.md R202): with `n` the distance from the home
index to the first empty slot, every byte outside the slots at distances `0 .. n` is as before. -/
def Obligations.InsertWalkWritesOnlyTheProbedRun : Prop :=
  ∀ (g : Geometry) (e n : Nat) (a b : Memory) (c : Candidate), g.fits → a.wf = true → n < 2 ^ e →
    (getSlot g a ((home c.th e + n) % 2 ^ e)).taken = false →
    (∀ m, m < n → (getSlot g a ((home c.th e + m) % 2 ^ e)).taken = true) →
    (insertWalk g e a c = .placed b ∨ insertWalk g e a c = .replaced b) →
    ∀ x, (∀ m, m ≤ n → x < (home c.th e + m) % 2 ^ e * g.slotSize ∨
        (home c.th e + m) % 2 ^ e * g.slotSize + g.slotSize ≤ x) →
      b.read x = a.read x

/-- A placing walk makes one more slot taken, a replacing walk none (spec/41_probe_engine.md R202), on any array. -/
def Obligations.InsertWalkAddsOneTakenSlot : Prop :=
  ∀ (g : Geometry) (e : Nat) (a b : Memory) (c : Candidate), g.fits → a.wf = true →
    (insertWalk g e a c = .placed b → countTaken g b (2 ^ e) 0 = countTaken g a (2 ^ e) 0 + 1) ∧
    (insertWalk g e a c = .replaced b → countTaken g b (2 ^ e) 0 = countTaken g a (2 ^ e) 0)

/-- The backward shift (spec/41_probe_engine.md R209): with `n` the number of slots after slot `i` that are taken with a
psl above 0, the entry of each moves back by one slot with its psl one lower, the last of the run becomes empty, and
every other slot, and every byte outside the run, stays. -/
def Obligations.BackwardShiftMovesTheRunBack : Prop :=
  ∀ (g : Geometry) (e i n : Nat) (a : Memory), g.fits → a.wf = true → i < 2 ^ e → n + 1 < 2 ^ e →
    (∀ m, m < n → (getSlot g a ((i + 1 + m) % 2 ^ e)).taken = true ∧
      0 < (getSlot g a ((i + 1 + m) % 2 ^ e)).psl.toNat) →
    ((getSlot g a ((i + 1 + n) % 2 ^ e)).taken = false ∨ (getSlot g a ((i + 1 + n) % 2 ^ e)).psl.toNat = 0) →
    (∀ m, m < n → getSlot g (backwardShift g e a i) ((i + m) % 2 ^ e) =
      { getSlot g a ((i + 1 + m) % 2 ^ e) with psl := (getSlot g a ((i + 1 + m) % 2 ^ e)).psl - 1#11 }) ∧
    (getSlot g (backwardShift g e a i) ((i + n) % 2 ^ e)).metaWord = 0#32 ∧
    (∀ j, j < 2 ^ e → (∀ m, m ≤ n → j ≠ (i + m) % 2 ^ e) → getSlot g (backwardShift g e a i) j = getSlot g a j) ∧
    (∀ x, (∀ m, m ≤ n → x < (i + m) % 2 ^ e * g.slotSize ∨ (i + m) % 2 ^ e * g.slotSize + g.slotSize ≤ x) →
      (backwardShift g e a i).read x = a.read x)

/-- When a resize fails, and what a successful one gives (spec/41_probe_engine.md R211 to R215, spec/20_memory.md R94).
On any table: it fails for memory iff the old and the new footprint together pass MEM_BYTES; else it fails for a psl iff
the reinsertion of some taken slot overflows in the array that the slots below it were reinserted into, in ascending
order from an empty one; else it succeeds with the array so built. On a good table a success keeps every field but the
exponent and the array, and every key's item, and the table is good again. -/
def Obligations.ResizeKeepsTheMap : Prop :=
  (∀ (t : Table) (memBytes eNew : Nat),
    (t.resize memBytes eNew = .failAlloc ↔
      (2 ^ t.e.toNat + 2) * t.slotSize.toNat + (2 ^ eNew + 2) * t.slotSize.toNat > memBytes) ∧
    (t.resize memBytes eNew = .failPsl ↔
      (2 ^ t.e.toNat + 2) * t.slotSize.toNat + (2 ^ eNew + 2) * t.slotSize.toNat ≤ memBytes ∧
      ∃ i b, i < 2 ^ t.e.toNat ∧ (t.slot i).taken = true ∧ reinsert t.geometry t.array eNew i 0 [] = some b ∧
        insertWalk t.geometry eNew b ⟨(t.slot i).th, (t.slot i).key, (t.slot i).item⟩ = .overflow) ∧
    (∀ u, t.resize memBytes eNew = .ok u ↔
      (2 ^ t.e.toNat + 2) * t.slotSize.toNat + (2 ^ eNew + 2) * t.slotSize.toNat ≤ memBytes ∧
      ∃ b, reinsert t.geometry t.array eNew (2 ^ t.e.toNat) 0 [] = some b ∧
        u = { t with e := BitVec.ofNat 5 eNew, array := b }) ∧
    reinsert t.geometry t.array eNew 0 0 [] = some [] ∧
    ∀ i b, reinsert t.geometry t.array eNew i 0 [] = some b →
      ((t.slot i).taken = false → reinsert t.geometry t.array eNew (i + 1) 0 [] = some b) ∧
      ∀ b', (t.slot i).taken = true →
        (insertWalk t.geometry eNew b ⟨(t.slot i).th, (t.slot i).key, (t.slot i).item⟩ = .placed b' ∨
          insertWalk t.geometry eNew b ⟨(t.slot i).th, (t.slot i).key, (t.slot i).item⟩ = .replaced b') →
        reinsert t.geometry t.array eNew (i + 1) 0 [] = some b') ∧
  ∀ (t u : Table) (v : Env) (eNew : Nat), t.Inv v → 4 ≤ eNew → eNew ≤ 20 → t.occ.toNat < 2 ^ eNew →
    t.resize v.memBytes eNew = .ok u →
    u.e.toNat = eNew ∧ u = { t with e := u.e, array := u.array } ∧ u.Inv v ∧ ∀ k, u.lookup k = t.lookup k

/-! ## Invariants and headlines -/

/-- Every step keeps slot RAM in its canonical form: strictly rising offsets, no listed byte equal to what an unlisted one
reads as. That form is THE MODEL'S CHOICE of how slot RAM is represented (log entry 8); no rule of the spec states it. What
it rests on is that an allocation zero-fills (spec/20_memory.md R95), so an unlisted byte reads 0. -/
def Obligations.StepKeepsMemoryCanonical : Prop :=
  ∀ s t : State, s.canonical → step s = .next t → t.canonical

/-- Every step keeps the shape of the table and its pointers: the exponent stays in 4..20 ("`capacity_exponent` never
leaves [4,20]", spec/43_map_commands.md R331), the footprint within MEM_BYTES (spec/20_memory.md R93), every listed byte
inside the allocation, and `ref`, `iter.cursor` and `disp` name taken slots (spec/10_state.md R47, R49, R50). THE MODEL'S CHOICE, not the spec's:
that without a table the table fields are the placeholder `Table.absent` (log entry 6, in `Shape`), and that slot RAM is
canonical lists of bytes, array and scratch each counted from its own first byte (log entry 8, in `Shape`). -/
def Obligations.StepKeepsShapeAndPointers : Prop :=
  ∀ s t : State, s.Shape → s.Pointers → step s = .next t → t.Shape ∧ t.Pointers

/-- Every step keeps the invariants of the table context, INV1 to INV6 (spec/10_state.md R55, R56), with the sizes, the
allocations and the pointers. THE MODEL'S CHOICE, not the spec's: that without a table the table fields are the placeholder
`Table.absent` (log entry 6, in `Inv`), and that slot RAM is canonical lists of bytes (log entry 8, in `Inv`). -/
def Obligations.StepKeepsTheTableInvariants : Prop :=
  ∀ s t : State, s.Inv → step s = .next t → t.Inv

/-- From a good state no step stops: the HTPE has no fault (spec/60_exceptions.md R407); what the spec leaves the model
without is the state that log entry 13 names, and no good state is one. -/
def Obligations.GoodStatesNeverStop : Prop :=
  ∀ s : State, s.Inv → ∃ t, step s = .next t

/-- An INSERT that succeeds maps its key to the STAGE item and leaves every other key's item; one that fails leaves every
key's item, also when a growth stays (spec/43_map_commands.md R300, R303, R304, R330). -/
def Obligations.InsertUpdatesTheMap : Prop :=
  ∀ (s t : State) (key : KeyOperand), s.Inv → s.tstate = .ready → s.getKey true = .ok key →
    exec (.insert true true) s = .next t →
    (t.err = .ok → t.tab.lookup key = some s.tab.stage ∧
      (t.result = 1#32 ∧ s.tab.lookup key = none ∧ t.tab.occ.toNat = s.tab.occ.toNat + 1 ∨
        t.result = 2#32 ∧ s.tab.lookup key ≠ none ∧ t.tab.occ = s.tab.occ) ∧
      ∀ k, k.key ≠ key.key → t.tab.lookup k = s.tab.lookup k) ∧
    (t.err ≠ .ok → ∀ k, t.tab.lookup k = s.tab.lookup k)

/-- A REMOVE that succeeds takes its key out and leaves every other key's item; `occ` drops by exactly one; the removed
entry stands in REMOVED (spec/43_map_commands.md R320, R321, R322). -/
def Obligations.RemoveUpdatesTheMap : Prop :=
  ∀ (s t : State) (key : KeyOperand), s.Inv → s.tstate = .ready → s.getKey true = .ok key →
    exec (.remove true) s = .next t → t.err = .ok →
    t.tab.lookup key = none ∧ t.tab.occ.toNat + 1 = s.tab.occ.toNat ∧ s.tab.lookup key = some t.tab.removedItem ∧
    t.tab.removedKey = key.key ∧ t.ref = .removed ∧ ∀ k, k.key ≠ key.key → t.tab.lookup k = s.tab.lookup k

/-- GET tells whether the map has the key, and shows its item through REF (spec/43_map_commands.md R310, R311). THE MODEL'S
CHOICE, not the spec's: an item above 4096 bytes is shown at offsets from `0x1000` on too (log entry 19). -/
def Obligations.GetShowsTheMapsItem : Prop :=
  ∀ (s t : State) (key : KeyOperand), s.tstate = .ready → s.getKey true = .ok key → exec (.get true) s = .next t →
    (t.err = .ok ↔ s.tab.lookup key ≠ none) ∧ t.tab = s.tab ∧ t.iterActive = s.iterActive ∧
    t.iterCursor = s.iterCursor ∧
    (t.err = .ok → ∃ i, t.ref = .slot i ∧ t.result = BitVec.ofNat 32 i ∧
      s.tab.lookup key = some (t.tab.slot i).item ∧ (t.tab.slot i).key = key.key ∧
      ∀ (off : BitVec 32) (n : Nat), t.refuses .ref off n = false →
        (t.access (.read .ref off n)).env.readData.toNat = ((t.tab.slot i).item).readLE off.toNat n % 2 ^ 32)
end

