-- ==== Sys2Proof/Laws/Memory.lean ====
section
/-! SUPPORT. The laws of slot RAM: every operation keeps the canonical form, says what every byte reads afterwards,
and keeps within a bound. -/

namespace Sys2Proof.Machine

/-! ## The canonical form -/

@[simp] theorem Memory.wfFrom_nil (lo : Nat) : Memory.wfFrom lo [] = true := rfl

theorem Memory.wfFrom_cons (lo a : Nat) (b : Byte) (m : Memory) :
    Memory.wfFrom lo ((a, b) :: m) = true ↔ lo ≤ a ∧ b ≠ 0#8 ∧ Memory.wfFrom (a + 1) m = true := by
  simp [Memory.wfFrom, and_assoc]

theorem Memory.wfFrom_mono {lo lo' : Nat} {m : Memory} (h : Memory.wfFrom lo m = true) (hl : lo' ≤ lo) :
    Memory.wfFrom lo' m = true := by
  cases m with
  | nil => rfl
  | cons c m =>
    obtain ⟨a, b⟩ := c
    rw [Memory.wfFrom_cons] at h ⊢
    exact ⟨hl.trans h.1, h.2⟩

theorem Memory.wf_of_wfFrom {lo : Nat} {m : Memory} (h : Memory.wfFrom lo m = true) : m.wf = true :=
  Memory.wfFrom_mono h (Nat.zero_le lo)

@[simp] theorem Memory.wf_nil : Memory.wf [] = true := rfl

/-! ## Reading -/

@[simp] theorem Memory.read_nil (x : Nat) : Memory.read [] x = 0#8 := rfl

theorem Memory.read_cons (a : Nat) (b : Byte) (m : Memory) (x : Nat) :
    Memory.read ((a, b) :: m) x = if a = x then b else m.read x := rfl

/-- Below its first offset a canonical memory reads 0. -/
theorem Memory.read_below {lo : Nat} {m : Memory} (h : Memory.wfFrom lo m = true) {x : Nat} (hx : x < lo) :
    m.read x = 0#8 := by
  induction m generalizing lo with
  | nil => rfl
  | cons c m ih =>
    obtain ⟨a, b⟩ := c
    rw [Memory.wfFrom_cons] at h
    rw [Memory.read_cons, if_neg (by omega)]
    exact ih h.2.2 (by omega)

/-- Canonical memories that read alike everywhere are equal. -/
theorem Memory.ext_from {lo : Nat} {m m' : Memory} (h : Memory.wfFrom lo m = true) (h' : Memory.wfFrom lo m' = true)
    (hr : ∀ x, m.read x = m'.read x) : m = m' := by
  induction m generalizing lo m' with
  | nil =>
    cases m' with
    | nil => rfl
    | cons c m' =>
      obtain ⟨a, b⟩ := c
      rw [Memory.wfFrom_cons] at h'
      have := hr a
      simp [Memory.read_cons] at this
      exact absurd this.symm h'.2.1
  | cons c m ih =>
    obtain ⟨a, b⟩ := c
    rw [Memory.wfFrom_cons] at h
    cases m' with
    | nil =>
      have := hr a
      simp [Memory.read_cons] at this
      exact absurd this h.2.1
    | cons c' m' =>
      obtain ⟨a', b'⟩ := c'
      rw [Memory.wfFrom_cons] at h'
      have hab : a = a' := by
        rcases Nat.lt_trichotomy a a' with hlt | heq | hgt
        · have := hr a
          rw [Memory.read_cons, if_pos rfl, Memory.read_cons, if_neg (by omega),
            Memory.read_below h'.2.2 (by omega)] at this
          exact absurd this h.2.1
        · exact heq
        · have := hr a'
          rw [Memory.read_cons, if_neg (by omega), Memory.read_cons, if_pos rfl,
            Memory.read_below h.2.2 (by omega)] at this
          exact absurd this.symm h'.2.1
      subst hab
      have hb : b = b' := by simpa [Memory.read_cons] using hr a
      subst hb
      rw [ih h.2.2 h'.2.2 fun x => ?_]
      by_cases hx : a = x
      · subst hx
        rw [Memory.read_below h.2.2 (by omega), Memory.read_below h'.2.2 (by omega)]
      · simpa [Memory.read_cons, hx] using hr x

theorem Memory.ext {m m' : Memory} (h : m.wf = true) (h' : m'.wf = true) (hr : ∀ x, m.read x = m'.read x) : m = m' :=
  Memory.ext_from h h' hr

/-- A nonzero byte is listed. -/
theorem Memory.mem_of_read {m : Memory} {x : Nat} (h : m.read x ≠ 0#8) : ∃ b, (x, b) ∈ m := by
  induction m with
  | nil => simp at h
  | cons c m ih =>
    obtain ⟨a, b⟩ := c
    rw [Memory.read_cons] at h
    by_cases hx : a = x
    · subst hx; exact ⟨b, by simp⟩
    · rw [if_neg hx] at h
      obtain ⟨b', hb'⟩ := ih h
      exact ⟨b', by simp [hb']⟩

/-- A listed offset of a canonical memory reads its byte, which is not 0. -/
theorem Memory.read_of_mem {lo : Nat} {m : Memory} (h : Memory.wfFrom lo m = true) {x : Nat} {b : Byte}
    (hm : (x, b) ∈ m) : m.read x = b ∧ b ≠ 0#8 ∧ lo ≤ x := by
  induction m generalizing lo with
  | nil => simp at hm
  | cons c m ih =>
    obtain ⟨a, b'⟩ := c
    rw [Memory.wfFrom_cons] at h
    rw [Memory.read_cons]
    rcases List.mem_cons.mp hm with heq | hm
    · cases heq; exact ⟨if_pos rfl, h.2.1, h.1⟩
    · obtain ⟨h1, h2, h3⟩ := ih h.2.2 hm
      rw [if_neg (by omega)]
      exact ⟨h1, h2, by omega⟩

/-! ## Writing one byte -/

theorem Memory.wfFrom_write {lo : Nat} {m : Memory} (h : Memory.wfFrom lo m = true) {x : Nat} (hx : lo ≤ x) (v : Byte) :
    Memory.wfFrom lo (m.write x v) = true := by
  induction m generalizing lo with
  | nil =>
    simp only [Memory.write]
    split_ifs with hv
    · rfl
    · rw [Memory.wfFrom_cons]; exact ⟨hx, hv, rfl⟩
  | cons c m ih =>
    obtain ⟨a, b⟩ := c
    have h0 := h
    rw [Memory.wfFrom_cons] at h
    simp only [Memory.write]
    split_ifs with h1 h2 h3 h4
    · exact h0
    · rw [Memory.wfFrom_cons, Memory.wfFrom_cons]; exact ⟨hx, h2, by omega, h.2⟩
    · exact Memory.wfFrom_mono h.2.2 (by omega)
    · subst h3; rw [Memory.wfFrom_cons]; exact ⟨h.1, h4, h.2.2⟩
    · rw [Memory.wfFrom_cons]; exact ⟨h.1, h.2.1, ih h.2.2 (by omega)⟩

theorem Memory.wf_write {m : Memory} (h : m.wf = true) (x : Nat) (v : Byte) : (m.write x v).wf = true :=
  Memory.wfFrom_write h (Nat.zero_le x) v

theorem Memory.read_write_from {lo : Nat} {m : Memory} (h : Memory.wfFrom lo m = true) (x y : Nat) (v : Byte) :
    (m.write x v).read y = if y = x then v else m.read y := by
  induction m generalizing lo with
  | nil =>
    simp only [Memory.write]
    by_cases hv : v = 0#8
    · simp [hv]
    · simp [hv, Memory.read_cons, eq_comm]
  | cons c m ih =>
    obtain ⟨a, b⟩ := c
    rw [Memory.wfFrom_cons] at h
    have hb : ∀ z, z ≤ a → Memory.read m z = 0#8 := fun z hz => Memory.read_below h.2.2 (by omega)
    simp only [Memory.write]
    by_cases hxa : x < a
    · have hx := hb x (by omega)
      by_cases hv : v = 0#8
      · simp only [hxa, hv, if_true, Memory.read_cons]
        split_ifs <;> first | rfl | omega | simp_all
      · simp only [hxa, hv, if_true, if_false, Memory.read_cons]
        split_ifs <;> first | rfl | omega
    · by_cases hxe : x = a
      · subst hxe
        have hx := hb x le_rfl
        by_cases hv : v = 0#8
        · simp only [hxa, hv, if_true, if_false, Memory.read_cons]
          split_ifs with h1 h2 <;> first | rfl | omega | (subst h1; exact hx)
        · simp only [hxa, hv, if_true, if_false, Memory.read_cons]
          split_ifs <;> first | rfl | omega
      · simp only [hxa, hxe, if_false, Memory.read_cons, ih h.2.2]
        split_ifs <;> first | rfl | omega

/-- A read after a write: the byte written there, every other byte as before. -/
theorem Memory.read_write {m : Memory} (h : m.wf = true) (x y : Nat) (v : Byte) :
    (m.write x v).read y = if y = x then v else m.read y :=
  Memory.read_write_from h x y v

theorem Memory.mem_write {m : Memory} {x : Nat} {v : Byte} {c : Host.Cell} (h : c ∈ m.write x v) :
    c ∈ m ∨ c = (x, v) := by
  induction m with
  | nil =>
    simp only [Memory.write] at h
    split_ifs at h <;> simp_all
  | cons d m ih =>
    obtain ⟨a, b⟩ := d
    simp only [Memory.write] at h
    split_ifs at h <;> simp only [List.mem_cons] at h ⊢ <;> tauto

/-! ## Regions -/

theorem Memory.read_extract (m : Memory) (base n x : Nat) :
    (m.extract base n).read x = if x < n then m.read (base + x) else 0#8 := by
  induction m with
  | nil => simp [Memory.extract]
  | cons c m ih =>
    obtain ⟨a, b⟩ := c
    simp only [Memory.extract]
    split_ifs with h1 h2 <;> simp only [Memory.read_cons, ih]
    · split_ifs <;> first | rfl | omega
    · split_ifs <;> first | rfl | omega
    · split_ifs <;> first | rfl | omega
    · split_ifs; rfl

theorem Memory.wfFrom_extract {lo : Nat} {m : Memory} (h : Memory.wfFrom lo m = true) (base n : Nat) :
    Memory.wfFrom (lo - base) (m.extract base n) = true := by
  induction m generalizing lo with
  | nil => rfl
  | cons c m ih =>
    obtain ⟨a, b⟩ := c
    rw [Memory.wfFrom_cons] at h
    simp only [Memory.extract]
    split_ifs with h1
    · rw [Memory.wfFrom_cons]
      exact ⟨by omega, h.2.1, Memory.wfFrom_mono (ih h.2.2) (by omega)⟩
    · exact Memory.wfFrom_mono (ih h.2.2) (by omega)

theorem Memory.wf_extract {m : Memory} (h : m.wf = true) (base n : Nat) : (m.extract base n).wf = true :=
  Memory.wf_of_wfFrom (Memory.wfFrom_extract h base n)

theorem Memory.mem_extract {m : Memory} {base n : Nat} {c : Host.Cell} (h : c ∈ m.extract base n) : c.1 < n := by
  induction m with
  | nil => simp [Memory.extract] at h
  | cons d m ih =>
    obtain ⟨a, b⟩ := d
    simp only [Memory.extract] at h
    split_ifs at h with h1
    · rcases List.mem_cons.mp h with rfl | h
      · simp only; omega
      · exact ih h
    · exact ih h

theorem Memory.wfFrom_clear {lo : Nat} {m : Memory} (h : Memory.wfFrom lo m = true) (base n : Nat) :
    Memory.wfFrom lo (m.clear base n) = true := by
  induction m generalizing lo with
  | nil => rfl
  | cons c m ih =>
    obtain ⟨a, b⟩ := c
    rw [Memory.wfFrom_cons] at h
    simp only [Memory.clear]
    split_ifs with h1
    · exact Memory.wfFrom_mono (ih h.2.2) (by omega)
    · rw [Memory.wfFrom_cons]; exact ⟨h.1, h.2.1, ih h.2.2⟩

theorem Memory.read_clear (m : Memory) (base n x : Nat) :
    (m.clear base n).read x = if base ≤ x ∧ x < base + n then 0#8 else m.read x := by
  induction m with
  | nil => simp [Memory.clear]
  | cons c m ih =>
    obtain ⟨a, b⟩ := c
    simp only [Memory.clear]
    split_ifs with h1 h2 h2 <;> simp only [Memory.read_cons, ih]
    · rw [if_pos h2]
    · rw [if_neg h2, if_neg (by rintro rfl; exact h2 h1)]
    · rw [if_pos h2, if_neg (by rintro rfl; exact h1 h2)]
    · rw [if_neg h2]

theorem Memory.mem_clear {m : Memory} {base n : Nat} {c : Host.Cell} (h : c ∈ m.clear base n) : c ∈ m := by
  induction m with
  | nil => simp [Memory.clear] at h
  | cons d m ih =>
    obtain ⟨a, b⟩ := d
    simp only [Memory.clear] at h
    split_ifs at h
    · exact List.mem_cons_of_mem _ (ih h)
    · rcases List.mem_cons.mp h with rfl | h
      · exact List.mem_cons_self
      · exact List.mem_cons_of_mem _ (ih h)

theorem Memory.wf_overlay {m : Memory} (h : m.wf = true) (base n : Nat) (src : Memory) :
    (m.overlay base n src).wf = true := by
  induction src with
  | nil => exact h
  | cons c src ih =>
    obtain ⟨a, b⟩ := c
    simp only [Memory.overlay]
    split_ifs
    · exact Memory.wf_write ih _ _
    · exact ih

/-- Over bytes that read 0, an overlay reads as its source; every other byte is as before. -/
theorem Memory.read_overlay {m : Memory} (h : m.wf = true) (base n : Nat) (src : Memory) (x : Nat)
    (h0 : base ≤ x → x < base + n → m.read x = 0#8) :
    (m.overlay base n src).read x = if base ≤ x ∧ x < base + n then src.read (x - base) else m.read x := by
  induction src with
  | nil => simp only [Memory.overlay, Memory.read_nil]; split_ifs with hx; exacts [h0 hx.1 hx.2, rfl]
  | cons c src ih =>
    obtain ⟨a, b⟩ := c
    simp only [Memory.overlay]
    split_ifs with h1 h2 h2
    · rw [Memory.read_write (Memory.wf_overlay h _ _ _), ih, if_pos h2, Memory.read_cons]
      split_ifs <;> first | rfl | omega
    · rw [Memory.read_write (Memory.wf_overlay h _ _ _), ih, if_neg h2, if_neg (by omega)]
    · rw [ih, if_pos h2, Memory.read_cons, if_neg (by omega)]
    · rw [ih, if_neg h2]

theorem Memory.mem_overlay {m : Memory} {base n : Nat} {src : Memory} {c : Host.Cell}
    (h : c ∈ m.overlay base n src) : c ∈ m ∨ base ≤ c.1 ∧ c.1 < base + n := by
  induction src with
  | nil => exact .inl h
  | cons d src ih =>
    obtain ⟨a, b⟩ := d
    simp only [Memory.overlay] at h
    split_ifs at h with h1
    · rcases Memory.mem_write h with h | rfl
      · exact ih h
      · exact .inr ⟨by simp only; omega, by simp only; omega⟩
    · exact ih h

/-- What every byte reads after a region was copied. -/
theorem Memory.read_blit {m : Memory} (h : m.wf = true) (base n : Nat) (src : Memory) (x : Nat) :
    (m.blit base n src).read x = if base ≤ x ∧ x < base + n then src.read (x - base) else m.read x := by
  have hc : (m.clear base n).wf = true := Memory.wfFrom_clear h base n
  rw [Memory.blit, Memory.read_overlay hc, Memory.read_clear]
  · split_ifs with hx; exacts [rfl, rfl]
  · intro h1 h2; rw [Memory.read_clear, if_pos ⟨h1, h2⟩]

theorem Memory.wf_blit {m : Memory} (h : m.wf = true) (base n : Nat) (src : Memory) : (m.blit base n src).wf = true :=
  Memory.wf_overlay (Memory.wfFrom_clear h base n) base n src

theorem Memory.mem_blit {m : Memory} {base n : Nat} {src : Memory} {c : Host.Cell}
    (h : c ∈ m.blit base n src) : c ∈ m ∨ base ≤ c.1 ∧ c.1 < base + n := by
  rcases Memory.mem_overlay h with h | h
  · exact .inl (Memory.mem_clear h)
  · exact .inr h

/-- A region copied in and taken out again. -/
theorem Memory.extract_blit {m : Memory} (h : m.wf = true) (base n : Nat) {src : Memory} (hs : src.wf = true)
    (hb : ∀ c ∈ src, c.1 < n) : (m.blit base n src).extract base n = src := by
  refine Memory.ext (Memory.wf_extract (Memory.wf_blit h _ _ _) _ _) hs fun x => ?_
  rw [Memory.read_extract, Memory.read_blit h]
  by_cases hx : x < n
  · rw [if_pos hx, if_pos ⟨by omega, by omega⟩, Nat.add_sub_cancel_left]
  · rw [if_neg hx]
    by_contra hne
    obtain ⟨b, hb'⟩ := Memory.mem_of_read (Ne.symm hne)
    exact hx (hb _ hb')

/-! ## Byte strings and little-endian numbers -/

@[simp] theorem leBytes_length (n v : Nat) : (leBytes n v).length = n := by
  induction n generalizing v with
  | zero => rfl
  | succ n ih => simp [leBytes, ih]

@[simp] theorem Memory.readBytes_length (m : Memory) (x n : Nat) : (m.readBytes x n).length = n := by
  induction n generalizing x with
  | zero => rfl
  | succ n ih => simp [Memory.readBytes, ih]

theorem leValue_lt (bs : List Byte) : leValue bs < 256 ^ bs.length := by
  induction bs with
  | nil => simp [leValue]
  | cons b bs ih =>
    have := b.isLt
    simp only [leValue, List.length_cons, pow_succ]
    omega

/-- The bytes of a number, read back as a number: its low bytes. -/
theorem leValue_leBytes (n v : Nat) : leValue (leBytes n v) = v % 256 ^ n := by
  induction n generalizing v with
  | zero => simp [leBytes, leValue, Nat.mod_one]
  | succ n ih =>
    rw [pow_succ, Nat.mul_comm (256 ^ n) 256, Nat.mod_mul]
    simp only [leBytes, leValue, ih, BitVec.toNat_ofNat, Nat.reducePow]

/-- The number of a byte string, cut into bytes again. -/
theorem leBytes_leValue (bs : List Byte) : leBytes bs.length (leValue bs) = bs := by
  induction bs with
  | nil => rfl
  | cons b bs ih =>
    have hb := b.isLt
    simp only [List.length_cons, leBytes, leValue]
    rw [Nat.add_mul_div_left _ _ (by norm_num), Nat.div_eq_of_lt hb, Nat.zero_add, ih]
    congr 1
    apply BitVec.eq_of_toNat_eq
    rw [BitVec.toNat_ofNat]
    omega

theorem Memory.readBytes_eq_of_read {m m' : Memory} {x n : Nat} (h : ∀ y, x ≤ y → y < x + n → m.read y = m'.read y) :
    m.readBytes x n = m'.readBytes x n := by
  induction n generalizing x with
  | zero => rfl
  | succ n ih =>
    simp only [Memory.readBytes]
    rw [h x le_rfl (by omega), ih fun y hy hy' => h y (by omega) (by omega)]

theorem Memory.wf_writeBytes {m : Memory} (h : m.wf = true) (x : Nat) (bs : List Byte) :
    (m.writeBytes x bs).wf = true := by
  induction bs generalizing m x with
  | nil => exact h
  | cons b bs ih => exact ih (Memory.wf_write h x b) (x + 1)

/-- Bytes outside a written string are as before. -/
theorem Memory.read_writeBytes_outside {m : Memory} (h : m.wf = true) (x : Nat) (bs : List Byte) (y : Nat)
    (hy : y < x ∨ x + bs.length ≤ y) : (m.writeBytes x bs).read y = m.read y := by
  induction bs generalizing m x with
  | nil => rfl
  | cons b bs ih =>
    simp only [Memory.writeBytes, List.length_cons] at hy ⊢
    rw [ih (Memory.wf_write h x b) (x + 1) (by omega), Memory.read_write h, if_neg (by omega)]

theorem Memory.readBytes_writeBytes {m : Memory} (h : m.wf = true) (x : Nat) (bs : List Byte) :
    (m.writeBytes x bs).readBytes x bs.length = bs := by
  induction bs generalizing m x with
  | nil => rfl
  | cons b bs ih =>
    simp only [Memory.writeBytes, List.length_cons, Memory.readBytes]
    rw [ih (Memory.wf_write h x b), Memory.read_writeBytes_outside (Memory.wf_write h x b) _ _ _ (by omega),
      Memory.read_write h, if_pos rfl]

theorem Memory.mem_writeBytes {m : Memory} {x : Nat} {bs : List Byte} {c : Host.Cell} (h : c ∈ m.writeBytes x bs) :
    c ∈ m ∨ x ≤ c.1 ∧ c.1 < x + bs.length := by
  induction bs generalizing m x with
  | nil => exact .inl h
  | cons b bs ih =>
    simp only [List.length_cons]
    rcases ih h with h | h
    · rcases Memory.mem_write h with h | rfl
      · exact .inl h
      · exact .inr ⟨le_rfl, by simp only; omega⟩
    · exact .inr ⟨by omega, by omega⟩

theorem Memory.wf_writeLE {m : Memory} (h : m.wf = true) (x n v : Nat) : (m.writeLE x n v).wf = true :=
  Memory.wf_writeBytes h _ _

theorem Memory.readLE_lt (m : Memory) (x n : Nat) : m.readLE x n < 256 ^ n := by
  have := leValue_lt (m.readBytes x n)
  rwa [Memory.readBytes_length] at this

/-- A little-endian read after a write of the same bytes. -/
theorem Memory.readLE_writeLE {m : Memory} (h : m.wf = true) (x n v : Nat) :
    (m.writeLE x n v).readLE x n = v % 256 ^ n := by
  have := Memory.readBytes_writeBytes h x (leBytes n v)
  rw [leBytes_length] at this
  rw [Memory.readLE, Memory.writeLE, this, leValue_leBytes]

/-- A little-endian write leaves every other byte. -/
theorem Memory.read_writeLE_outside {m : Memory} (h : m.wf = true) (x n v y : Nat) (hy : y < x ∨ x + n ≤ y) :
    (m.writeLE x n v).read y = m.read y :=
  Memory.read_writeBytes_outside h x _ y (by rwa [leBytes_length])

theorem Memory.mem_writeLE {m : Memory} {x n v : Nat} {c : Host.Cell} (h : c ∈ m.writeLE x n v) :
    c ∈ m ∨ x ≤ c.1 ∧ c.1 < x + n := by
  have := Memory.mem_writeBytes h
  rwa [leBytes_length] at this

theorem Memory.readLE_eq_of_read {m m' : Memory} {x n : Nat} (h : ∀ y, x ≤ y → y < x + n → m.read y = m'.read y) :
    m.readLE x n = m'.readLE x n := by
  rw [Memory.readLE, Memory.readLE, Memory.readBytes_eq_of_read h]

/-- Byte `b` of a little-endian read of `n` bytes. -/
theorem Memory.readLE_byte (m : Memory) (x : Nat) {b n : Nat} (hb : b < n) :
    m.readLE x n / 256 ^ b % 256 = (m.read (x + b)).toNat := by
  induction n generalizing x b with
  | zero => omega
  | succ n ih =>
    have h0 := (m.read x).isLt
    cases b with
    | zero => simp only [Memory.readLE, Memory.readBytes, leValue, Nat.pow_zero, Nat.div_one, Nat.add_zero]; omega
    | succ b =>
      have h := ih (x + 1) (b := b) (by omega)
      rw [Memory.readLE, Memory.readBytes, leValue, pow_succ, Nat.mul_comm (256 ^ b) 256, ← Nat.div_div_eq_div_mul,
        Nat.add_mul_div_left _ _ (by norm_num), Nat.div_eq_of_lt h0, Nat.zero_add]
      rw [Memory.readLE] at h
      rw [h, Nat.add_assoc, Nat.add_comm 1 b]

/-- A little-endian read inside an extracted region is one of the region it came from. -/
theorem Memory.readLE_extract (m : Memory) {base n x k : Nat} (h : x + k ≤ n) :
    (m.extract base n).readLE x k = m.readLE (base + x) k := by
  induction k generalizing x with
  | zero => rfl
  | succ k ih =>
    have hk := ih (x := x + 1) (by omega)
    simp only [Memory.readLE, Memory.readBytes, leValue] at hk ⊢
    rw [hk, Memory.read_extract, if_pos (by omega), Nat.add_assoc]

end Sys2Proof.Machine
end

