-- ==== Sys2Proof/Laws/Codec.lean ====
section
/-! SUPPORT. The laws of the metadata codec and of slots over slot RAM: a slot read after a slot write, the frame of a
slot write, and the frames of the key and item writes. -/

namespace Sys2Proof.Machine

/-! ## The codec on packed words -/

@[simp] theorem getTaken_pack (t : Bool) (p h : Nat) : getTaken (pack t p h) = t := by
  cases t <;> simp [getTaken, pack]

@[simp] theorem getPsl_pack (t : Bool) (p h : Nat) : getPsl (pack t p h) = BitVec.ofNat 11 p := by
  apply BitVec.eq_of_getLsbD_eq
  intro i hi
  have h7 : Nat.testBit 2047 i = true := by
    interval_cases i <;> decide
  have ht : ((BitVec.ofBool t).setWidth 32).getLsbD (1 + i) = false := by
    cases t <;> interval_cases i <;> decide
  simp only [getPsl, pack, BitVec.getLsbD_extractLsb', BitVec.getLsbD_or, BitVec.getLsbD_shiftLeft, BitVec.getLsbD_and,
    BitVec.getLsbD_ofNat, ht]
  have e1 : 1 + i - 1 = i := by omega
  have d1 : 1 + i < 32 := by omega
  have d2 : 1 + i < 12 := by omega
  have d3 : i < 32 := by omega
  simp [e1, h7, hi, d1, d2, d3]

@[simp] theorem getTh_pack (t : Bool) (p h : Nat) : getTh (pack t p h) = BitVec.ofNat 20 h := by
  apply BitVec.eq_of_getLsbD_eq
  intro i hi
  have h7 : Nat.testBit 1048575 i = true := by
    interval_cases i <;> decide
  have h8 : (0x7FF#32).getLsbD (12 + i - 1) = false := by
    interval_cases i <;> decide
  have ht : ((BitVec.ofBool t).setWidth 32).getLsbD (12 + i) = false := by
    cases t <;> interval_cases i <;> decide
  simp only [getTh, pack, BitVec.getLsbD_extractLsb', BitVec.getLsbD_or, BitVec.getLsbD_shiftLeft, BitVec.getLsbD_and,
    BitVec.getLsbD_ofNat, ht, h8]
  have e1 : 12 + i - 12 = i := by omega
  have d1 : 12 + i < 32 := by omega
  have d3 : i < 32 := by omega
  simp [e1, h7, hi, d1, d3]

/-- Two words with the same three fields are equal. -/
theorem eq_of_fields {w w' : Word} (h1 : getTaken w = getTaken w') (h2 : getPsl w = getPsl w')
    (h3 : getTh w = getTh w') : w = w' := by
  apply BitVec.eq_of_getLsbD_eq
  intro i hi
  by_cases h0 : i = 0
  · subst h0; exact h1
  · by_cases h12 : i < 12
    · have := congrArg (fun v => v.getLsbD (i - 1)) h2
      simp only [getPsl, BitVec.getLsbD_extractLsb'] at this
      rw [show 1 + (i - 1) = i by omega, decide_eq_true (show i - 1 < 11 by omega)] at this
      simpa using this
    · have := congrArg (fun v => v.getLsbD (i - 12)) h3
      simp only [getTh, BitVec.getLsbD_extractLsb'] at this
      rw [show 12 + (i - 12) = i by omega, decide_eq_true (show i - 12 < 20 by omega)] at this
      simpa using this

/-! ## Where a slot's bytes lie -/

theorem Geometry.keyBase_eq (g : Geometry) (i : Nat) : g.keyBase i = g.slotBase i + 4 := rfl

theorem Geometry.itemBase_eq (g : Geometry) (i : Nat) : g.itemBase i = g.slotBase i + 24 := rfl

/-- Slots do not overlap. -/
theorem Geometry.slotBase_lt (g : Geometry) {i j : Nat} (h : i < j) : g.slotBase i + g.slotSize ≤ g.slotBase j := by
  have := Nat.mul_le_mul_right g.slotSize (show i + 1 ≤ j from h)
  simpa [Geometry.slotBase, Nat.add_mul] using this

/-- A created slot size fits (spec/20_memory.md R90). -/
theorem fits_of_slotBytes {g : Geometry} (h : g.slotSize = slotBytes g.itemSize) : g.fits := by
  simp only [Geometry.fits, h, slotBytes, Config.metaBytes, Config.keyBytes, Config.ptrAlign]
  omega

/-- The item of a slot is canonical and inside the item size. -/
structure Slot.Sane (c : Slot) (g : Geometry) : Prop where
  wf : c.item.wf = true
  inside : ∀ d ∈ c.item, d.1 < g.itemSize

theorem Slot.empty_sane (g : Geometry) : Slot.empty.Sane g := ⟨rfl, by simp [Slot.empty]⟩

theorem getSlot_sane {m : Memory} (h : m.wf = true) (g : Geometry) (i : Nat) : (getSlot g m i).Sane g :=
  ⟨Memory.wf_extract h _ _, fun _ hd => Memory.mem_extract hd⟩

/-! ## The canonical form and the extent -/

theorem wf_putKey {m : Memory} (h : m.wf = true) (g : Geometry) (i : Nat) (k : KeyBuf) : (putKey g m i k).wf = true :=
  Memory.wf_writeLE h _ _ _

theorem wf_putItem {m : Memory} (h : m.wf = true) (g : Geometry) (i : Nat) (v : Memory) : (putItem g m i v).wf = true :=
  Memory.wf_blit h _ _ _

theorem wf_setSlot {m : Memory} (h : m.wf = true) (g : Geometry) (i : Nat) (c : Slot) : (setSlot g m i c).wf = true :=
  wf_putItem (wf_putKey (Memory.wf_writeLE h _ _ _) _ _ _) _ _ _

theorem mem_putKey {g : Geometry} {m : Memory} {i : Nat} {k : KeyBuf} {c : Host.Cell} (h : c ∈ putKey g m i k) :
    c ∈ m ∨ g.keyBase i ≤ c.1 ∧ c.1 < g.keyBase i + 20 := Memory.mem_writeLE h

theorem mem_putItem {g : Geometry} {m : Memory} {i : Nat} {v : Memory} {c : Host.Cell} (h : c ∈ putItem g m i v) :
    c ∈ m ∨ g.itemBase i ≤ c.1 ∧ c.1 < g.itemBase i + g.itemSize := Memory.mem_blit h

/-- A slot write lists no byte outside the slot that was not listed before. -/
theorem mem_setSlot {g : Geometry} (hg : g.fits) {m : Memory} {i : Nat} {c : Slot} {d : Host.Cell}
    (h : d ∈ setSlot g m i c) : d ∈ m ∨ g.slotBase i ≤ d.1 ∧ d.1 < g.slotBase i + g.slotSize := by
  simp only [Geometry.fits, Config.metaBytes, Config.keyBytes] at hg
  rcases mem_putItem h with h | h
  · rcases mem_putKey h with h | h
    · rcases Memory.mem_writeLE h with h | h
      · exact .inl h
      · simp only [Config.metaBytes] at h; exact .inr ⟨by omega, by omega⟩
    · rw [Geometry.keyBase_eq] at h; exact .inr ⟨by omega, by omega⟩
  · rw [Geometry.itemBase_eq] at h; exact .inr ⟨by omega, by omega⟩

/-! ## Frames -/

/-- A slot write leaves every byte outside the slot. -/
theorem read_setSlot_outside {g : Geometry} (hg : g.fits) {m : Memory} (hm : m.wf = true) (i : Nat) (c : Slot) (y : Nat)
    (hy : y < g.slotBase i ∨ g.slotBase i + g.slotSize ≤ y) : (setSlot g m i c).read y = m.read y := by
  simp only [Geometry.fits, Config.metaBytes, Config.keyBytes] at hg
  have h1 : (m.writeLE (g.slotBase i) Config.metaBytes c.metaWord.toNat).wf = true := Memory.wf_writeLE hm _ _ _
  rw [setSlot, putItem, Memory.read_blit (wf_putKey h1 _ _ _), if_neg (by rw [Geometry.itemBase_eq]; omega), putKey,
    Memory.read_writeLE_outside h1 _ _ _ _ (by rw [Geometry.keyBase_eq]; simp only [Config.keyBytes]; omega),
    Memory.read_writeLE_outside hm _ _ _ _ (by simp only [Config.metaBytes]; omega)]

/-- A slot depends on its own bytes only. -/
theorem getSlot_congr {g : Geometry} (hg : g.fits) {m m' : Memory} (hm : m.wf = true) (hm' : m'.wf = true) (i : Nat)
    (h : ∀ y, g.slotBase i ≤ y → y < g.slotBase i + g.slotSize → m.read y = m'.read y) :
    getSlot g m i = getSlot g m' i := by
  simp only [Geometry.fits, Config.metaBytes, Config.keyBytes] at hg
  have h1 : slotMeta g m i = slotMeta g m' i := by
    rw [slotMeta, slotMeta, Memory.readLE_eq_of_read fun y hy hy' => h y (by omega) ?_]
    simp only [Config.metaBytes] at hy'; omega
  have h2 : slotKey g m i = slotKey g m' i := by
    rw [slotKey, slotKey, Memory.readLE_eq_of_read fun y hy hy' => h y ?_ ?_]
    · rw [Geometry.keyBase_eq] at hy; omega
    · rw [Geometry.keyBase_eq] at hy'; simp only [Config.keyBytes] at hy'; omega
  have h3 : slotItem g m i = slotItem g m' i := by
    refine Memory.ext (Memory.wf_extract hm _ _) (Memory.wf_extract hm' _ _) fun x => ?_
    rw [slotItem, slotItem, Memory.read_extract, Memory.read_extract, Geometry.itemBase_eq]
    split_ifs with hx
    · exact h _ (by omega) (by omega)
    · rfl
  rw [getSlot, getSlot, h1, h2, h3]

/-- A slot write leaves every other slot. -/
theorem getSlot_setSlot_other {g : Geometry} (hg : g.fits) {m : Memory} (hm : m.wf = true) {i j : Nat} (hij : i ≠ j)
    (c : Slot) : getSlot g (setSlot g m i c) j = getSlot g m j := by
  refine getSlot_congr hg (wf_setSlot hm _ _ _) hm j fun y hy hy' => read_setSlot_outside hg hm i c y ?_
  rcases Nat.lt_or_gt_of_ne hij with h | h
  · have := g.slotBase_lt h; omega
  · have := g.slotBase_lt h; omega

/-- A slot read after it was written. -/
theorem getSlot_setSlot_same {g : Geometry} {m : Memory} (hm : m.wf = true) (i : Nat) {c : Slot}
    (hc : c.Sane g) : getSlot g (setSlot g m i c) i = c := by
  have h1 : (m.writeLE (g.slotBase i) Config.metaBytes c.metaWord.toNat).wf = true := Memory.wf_writeLE hm _ _ _
  have h2 := wf_putKey h1 g i c.key
  have e1 : slotMeta g (setSlot g m i c) i = c.metaWord := by
    have : (setSlot g m i c).readLE (g.slotBase i) Config.metaBytes
        = (m.writeLE (g.slotBase i) Config.metaBytes c.metaWord.toNat).readLE (g.slotBase i) Config.metaBytes := by
      refine Memory.readLE_eq_of_read fun y hy hy' => ?_
      simp only [Config.metaBytes] at hy'
      rw [setSlot, putItem, Memory.read_blit h2, if_neg (by rw [Geometry.itemBase_eq]; omega), putKey,
        Memory.read_writeLE_outside h1 _ _ _ _ (by rw [Geometry.keyBase_eq]; omega)]
    rw [slotMeta, this, Memory.readLE_writeLE hm]
    apply BitVec.eq_of_toNat_eq
    have := c.metaWord.isLt
    simp only [Config.metaBytes, BitVec.toNat_ofNat]
    omega
  have e2 : slotKey g (setSlot g m i c) i = c.key := by
    have : (setSlot g m i c).readLE (g.keyBase i) Config.keyBytes
        = (putKey g (m.writeLE (g.slotBase i) Config.metaBytes c.metaWord.toNat) i c.key).readLE (g.keyBase i)
            Config.keyBytes := by
      refine Memory.readLE_eq_of_read fun y hy hy' => ?_
      rw [Geometry.keyBase_eq] at hy hy'
      simp only [Config.keyBytes] at hy'
      rw [setSlot, putItem, Memory.read_blit h2, if_neg (by rw [Geometry.itemBase_eq]; omega)]
    rw [slotKey, this, putKey, Memory.readLE_writeLE h1]
    apply BitVec.eq_of_toNat_eq
    have := c.key.isLt
    simp only [Config.keyBytes, BitVec.toNat_ofNat]
    omega
  have e3 : slotItem g (setSlot g m i c) i = c.item := Memory.extract_blit h2 _ _ hc.wf hc.inside
  rw [getSlot, e1, e2, e3, Slot.metaWord]
  simp

/-! ## The searches -/

/-- What a search for a taken slot finds: the lowest one in its range, or that there is none. -/
theorem takenFrom_cases (g : Geometry) (m : Memory) (n i : Nat) :
    (∃ j, takenFrom g m n i = some j ∧ i ≤ j ∧ j < i + n ∧ (getSlot g m j).taken = true ∧
      ∀ l, i ≤ l → l < j → (getSlot g m l).taken = false) ∨
    (takenFrom g m n i = none ∧ ∀ l, i ≤ l → l < i + n → (getSlot g m l).taken = false) := by
  induction n generalizing i with
  | zero => exact .inr ⟨rfl, fun l h1 h2 => by omega⟩
  | succ n ih =>
    simp only [takenFrom]
    by_cases hi : (getSlot g m i).taken = true
    · exact .inl ⟨i, if_pos hi, le_rfl, by omega, hi, fun l h1 h2 => by omega⟩
    · rw [if_neg hi]
      rw [Bool.not_eq_true] at hi
      rcases ih (i + 1) with ⟨j, h1, h2, h3, h4, h5⟩ | ⟨h1, h2⟩
      · refine .inl ⟨j, h1, by omega, by omega, h4, fun l hl hl' => ?_⟩
        rcases Nat.eq_or_lt_of_le hl with rfl | hl
        · exact hi
        · exact h5 l hl hl'
      · refine .inr ⟨h1, fun l hl hl' => ?_⟩
        rcases Nat.eq_or_lt_of_le hl with rfl | hl
        · exact hi
        · exact h2 l hl (by omega)

/-- The count of a range cut in two. -/
theorem countTaken_add (g : Geometry) (m : Memory) (n k i : Nat) :
    countTaken g m (n + k) i = countTaken g m n i + countTaken g m k (i + n) := by
  induction n generalizing i with
  | zero => simp [countTaken]
  | succ n ih =>
    rw [Nat.succ_add, countTaken, ih, countTaken, Nat.add_assoc, Nat.add_assoc, Nat.add_comm 1 n]

/-- The count depends on the taken flags of its range only. -/
theorem countTaken_congr {g : Geometry} {m m' : Memory} {n i : Nat}
    (h : ∀ l, i ≤ l → l < i + n → (getSlot g m l).taken = (getSlot g m' l).taken) :
    countTaken g m n i = countTaken g m' n i := by
  induction n generalizing i with
  | zero => rfl
  | succ n ih =>
    simp only [countTaken]
    rw [h i le_rfl (by omega), ih fun l h1 h2 => h l (by omega) (by omega)]

end Sys2Proof.Machine
end

