-- ==== Sys2Proof/Laws/State.lean ====
section
/-! SUPPORT. One lemma per field per named update of the state, so that no proof unfolds a record update. -/

namespace Sys2Proof.Machine

/-! ## `complete`: a command completes (spec/10_state.md R34, R52) -/

@[simp] theorem State.complete_phase (s : State) (c : Completion) : (s.complete c).phase = .idle := rfl

@[simp] theorem State.complete_latch (s : State) (c : Completion) : (s.complete c).latch = s.latch := rfl

@[simp] theorem State.complete_err (s : State) (c : Completion) : (s.complete c).err = c.err := rfl

@[simp] theorem State.complete_grew (s : State) (c : Completion) : (s.complete c).grew = c.grew := rfl

@[simp] theorem State.complete_shrank (s : State) (c : Completion) : (s.complete c).shrank = c.shrank := rfl

@[simp] theorem State.complete_shrinkFail (s : State) (c : Completion) : (s.complete c).shrinkFail = c.shrinkFail := rfl

@[simp] theorem State.complete_busyViol (s : State) (c : Completion) : (s.complete c).busyViol = s.busyViol := rfl

@[simp] theorem State.complete_busErr (s : State) (c : Completion) : (s.complete c).busErr = s.busErr := rfl

@[simp] theorem State.complete_result (s : State) (c : Completion) : (s.complete c).result = c.result := rfl

@[simp] theorem State.complete_arg0 (s : State) (c : Completion) : (s.complete c).arg0 = s.arg0 := rfl

@[simp] theorem State.complete_arg1 (s : State) (c : Completion) : (s.complete c).arg1 = s.arg1 := rfl

@[simp] theorem State.complete_keyLen (s : State) (c : Completion) : (s.complete c).keyLen = s.keyLen := rfl

@[simp] theorem State.complete_key0 (s : State) (c : Completion) : (s.complete c).key0 = s.key0 := rfl

@[simp] theorem State.complete_key1 (s : State) (c : Completion) : (s.complete c).key1 = s.key1 := rfl

@[simp] theorem State.complete_key2 (s : State) (c : Completion) : (s.complete c).key2 = s.key2 := rfl

@[simp] theorem State.complete_key3 (s : State) (c : Completion) : (s.complete c).key3 = s.key3 := rfl

@[simp] theorem State.complete_key4 (s : State) (c : Completion) : (s.complete c).key4 = s.key4 := rfl

@[simp] theorem State.complete_tstate (s : State) (c : Completion) : (s.complete c).tstate = s.tstate := rfl

@[simp] theorem State.complete_tab (s : State) (c : Completion) : (s.complete c).tab = s.tab := rfl

@[simp] theorem State.complete_ref (s : State) (c : Completion) : (s.complete c).ref = s.ref := rfl

@[simp] theorem State.complete_iterActive (s : State) (c : Completion) : (s.complete c).iterActive = s.iterActive := rfl

@[simp] theorem State.complete_iterCursor (s : State) (c : Completion) : (s.complete c).iterCursor = s.iterCursor := rfl

@[simp] theorem State.complete_disp (s : State) (c : Completion) : (s.complete c).disp = s.disp := rfl

@[simp] theorem State.complete_env (s : State) (c : Completion) : (s.complete c).env = s.env := rfl

/-! ## `finish`: a command succeeds (spec/00_scope.md R14) -/

@[simp] theorem State.finish_phase (s : State) (w : Word) : (s.finish w).phase = .idle := rfl

@[simp] theorem State.finish_latch (s : State) (w : Word) : (s.finish w).latch = s.latch := rfl

@[simp] theorem State.finish_err (s : State) (w : Word) : (s.finish w).err = .ok := rfl

@[simp] theorem State.finish_grew (s : State) (w : Word) : (s.finish w).grew = false := rfl

@[simp] theorem State.finish_shrank (s : State) (w : Word) : (s.finish w).shrank = false := rfl

@[simp] theorem State.finish_shrinkFail (s : State) (w : Word) : (s.finish w).shrinkFail = false := rfl

@[simp] theorem State.finish_busyViol (s : State) (w : Word) : (s.finish w).busyViol = s.busyViol := rfl

@[simp] theorem State.finish_busErr (s : State) (w : Word) : (s.finish w).busErr = s.busErr := rfl

@[simp] theorem State.finish_result (s : State) (w : Word) : (s.finish w).result = w := rfl

@[simp] theorem State.finish_arg0 (s : State) (w : Word) : (s.finish w).arg0 = s.arg0 := rfl

@[simp] theorem State.finish_arg1 (s : State) (w : Word) : (s.finish w).arg1 = s.arg1 := rfl

@[simp] theorem State.finish_keyLen (s : State) (w : Word) : (s.finish w).keyLen = s.keyLen := rfl

@[simp] theorem State.finish_key0 (s : State) (w : Word) : (s.finish w).key0 = s.key0 := rfl

@[simp] theorem State.finish_key1 (s : State) (w : Word) : (s.finish w).key1 = s.key1 := rfl

@[simp] theorem State.finish_key2 (s : State) (w : Word) : (s.finish w).key2 = s.key2 := rfl

@[simp] theorem State.finish_key3 (s : State) (w : Word) : (s.finish w).key3 = s.key3 := rfl

@[simp] theorem State.finish_key4 (s : State) (w : Word) : (s.finish w).key4 = s.key4 := rfl

@[simp] theorem State.finish_tstate (s : State) (w : Word) : (s.finish w).tstate = s.tstate := rfl

@[simp] theorem State.finish_tab (s : State) (w : Word) : (s.finish w).tab = s.tab := rfl

@[simp] theorem State.finish_ref (s : State) (w : Word) : (s.finish w).ref = s.ref := rfl

@[simp] theorem State.finish_iterActive (s : State) (w : Word) : (s.finish w).iterActive = s.iterActive := rfl

@[simp] theorem State.finish_iterCursor (s : State) (w : Word) : (s.finish w).iterCursor = s.iterCursor := rfl

@[simp] theorem State.finish_disp (s : State) (w : Word) : (s.finish w).disp = s.disp := rfl

@[simp] theorem State.finish_env (s : State) (w : Word) : (s.finish w).env = s.env := rfl

/-! ## `raise`: a command fails (spec/00_scope.md R14) -/

@[simp] theorem State.raise_phase (s : State) (c : ErrCode) : (s.raise c).phase = .idle := rfl

@[simp] theorem State.raise_latch (s : State) (c : ErrCode) : (s.raise c).latch = s.latch := rfl

@[simp] theorem State.raise_err (s : State) (c : ErrCode) : (s.raise c).err = c := rfl

@[simp] theorem State.raise_grew (s : State) (c : ErrCode) : (s.raise c).grew = false := rfl

@[simp] theorem State.raise_shrank (s : State) (c : ErrCode) : (s.raise c).shrank = false := rfl

@[simp] theorem State.raise_shrinkFail (s : State) (c : ErrCode) : (s.raise c).shrinkFail = false := rfl

@[simp] theorem State.raise_busyViol (s : State) (c : ErrCode) : (s.raise c).busyViol = s.busyViol := rfl

@[simp] theorem State.raise_busErr (s : State) (c : ErrCode) : (s.raise c).busErr = s.busErr := rfl

@[simp] theorem State.raise_result (s : State) (c : ErrCode) : (s.raise c).result = 0#32 := rfl

@[simp] theorem State.raise_arg0 (s : State) (c : ErrCode) : (s.raise c).arg0 = s.arg0 := rfl

@[simp] theorem State.raise_arg1 (s : State) (c : ErrCode) : (s.raise c).arg1 = s.arg1 := rfl

@[simp] theorem State.raise_keyLen (s : State) (c : ErrCode) : (s.raise c).keyLen = s.keyLen := rfl

@[simp] theorem State.raise_key0 (s : State) (c : ErrCode) : (s.raise c).key0 = s.key0 := rfl

@[simp] theorem State.raise_key1 (s : State) (c : ErrCode) : (s.raise c).key1 = s.key1 := rfl

@[simp] theorem State.raise_key2 (s : State) (c : ErrCode) : (s.raise c).key2 = s.key2 := rfl

@[simp] theorem State.raise_key3 (s : State) (c : ErrCode) : (s.raise c).key3 = s.key3 := rfl

@[simp] theorem State.raise_key4 (s : State) (c : ErrCode) : (s.raise c).key4 = s.key4 := rfl

@[simp] theorem State.raise_tstate (s : State) (c : ErrCode) : (s.raise c).tstate = s.tstate := rfl

@[simp] theorem State.raise_tab (s : State) (c : ErrCode) : (s.raise c).tab = s.tab := rfl

@[simp] theorem State.raise_ref (s : State) (c : ErrCode) : (s.raise c).ref = s.ref := rfl

@[simp] theorem State.raise_iterActive (s : State) (c : ErrCode) : (s.raise c).iterActive = s.iterActive := rfl

@[simp] theorem State.raise_iterCursor (s : State) (c : ErrCode) : (s.raise c).iterCursor = s.iterCursor := rfl

@[simp] theorem State.raise_disp (s : State) (c : ErrCode) : (s.raise c).disp = s.disp := rfl

@[simp] theorem State.raise_env (s : State) (c : ErrCode) : (s.raise c).env = s.env := rfl

/-! ## `release`: the table is released (spec/42_table_commands.md R272) -/

@[simp] theorem State.release_phase (s : State) : s.release.phase = s.phase := rfl

@[simp] theorem State.release_latch (s : State) : s.release.latch = s.latch := rfl

@[simp] theorem State.release_err (s : State) : s.release.err = s.err := rfl

@[simp] theorem State.release_grew (s : State) : s.release.grew = s.grew := rfl

@[simp] theorem State.release_shrank (s : State) : s.release.shrank = s.shrank := rfl

@[simp] theorem State.release_shrinkFail (s : State) : s.release.shrinkFail = s.shrinkFail := rfl

@[simp] theorem State.release_busyViol (s : State) : s.release.busyViol = s.busyViol := rfl

@[simp] theorem State.release_busErr (s : State) : s.release.busErr = s.busErr := rfl

@[simp] theorem State.release_result (s : State) : s.release.result = s.result := rfl

@[simp] theorem State.release_arg0 (s : State) : s.release.arg0 = s.arg0 := rfl

@[simp] theorem State.release_arg1 (s : State) : s.release.arg1 = s.arg1 := rfl

@[simp] theorem State.release_keyLen (s : State) : s.release.keyLen = s.keyLen := rfl

@[simp] theorem State.release_key0 (s : State) : s.release.key0 = s.key0 := rfl

@[simp] theorem State.release_key1 (s : State) : s.release.key1 = s.key1 := rfl

@[simp] theorem State.release_key2 (s : State) : s.release.key2 = s.key2 := rfl

@[simp] theorem State.release_key3 (s : State) : s.release.key3 = s.key3 := rfl

@[simp] theorem State.release_key4 (s : State) : s.release.key4 = s.key4 := rfl

@[simp] theorem State.release_tstate (s : State) : s.release.tstate = .none := rfl

@[simp] theorem State.release_tab (s : State) : s.release.tab = Table.absent := rfl

@[simp] theorem State.release_ref (s : State) : s.release.ref = .none := rfl

@[simp] theorem State.release_iterActive (s : State) : s.release.iterActive = false := rfl

@[simp] theorem State.release_iterCursor (s : State) : s.release.iterCursor = s.iterCursor := rfl

@[simp] theorem State.release_disp (s : State) : s.release.disp = s.disp := rfl

@[simp] theorem State.release_env (s : State) : s.release.env = s.env := rfl

/-! ## `latchCommand`: a command is latched (spec/10_state.md R51) -/

@[simp] theorem State.latchCommand_phase (s : State) (w : Word) : (s.latchCommand w).phase = .busy := rfl

@[simp] theorem State.latchCommand_latch (s : State) (w : Word) : (s.latchCommand w).latch = ⟨w, s.arg0, s.arg1, s.keyLen, s.keyBuf⟩ := rfl

@[simp] theorem State.latchCommand_err (s : State) (w : Word) : (s.latchCommand w).err = s.err := rfl

@[simp] theorem State.latchCommand_grew (s : State) (w : Word) : (s.latchCommand w).grew = s.grew := rfl

@[simp] theorem State.latchCommand_shrank (s : State) (w : Word) : (s.latchCommand w).shrank = s.shrank := rfl

@[simp] theorem State.latchCommand_shrinkFail (s : State) (w : Word) : (s.latchCommand w).shrinkFail = s.shrinkFail := rfl

@[simp] theorem State.latchCommand_busyViol (s : State) (w : Word) : (s.latchCommand w).busyViol = s.busyViol := rfl

@[simp] theorem State.latchCommand_busErr (s : State) (w : Word) : (s.latchCommand w).busErr = s.busErr := rfl

@[simp] theorem State.latchCommand_result (s : State) (w : Word) : (s.latchCommand w).result = s.result := rfl

@[simp] theorem State.latchCommand_arg0 (s : State) (w : Word) : (s.latchCommand w).arg0 = s.arg0 := rfl

@[simp] theorem State.latchCommand_arg1 (s : State) (w : Word) : (s.latchCommand w).arg1 = s.arg1 := rfl

@[simp] theorem State.latchCommand_keyLen (s : State) (w : Word) : (s.latchCommand w).keyLen = s.keyLen := rfl

@[simp] theorem State.latchCommand_key0 (s : State) (w : Word) : (s.latchCommand w).key0 = s.key0 := rfl

@[simp] theorem State.latchCommand_key1 (s : State) (w : Word) : (s.latchCommand w).key1 = s.key1 := rfl

@[simp] theorem State.latchCommand_key2 (s : State) (w : Word) : (s.latchCommand w).key2 = s.key2 := rfl

@[simp] theorem State.latchCommand_key3 (s : State) (w : Word) : (s.latchCommand w).key3 = s.key3 := rfl

@[simp] theorem State.latchCommand_key4 (s : State) (w : Word) : (s.latchCommand w).key4 = s.key4 := rfl

@[simp] theorem State.latchCommand_tstate (s : State) (w : Word) : (s.latchCommand w).tstate = s.tstate := rfl

@[simp] theorem State.latchCommand_tab (s : State) (w : Word) : (s.latchCommand w).tab = s.tab := rfl

@[simp] theorem State.latchCommand_ref (s : State) (w : Word) : (s.latchCommand w).ref = s.ref := rfl

@[simp] theorem State.latchCommand_iterActive (s : State) (w : Word) : (s.latchCommand w).iterActive = s.iterActive := rfl

@[simp] theorem State.latchCommand_iterCursor (s : State) (w : Word) : (s.latchCommand w).iterCursor = s.iterCursor := rfl

@[simp] theorem State.latchCommand_disp (s : State) (w : Word) : (s.latchCommand w).disp = s.disp := rfl

@[simp] theorem State.latchCommand_env (s : State) (w : Word) : (s.latchCommand w).env = s.env := rfl

/-! ## `clearSticky`: a STATUS write (spec/10_state.md R35) -/

@[simp] theorem State.clearSticky_phase (s : State) (w : Word) : (s.clearSticky w).phase = s.phase := rfl

@[simp] theorem State.clearSticky_latch (s : State) (w : Word) : (s.clearSticky w).latch = s.latch := rfl

@[simp] theorem State.clearSticky_err (s : State) (w : Word) : (s.clearSticky w).err = s.err := rfl

@[simp] theorem State.clearSticky_grew (s : State) (w : Word) : (s.clearSticky w).grew = s.grew := rfl

@[simp] theorem State.clearSticky_shrank (s : State) (w : Word) : (s.clearSticky w).shrank = s.shrank := rfl

@[simp] theorem State.clearSticky_shrinkFail (s : State) (w : Word) : (s.clearSticky w).shrinkFail = s.shrinkFail := rfl

@[simp] theorem State.clearSticky_busyViol (s : State) (w : Word) : (s.clearSticky w).busyViol = (s.busyViol && !w.getLsbD 8) := rfl

@[simp] theorem State.clearSticky_busErr (s : State) (w : Word) : (s.clearSticky w).busErr = (s.busErr && !w.getLsbD 9) := rfl

@[simp] theorem State.clearSticky_result (s : State) (w : Word) : (s.clearSticky w).result = s.result := rfl

@[simp] theorem State.clearSticky_arg0 (s : State) (w : Word) : (s.clearSticky w).arg0 = s.arg0 := rfl

@[simp] theorem State.clearSticky_arg1 (s : State) (w : Word) : (s.clearSticky w).arg1 = s.arg1 := rfl

@[simp] theorem State.clearSticky_keyLen (s : State) (w : Word) : (s.clearSticky w).keyLen = s.keyLen := rfl

@[simp] theorem State.clearSticky_key0 (s : State) (w : Word) : (s.clearSticky w).key0 = s.key0 := rfl

@[simp] theorem State.clearSticky_key1 (s : State) (w : Word) : (s.clearSticky w).key1 = s.key1 := rfl

@[simp] theorem State.clearSticky_key2 (s : State) (w : Word) : (s.clearSticky w).key2 = s.key2 := rfl

@[simp] theorem State.clearSticky_key3 (s : State) (w : Word) : (s.clearSticky w).key3 = s.key3 := rfl

@[simp] theorem State.clearSticky_key4 (s : State) (w : Word) : (s.clearSticky w).key4 = s.key4 := rfl

@[simp] theorem State.clearSticky_tstate (s : State) (w : Word) : (s.clearSticky w).tstate = s.tstate := rfl

@[simp] theorem State.clearSticky_tab (s : State) (w : Word) : (s.clearSticky w).tab = s.tab := rfl

@[simp] theorem State.clearSticky_ref (s : State) (w : Word) : (s.clearSticky w).ref = s.ref := rfl

@[simp] theorem State.clearSticky_iterActive (s : State) (w : Word) : (s.clearSticky w).iterActive = s.iterActive := rfl

@[simp] theorem State.clearSticky_iterCursor (s : State) (w : Word) : (s.clearSticky w).iterCursor = s.iterCursor := rfl

@[simp] theorem State.clearSticky_disp (s : State) (w : Word) : (s.clearSticky w).disp = s.disp := rfl

@[simp] theorem State.clearSticky_env (s : State) (w : Word) : (s.clearSticky w).env = s.env := rfl

/-! ## `returns`: a read returns -/

@[simp] theorem State.returns_phase (s : State) (w : Word) : (s.returns w).phase = s.phase := rfl

@[simp] theorem State.returns_latch (s : State) (w : Word) : (s.returns w).latch = s.latch := rfl

@[simp] theorem State.returns_err (s : State) (w : Word) : (s.returns w).err = s.err := rfl

@[simp] theorem State.returns_grew (s : State) (w : Word) : (s.returns w).grew = s.grew := rfl

@[simp] theorem State.returns_shrank (s : State) (w : Word) : (s.returns w).shrank = s.shrank := rfl

@[simp] theorem State.returns_shrinkFail (s : State) (w : Word) : (s.returns w).shrinkFail = s.shrinkFail := rfl

@[simp] theorem State.returns_busyViol (s : State) (w : Word) : (s.returns w).busyViol = s.busyViol := rfl

@[simp] theorem State.returns_busErr (s : State) (w : Word) : (s.returns w).busErr = s.busErr := rfl

@[simp] theorem State.returns_result (s : State) (w : Word) : (s.returns w).result = s.result := rfl

@[simp] theorem State.returns_arg0 (s : State) (w : Word) : (s.returns w).arg0 = s.arg0 := rfl

@[simp] theorem State.returns_arg1 (s : State) (w : Word) : (s.returns w).arg1 = s.arg1 := rfl

@[simp] theorem State.returns_keyLen (s : State) (w : Word) : (s.returns w).keyLen = s.keyLen := rfl

@[simp] theorem State.returns_key0 (s : State) (w : Word) : (s.returns w).key0 = s.key0 := rfl

@[simp] theorem State.returns_key1 (s : State) (w : Word) : (s.returns w).key1 = s.key1 := rfl

@[simp] theorem State.returns_key2 (s : State) (w : Word) : (s.returns w).key2 = s.key2 := rfl

@[simp] theorem State.returns_key3 (s : State) (w : Word) : (s.returns w).key3 = s.key3 := rfl

@[simp] theorem State.returns_key4 (s : State) (w : Word) : (s.returns w).key4 = s.key4 := rfl

@[simp] theorem State.returns_tstate (s : State) (w : Word) : (s.returns w).tstate = s.tstate := rfl

@[simp] theorem State.returns_tab (s : State) (w : Word) : (s.returns w).tab = s.tab := rfl

@[simp] theorem State.returns_ref (s : State) (w : Word) : (s.returns w).ref = s.ref := rfl

@[simp] theorem State.returns_iterActive (s : State) (w : Word) : (s.returns w).iterActive = s.iterActive := rfl

@[simp] theorem State.returns_iterCursor (s : State) (w : Word) : (s.returns w).iterCursor = s.iterCursor := rfl

@[simp] theorem State.returns_disp (s : State) (w : Word) : (s.returns w).disp = s.disp := rfl

@[simp] theorem State.returns_env (s : State) (w : Word) : (s.returns w).env = { s.env with readData := w } := rfl

/-! ## `refuse`: an access is refused (spec/20_memory.md R82) -/

@[simp] theorem State.refuse_phase (s : State) : s.refuse.phase = s.phase := rfl

@[simp] theorem State.refuse_latch (s : State) : s.refuse.latch = s.latch := rfl

@[simp] theorem State.refuse_err (s : State) : s.refuse.err = s.err := rfl

@[simp] theorem State.refuse_grew (s : State) : s.refuse.grew = s.grew := rfl

@[simp] theorem State.refuse_shrank (s : State) : s.refuse.shrank = s.shrank := rfl

@[simp] theorem State.refuse_shrinkFail (s : State) : s.refuse.shrinkFail = s.shrinkFail := rfl

@[simp] theorem State.refuse_busyViol (s : State) : s.refuse.busyViol = s.busyViol := rfl

@[simp] theorem State.refuse_busErr (s : State) : s.refuse.busErr = true := rfl

@[simp] theorem State.refuse_result (s : State) : s.refuse.result = s.result := rfl

@[simp] theorem State.refuse_arg0 (s : State) : s.refuse.arg0 = s.arg0 := rfl

@[simp] theorem State.refuse_arg1 (s : State) : s.refuse.arg1 = s.arg1 := rfl

@[simp] theorem State.refuse_keyLen (s : State) : s.refuse.keyLen = s.keyLen := rfl

@[simp] theorem State.refuse_key0 (s : State) : s.refuse.key0 = s.key0 := rfl

@[simp] theorem State.refuse_key1 (s : State) : s.refuse.key1 = s.key1 := rfl

@[simp] theorem State.refuse_key2 (s : State) : s.refuse.key2 = s.key2 := rfl

@[simp] theorem State.refuse_key3 (s : State) : s.refuse.key3 = s.key3 := rfl

@[simp] theorem State.refuse_key4 (s : State) : s.refuse.key4 = s.key4 := rfl

@[simp] theorem State.refuse_tstate (s : State) : s.refuse.tstate = s.tstate := rfl

@[simp] theorem State.refuse_tab (s : State) : s.refuse.tab = s.tab := rfl

@[simp] theorem State.refuse_ref (s : State) : s.refuse.ref = s.ref := rfl

@[simp] theorem State.refuse_iterActive (s : State) : s.refuse.iterActive = s.iterActive := rfl

@[simp] theorem State.refuse_iterCursor (s : State) : s.refuse.iterCursor = s.iterCursor := rfl

@[simp] theorem State.refuse_disp (s : State) : s.refuse.disp = s.disp := rfl

@[simp] theorem State.refuse_env (s : State) : s.refuse.env = s.env := rfl

/-! ## `endReferences`: references and the iteration end (spec/43_map_commands.md R299) -/

@[simp] theorem State.endReferences_phase (s : State) : s.endReferences.phase = s.phase := rfl

@[simp] theorem State.endReferences_latch (s : State) : s.endReferences.latch = s.latch := rfl

@[simp] theorem State.endReferences_err (s : State) : s.endReferences.err = s.err := rfl

@[simp] theorem State.endReferences_grew (s : State) : s.endReferences.grew = s.grew := rfl

@[simp] theorem State.endReferences_shrank (s : State) : s.endReferences.shrank = s.shrank := rfl

@[simp] theorem State.endReferences_shrinkFail (s : State) : s.endReferences.shrinkFail = s.shrinkFail := rfl

@[simp] theorem State.endReferences_busyViol (s : State) : s.endReferences.busyViol = s.busyViol := rfl

@[simp] theorem State.endReferences_busErr (s : State) : s.endReferences.busErr = s.busErr := rfl

@[simp] theorem State.endReferences_result (s : State) : s.endReferences.result = s.result := rfl

@[simp] theorem State.endReferences_arg0 (s : State) : s.endReferences.arg0 = s.arg0 := rfl

@[simp] theorem State.endReferences_arg1 (s : State) : s.endReferences.arg1 = s.arg1 := rfl

@[simp] theorem State.endReferences_keyLen (s : State) : s.endReferences.keyLen = s.keyLen := rfl

@[simp] theorem State.endReferences_key0 (s : State) : s.endReferences.key0 = s.key0 := rfl

@[simp] theorem State.endReferences_key1 (s : State) : s.endReferences.key1 = s.key1 := rfl

@[simp] theorem State.endReferences_key2 (s : State) : s.endReferences.key2 = s.key2 := rfl

@[simp] theorem State.endReferences_key3 (s : State) : s.endReferences.key3 = s.key3 := rfl

@[simp] theorem State.endReferences_key4 (s : State) : s.endReferences.key4 = s.key4 := rfl

@[simp] theorem State.endReferences_tstate (s : State) : s.endReferences.tstate = s.tstate := rfl

@[simp] theorem State.endReferences_tab (s : State) : s.endReferences.tab = s.tab := rfl

@[simp] theorem State.endReferences_ref (s : State) : s.endReferences.ref = .none := rfl

@[simp] theorem State.endReferences_iterActive (s : State) : s.endReferences.iterActive = false := rfl

@[simp] theorem State.endReferences_iterCursor (s : State) : s.endReferences.iterCursor = s.iterCursor := rfl

@[simp] theorem State.endReferences_disp (s : State) : s.endReferences.disp = s.disp := rfl

@[simp] theorem State.endReferences_env (s : State) : s.endReferences.env = s.env := rfl

/-! ## `popEvent`: an event is taken -/

@[simp] theorem State.popEvent_phase (s : State) : s.popEvent.phase = s.phase := rfl

@[simp] theorem State.popEvent_latch (s : State) : s.popEvent.latch = s.latch := rfl

@[simp] theorem State.popEvent_err (s : State) : s.popEvent.err = s.err := rfl

@[simp] theorem State.popEvent_grew (s : State) : s.popEvent.grew = s.grew := rfl

@[simp] theorem State.popEvent_shrank (s : State) : s.popEvent.shrank = s.shrank := rfl

@[simp] theorem State.popEvent_shrinkFail (s : State) : s.popEvent.shrinkFail = s.shrinkFail := rfl

@[simp] theorem State.popEvent_busyViol (s : State) : s.popEvent.busyViol = s.busyViol := rfl

@[simp] theorem State.popEvent_busErr (s : State) : s.popEvent.busErr = s.busErr := rfl

@[simp] theorem State.popEvent_result (s : State) : s.popEvent.result = s.result := rfl

@[simp] theorem State.popEvent_arg0 (s : State) : s.popEvent.arg0 = s.arg0 := rfl

@[simp] theorem State.popEvent_arg1 (s : State) : s.popEvent.arg1 = s.arg1 := rfl

@[simp] theorem State.popEvent_keyLen (s : State) : s.popEvent.keyLen = s.keyLen := rfl

@[simp] theorem State.popEvent_key0 (s : State) : s.popEvent.key0 = s.key0 := rfl

@[simp] theorem State.popEvent_key1 (s : State) : s.popEvent.key1 = s.key1 := rfl

@[simp] theorem State.popEvent_key2 (s : State) : s.popEvent.key2 = s.key2 := rfl

@[simp] theorem State.popEvent_key3 (s : State) : s.popEvent.key3 = s.key3 := rfl

@[simp] theorem State.popEvent_key4 (s : State) : s.popEvent.key4 = s.key4 := rfl

@[simp] theorem State.popEvent_tstate (s : State) : s.popEvent.tstate = s.tstate := rfl

@[simp] theorem State.popEvent_tab (s : State) : s.popEvent.tab = s.tab := rfl

@[simp] theorem State.popEvent_ref (s : State) : s.popEvent.ref = s.ref := rfl

@[simp] theorem State.popEvent_iterActive (s : State) : s.popEvent.iterActive = s.iterActive := rfl

@[simp] theorem State.popEvent_iterCursor (s : State) : s.popEvent.iterCursor = s.iterCursor := rfl

@[simp] theorem State.popEvent_disp (s : State) : s.popEvent.disp = s.disp := rfl

@[simp] theorem State.popEvent_env (s : State) : s.popEvent.env = { s.env with events := s.env.events.tail } := rfl

/-! ## `pushEvent`: an event is put first -/

@[simp] theorem State.pushEvent_phase (s : State) (e : Event) : (s.pushEvent e).phase = s.phase := rfl

@[simp] theorem State.pushEvent_latch (s : State) (e : Event) : (s.pushEvent e).latch = s.latch := rfl

@[simp] theorem State.pushEvent_err (s : State) (e : Event) : (s.pushEvent e).err = s.err := rfl

@[simp] theorem State.pushEvent_grew (s : State) (e : Event) : (s.pushEvent e).grew = s.grew := rfl

@[simp] theorem State.pushEvent_shrank (s : State) (e : Event) : (s.pushEvent e).shrank = s.shrank := rfl

@[simp] theorem State.pushEvent_shrinkFail (s : State) (e : Event) : (s.pushEvent e).shrinkFail = s.shrinkFail := rfl

@[simp] theorem State.pushEvent_busyViol (s : State) (e : Event) : (s.pushEvent e).busyViol = s.busyViol := rfl

@[simp] theorem State.pushEvent_busErr (s : State) (e : Event) : (s.pushEvent e).busErr = s.busErr := rfl

@[simp] theorem State.pushEvent_result (s : State) (e : Event) : (s.pushEvent e).result = s.result := rfl

@[simp] theorem State.pushEvent_arg0 (s : State) (e : Event) : (s.pushEvent e).arg0 = s.arg0 := rfl

@[simp] theorem State.pushEvent_arg1 (s : State) (e : Event) : (s.pushEvent e).arg1 = s.arg1 := rfl

@[simp] theorem State.pushEvent_keyLen (s : State) (e : Event) : (s.pushEvent e).keyLen = s.keyLen := rfl

@[simp] theorem State.pushEvent_key0 (s : State) (e : Event) : (s.pushEvent e).key0 = s.key0 := rfl

@[simp] theorem State.pushEvent_key1 (s : State) (e : Event) : (s.pushEvent e).key1 = s.key1 := rfl

@[simp] theorem State.pushEvent_key2 (s : State) (e : Event) : (s.pushEvent e).key2 = s.key2 := rfl

@[simp] theorem State.pushEvent_key3 (s : State) (e : Event) : (s.pushEvent e).key3 = s.key3 := rfl

@[simp] theorem State.pushEvent_key4 (s : State) (e : Event) : (s.pushEvent e).key4 = s.key4 := rfl

@[simp] theorem State.pushEvent_tstate (s : State) (e : Event) : (s.pushEvent e).tstate = s.tstate := rfl

@[simp] theorem State.pushEvent_tab (s : State) (e : Event) : (s.pushEvent e).tab = s.tab := rfl

@[simp] theorem State.pushEvent_ref (s : State) (e : Event) : (s.pushEvent e).ref = s.ref := rfl

@[simp] theorem State.pushEvent_iterActive (s : State) (e : Event) : (s.pushEvent e).iterActive = s.iterActive := rfl

@[simp] theorem State.pushEvent_iterCursor (s : State) (e : Event) : (s.pushEvent e).iterCursor = s.iterCursor := rfl

@[simp] theorem State.pushEvent_disp (s : State) (e : Event) : (s.pushEvent e).disp = s.disp := rfl

@[simp] theorem State.pushEvent_env (s : State) (e : Event) : (s.pushEvent e).env = { s.env with events := e :: s.env.events } := rfl

/-! ## `onReset`: reset (spec/70_reset_and_hazards.md R450) -/

@[simp] theorem State.onReset_phase (s : State) : s.onReset.phase = State.reset.phase := rfl

@[simp] theorem State.onReset_latch (s : State) : s.onReset.latch = State.reset.latch := rfl

@[simp] theorem State.onReset_err (s : State) : s.onReset.err = State.reset.err := rfl

@[simp] theorem State.onReset_grew (s : State) : s.onReset.grew = State.reset.grew := rfl

@[simp] theorem State.onReset_shrank (s : State) : s.onReset.shrank = State.reset.shrank := rfl

@[simp] theorem State.onReset_shrinkFail (s : State) : s.onReset.shrinkFail = State.reset.shrinkFail := rfl

@[simp] theorem State.onReset_busyViol (s : State) : s.onReset.busyViol = State.reset.busyViol := rfl

@[simp] theorem State.onReset_busErr (s : State) : s.onReset.busErr = State.reset.busErr := rfl

@[simp] theorem State.onReset_result (s : State) : s.onReset.result = State.reset.result := rfl

@[simp] theorem State.onReset_arg0 (s : State) : s.onReset.arg0 = State.reset.arg0 := rfl

@[simp] theorem State.onReset_arg1 (s : State) : s.onReset.arg1 = State.reset.arg1 := rfl

@[simp] theorem State.onReset_keyLen (s : State) : s.onReset.keyLen = State.reset.keyLen := rfl

@[simp] theorem State.onReset_key0 (s : State) : s.onReset.key0 = State.reset.key0 := rfl

@[simp] theorem State.onReset_key1 (s : State) : s.onReset.key1 = State.reset.key1 := rfl

@[simp] theorem State.onReset_key2 (s : State) : s.onReset.key2 = State.reset.key2 := rfl

@[simp] theorem State.onReset_key3 (s : State) : s.onReset.key3 = State.reset.key3 := rfl

@[simp] theorem State.onReset_key4 (s : State) : s.onReset.key4 = State.reset.key4 := rfl

@[simp] theorem State.onReset_tstate (s : State) : s.onReset.tstate = State.reset.tstate := rfl

@[simp] theorem State.onReset_tab (s : State) : s.onReset.tab = State.reset.tab := rfl

@[simp] theorem State.onReset_ref (s : State) : s.onReset.ref = State.reset.ref := rfl

@[simp] theorem State.onReset_iterActive (s : State) : s.onReset.iterActive = State.reset.iterActive := rfl

@[simp] theorem State.onReset_iterCursor (s : State) : s.onReset.iterCursor = State.reset.iterCursor := rfl

@[simp] theorem State.onReset_disp (s : State) : s.onReset.disp = State.reset.disp := rfl

@[simp] theorem State.onReset_env (s : State) : s.onReset.env = s.env := rfl

/-! ## Two updates in a row -/

@[simp] theorem State.complete_complete (s : State) (c c' : Completion) : (s.complete c).complete c' = s.complete c' :=
  rfl

@[simp] theorem State.popEvent_pushEvent (s : State) (e : Event) : (s.pushEvent e).popEvent = s := rfl

/-- The step at a state that `issue` made: the command runs on the state with that command latched. -/
theorem step_issue (s : State) (w : Word) : step (s.issue w) = (s.latchCommand w).executeLatched := rfl

/-- The step at a state that `withFetchWord` made. -/
theorem step_withFetchWord (s : State) (nbits w : Nat) :
    step (s.withFetchWord nbits w) = (s.latchCommand (BitVec.ofNat 32 (w % 2 ^ nbits))).executeLatched := rfl

end Sys2Proof.Machine
end

