-- ==== Sys2Proof/Laws/Commands.lean ====
section
/-! SUPPORT. One lemma per shared operation of the commands and of the step that says everything it can answer. -/

namespace Sys2Proof.Machine

/-! ## The key operand (spec/43_map_commands.md R298, spec/40_metadata_codec.md R169) -/

/-- Everything GetKey can answer. -/
theorem getKey_cases (s : State) (k : Bool) :
    (k = false ∧ s.getKey k = .error .keyAbsent) ∨
    (k = true ∧ (s.latch.keyLen.toNat = 0 ∨ s.latch.keyLen.toNat > Config.keyMax ∨
      0#8 ∈ keyPrefix s.latch.key s.latch.keyLen.toNat) ∧ s.getKey k = .error .keyInvalid) ∨
    (k = true ∧ 1 ≤ s.latch.keyLen.toNat ∧ s.latch.keyLen.toNat ≤ Config.keyMax ∧
      0#8 ∉ keyPrefix s.latch.key s.latch.keyLen.toNat ∧
      s.getKey k = .ok ⟨normalKey (keyPrefix s.latch.key s.latch.keyLen.toNat),
        s.truncHash (keyPrefix s.latch.key s.latch.keyLen.toNat)⟩) := by
  cases k with
  | false => exact .inl ⟨rfl, rfl⟩
  | true =>
    refine .inr ?_
    unfold State.getKey keyCheck
    by_cases h0 : s.latch.keyLen.toNat = 0
    · exact .inl ⟨rfl, .inl h0, by simp [h0]⟩
    by_cases h1 : s.latch.keyLen.toNat > Config.keyMax
    · exact .inl ⟨rfl, .inr (.inl h1), by simp [h0, h1]⟩
    by_cases h2 : 0#8 ∈ keyPrefix s.latch.key s.latch.keyLen.toNat
    · have h3 : (keyPrefix s.latch.key s.latch.keyLen.toNat).any (· == 0#8) = true :=
        List.any_eq_true.mpr ⟨_, h2, by simp⟩
      exact .inl ⟨rfl, .inr (.inr h2), by simp [h0, h1, h3]⟩
    · have h3 : (keyPrefix s.latch.key s.latch.keyLen.toNat).any (· == 0#8) = false := by
        rw [Bool.eq_false_iff]
        intro h
        obtain ⟨b, hb, he⟩ := List.any_eq_true.mp h
        exact h2 (by rwa [eq_of_beq he] at hb)
      exact .inr ⟨rfl, by omega, by omega, h2, by simp [h0, h1, h3]⟩

@[simp] theorem keyPrefix_length (key : KeyBuf) (len : Nat) : (keyPrefix key len).length = len := by simp [keyPrefix]

/-! ## Creation (spec/42_table_commands.md R250, R252) -/

/-- What a search for an exponent finds: the least of its range that fits, or that none does. -/
theorem expSearch_cases (size n e : Nat) :
    (∃ f, expSearch size n e = some f ∧ e ≤ f ∧ f < e + n ∧ size ≤ 2 ^ f ∧ ∀ x, e ≤ x → x < f → 2 ^ x < size) ∨
    (expSearch size n e = none ∧ ∀ x, e ≤ x → x < e + n → 2 ^ x < size) := by
  induction n generalizing e with
  | zero => exact .inr ⟨rfl, fun x h1 h2 => by omega⟩
  | succ n ih =>
    simp only [expSearch]
    split_ifs with h
    · exact .inl ⟨e, rfl, le_rfl, by omega, h, fun x h1 h2 => by omega⟩
    · rcases ih (e + 1) with ⟨f, h1, h2, h3, h4, h5⟩ | ⟨h1, h2⟩
      · refine .inl ⟨f, h1, by omega, by omega, h4, fun x hx hx' => ?_⟩
        rcases Nat.eq_or_lt_of_le hx with rfl | hx
        · omega
        · exact h5 x hx hx'
      · refine .inr ⟨h1, fun x hx hx' => ?_⟩
        rcases Nat.eq_or_lt_of_le hx with rfl | hx
        · omega
        · exact h2 x hx (by omega)

/-- Everything a creation can answer. -/
theorem tableCreate_cases (s : State) (exp item : Nat) (z p : Bool) :
    ((exp < Config.minExp ∨ exp > Config.maxExp) ∧ s.tableCreate exp item z p = s.raise .capExp) ∨
    (Config.minExp ≤ exp ∧ exp ≤ Config.maxExp ∧
      ((slotBytes item > Config.maxSlotSize ∧ s.tableCreate exp item z p = s.raise .itemSize) ∨
        (slotBytes item ≤ Config.maxSlotSize ∧
          ((footprint (2 ^ exp) (slotBytes item) > s.env.memBytes ∧ s.tableCreate exp item z p = s.raise .alloc) ∨
            (footprint (2 ^ exp) (slotBytes item) ≤ s.env.memBytes ∧
              ((s.newSecret z = none ∧ s.tableCreate exp item z p = (s.secretDrawn z).raise .entropy) ∨
                ∃ sec, s.newSecret z = some sec ∧ s.tableCreate exp item z p = { s.secretDrawn z with
                  tstate := .ready
                  tab := newTable exp item p sec
                  ref := .none
                  iterActive := false }.finish (BitVec.ofNat 32 exp))))))) := by
  unfold State.tableCreate
  split_ifs with h1 h2 h3
  · exact .inl ⟨h1, rfl⟩
  · exact .inr ⟨by omega, by omega, .inl ⟨h2, rfl⟩⟩
  · exact .inr ⟨by omega, by omega, .inr ⟨by omega, .inl ⟨h3, rfl⟩⟩⟩
  · refine .inr ⟨by omega, by omega, .inr ⟨by omega, .inr ⟨by omega, ?_⟩⟩⟩
    cases hs : s.newSecret z with
    | none => exact .inl ⟨rfl, rfl⟩
    | some sec => exact .inr ⟨sec, rfl, rfl⟩

/-! ## Presenting entries (spec/44_iteration_commands.md R350, R352) -/

/-- What the search for the lowest taken slot from `lo` on finds. -/
theorem firstTaken_cases (t : Table) (lo : Nat) :
    (∃ j, t.firstTaken lo = some j ∧ lo ≤ j ∧ j < t.cap ∧ (t.slot j).taken = true ∧
      ∀ l, lo ≤ l → l < j → (t.slot l).taken = false) ∨
    (t.firstTaken lo = none ∧ ∀ l, lo ≤ l → l < t.cap → (t.slot l).taken = false) := by
  rcases takenFrom_cases t.geometry t.array (t.cap - lo) lo with ⟨j, h1, h2, h3, h4, h5⟩ | ⟨h1, h2⟩
  · exact .inl ⟨j, h1, h2, by omega, h4, h5⟩
  · exact .inr ⟨h1, fun l hl hl' => h2 l hl (by omega)⟩

/-- Everything a presentation can answer. -/
theorem present_cases (s : State) (lo : Nat) :
    (∃ j, s.tab.firstTaken lo = some j ∧
      s.present lo = { s with iterActive := true, iterCursor := j, ref := .slot j }.finish 0#32) ∨
    (s.tab.firstTaken lo = none ∧ s.present lo = { s with iterActive := false, ref := .none }.finish 1#32) := by
  unfold State.present
  cases s.tab.firstTaken lo with
  | none => exact .inr ⟨rfl, rfl⟩
  | some j => exact .inl ⟨j, rfl, rfl⟩

/-! ## INSERT after its checks (spec/43_map_commands.md R300) -/

/-- Everything the insertion can answer. -/
theorem insertInto_cases (s : State) (t : Table) (grew : Bool) (k : KeyOperand) :
    (∃ b, insertWalk t.geometry t.e.toNat t.array ⟨k.th, k.key, t.stage⟩ = .placed b ∧ s.insertInto t grew k =
      { s with tab := { t with array := b, occ := t.occ + 1#32 } }.complete { result := 1#32, grew := grew }) ∨
    (∃ b, insertWalk t.geometry t.e.toNat t.array ⟨k.th, k.key, t.stage⟩ = .replaced b ∧ s.insertInto t grew k =
      { s with tab := { t with array := b } }.complete { result := 2#32, grew := grew }) ∨
    (insertWalk t.geometry t.e.toNat t.array ⟨k.th, k.key, t.stage⟩ = .overflow ∧ s.insertInto t grew k =
      { s with tab := t }.complete { err := .pslOverflow, grew := grew }) := by
  unfold State.insertInto
  cases insertWalk t.geometry t.e.toNat t.array ⟨k.th, k.key, t.stage⟩ with
  | placed b => exact .inl ⟨b, rfl, rfl⟩
  | replaced b => exact .inr (.inl ⟨b, rfl, rfl⟩)
  | overflow => exact .inr (.inr ⟨rfl, rfl⟩)

/-! ## The step (spec/10_state.md R52, spec/20_memory.md R97, spec/70_reset_and_hazards.md R450) -/

/-- Everything the execution of a latched command can be. -/
theorem executeLatched_cases (s : State) :
    (∃ i, decode s.latch.word = .ok i ∧ s.executeLatched = exec i s) ∨
    (∃ r, decode s.latch.word = .error r ∧ s.executeLatched = .next (s.raise .illegalCmd)) := by
  unfold State.executeLatched
  cases h : decode s.latch.word with
  | ok i => exact .inl ⟨i, rfl, rfl⟩
  | error r => exact .inr ⟨r, rfl, rfl⟩

/-- Everything a step can be: the engine idle, the engine executing, a host access, or reset. `u` is the state with the
event taken. -/
theorem step_cases (s : State) :
    ∃ u : State, (u = s ∨ u = s.popEvent) ∧
      ((s.phase = .idle ∧ step s = .next u) ∨ (s.phase = .busy ∧ step s = u.executeLatched) ∨
        (∃ a, step s = .next (u.access a)) ∨ step s = .next u.onReset) := by
  unfold step
  split
  · refine ⟨s, .inl rfl, ?_⟩
    unfold State.engineTurn
    cases hp : s.phase with
    | idle => exact .inl ⟨rfl, rfl⟩
    | busy => exact .inr (.inl ⟨rfl, rfl⟩)
  · refine ⟨s.popEvent, .inr rfl, ?_⟩
    unfold State.engineTurn
    have hq : s.popEvent.phase = s.phase := rfl
    rw [hq]
    cases hp : s.phase with
    | idle => exact .inl ⟨rfl, rfl⟩
    | busy => exact .inr (.inl ⟨rfl, rfl⟩)
  · exact ⟨s.popEvent, .inr rfl, .inr (.inr (.inl ⟨_, rfl⟩))⟩
  · exact ⟨s.popEvent, .inr rfl, .inr (.inr (.inr rfl))⟩

end Sys2Proof.Machine
end

