-- ==== Sys2Proof/Laws/HostAccess.lean ====
section
/-! SUPPORT. The laws of host accesses: where the mapped registers are, and everything an access made while IDLE can do. -/

namespace Sys2Proof.Machine

/-- The mapped offsets are the multiples of 4 below `0x5C` (spec/20_memory.md R81). -/
theorem lookupReg_cases (off : Nat) :
    (∃ m r, m < 23 ∧ off = 4 * m ∧ lookupReg regMap off = some r) ∨
    ((∀ m, m < 23 → off ≠ 4 * m) ∧ lookupReg regMap off = none) := by
  by_cases h : ∃ m, m < 23 ∧ off = 4 * m
  · obtain ⟨m, hm, rfl⟩ := h
    refine .inl ⟨m, ?_⟩
    interval_cases m <;> simp [lookupReg, regMap]
  · simp only [not_exists, not_and] at h
    refine .inr ⟨h, ?_⟩
    simp only [regMap, lookupReg]
    have h0 := h 0; have h1 := h 1; have h2 := h 2; have h3 := h 3; have h4 := h 4; have h5 := h 5
    have h6 := h 6; have h7 := h 7; have h8 := h 8; have h9 := h 9; have h10 := h 10; have h11 := h 11
    have h12 := h 12; have h13 := h 13; have h14 := h 14; have h15 := h 15; have h16 := h 16; have h17 := h 17
    have h18 := h 18; have h19 := h 19; have h20 := h 20; have h21 := h 21; have h22 := h 22
    repeat rw [if_neg (by omega)]

/-- A REG access reaches a register iff it is 4 bytes wide at one of the mapped offsets (R82, R83). -/
theorem accessedReg_isSome (off : BitVec 32) (n : Nat) :
    (accessedReg off n).isSome = true ↔ n = 4 ∧ ∃ m, m < 23 ∧ off.toNat = 4 * m := by
  unfold accessedReg
  rcases lookupReg_cases off.toNat with ⟨m, r, hm, ho, hr⟩ | ⟨ho, hr⟩
  · split_ifs with h
    · exact ⟨fun _ => ⟨h.1, m, hm, ho⟩, fun _ => by rw [hr]; rfl⟩
    · exact ⟨fun hc => (by simp at hc), fun hc => absurd ⟨hc.1, by omega⟩ h⟩
  · split_ifs with h
    · rw [hr]
      exact ⟨fun hc => (by simp at hc), fun ⟨_, m, hm, hc⟩ => absurd hc (ho m hm)⟩
    · exact ⟨fun hc => (by simp at hc), fun ⟨_, m, hm, hc⟩ => absurd hc (ho m hm)⟩

/-- Everything a write of a register while IDLE can do: start a command, clear sticky bits, or store an operand. -/
theorem writeReg_cases (s : State) (w : Word) (r : Reg) :
    s.writeReg w r = s ∨ s.writeReg w r = s.latchCommand w ∨ s.writeReg w r = s.clearSticky w ∨
    s.writeReg w r = { s with
      arg0 := (s.writeReg w r).arg0, arg1 := (s.writeReg w r).arg1, keyLen := (s.writeReg w r).keyLen
      key0 := (s.writeReg w r).key0, key1 := (s.writeReg w r).key1, key2 := (s.writeReg w r).key2
      key3 := (s.writeReg w r).key3, key4 := (s.writeReg w r).key4 } := by
  cases r <;> simp [State.writeReg]

/-- Everything a write that is not refused can do while IDLE: write a register, the STAGE item, the item of the slot
that `ref` names, or the REMOVED item. -/
theorem writeValue_cases (s : State) (space : Space) (off : BitVec 32) (n : Nat) (v : Word)
    (h : s.refuses space off n = false) :
    (∃ r, space = .reg ∧ accessedReg off n = some r ∧ s.writeValue space off n v = s.writeReg v r) ∨
    (space = .stage ∧ s.tstate = .ready ∧ off.toNat + n ≤ s.tab.itemSize.toNat ∧ s.writeValue space off n v =
      { s with tab := { s.tab with scratch := s.tab.scratch.writeLE (s.stageBase + off.toNat) n v.toNat } }) ∨
    (∃ i, space = .ref ∧ s.ref = .slot i ∧ off.toNat + n ≤ s.tab.itemSize.toNat ∧ s.writeValue space off n v =
      { s with tab := { s.tab with
        array := s.tab.array.writeLE (s.tab.geometry.itemBase i + off.toNat) n v.toNat } }) ∨
    (space = .ref ∧ s.ref = .removed ∧ off.toNat + n ≤ s.tab.itemSize.toNat ∧ s.writeValue space off n v =
      { s with tab := { s.tab with
        scratch := s.tab.scratch.writeLE (s.tab.geometry.itemBase removedSlot + off.toNat) n v.toNat } }) := by
  cases space with
  | reg =>
    cases hr : accessedReg off n with
    | none => simp [State.refuses, hr] at h
    | some r => exact .inl ⟨r, rfl, rfl, by simp [State.writeValue, hr]⟩
  | stage =>
    simp only [State.refuses, State.stageOpen, State.insideItem, Bool.not_eq_false', Bool.and_eq_true,
      decide_eq_true_eq] at h
    exact .inr (.inl ⟨rfl, h.1, h.2.2, rfl⟩)
  | ref =>
    simp only [State.refuses, State.insideItem, Bool.not_eq_false', Bool.and_eq_true, decide_eq_true_eq] at h
    cases hr : s.ref with
    | none => simp [State.refRegion, hr] at h
    | slot i => exact .inr (.inr (.inl ⟨i, rfl, rfl, h.2.2, by simp [State.writeValue, State.refRegion, hr]⟩))
    | removed => exact .inr (.inr (.inr ⟨rfl, rfl, h.2.2, by simp [State.writeValue, State.refRegion, hr]⟩))
  | reserved => simp [State.refuses] at h

/-- Everything an access made while IDLE can do. -/
theorem accessIdle_cases (s : State) (a : Access) :
    (∃ w, s.accessIdle a = s.returns w) ∨ s.accessIdle a = s.refuse.returns 0#32 ∨ s.accessIdle a = s.refuse ∨
    ∃ space off n v, a = .write space off n v ∧ s.refuses space off n = false ∧
      s.accessIdle a = s.writeValue space off n v := by
  cases a with
  | read space off n =>
    simp only [State.accessIdle]
    split_ifs with h
    · exact .inr (.inl rfl)
    · exact .inl ⟨_, rfl⟩
  | write space off n v =>
    simp only [State.accessIdle]
    split_ifs with h
    · exact .inr (.inr (.inl rfl))
    · exact .inr (.inr (.inr ⟨space, off, n, v, rfl, by simpa using h, rfl⟩))

end Sys2Proof.Machine
end

