-- ==== Sys2Proof/Laws/PerInstr.lean ====
section
/-! SUPPORT. Statements made per instruction, one lemma per constructor. `MatchesRow`: an instruction is well-formed,
and its encoding selects a row of the table of spec/30_encoding.md R123 that gives the instruction back. -/

namespace Sys2Proof.Laws.MatchesRow

/-- The encoding of an instruction selects a row that gives it back. -/
def Statement (i : Instr) : Prop :=
  i.wellFormed = true ∧ ∃ r ∈ commandRows, r.matches (encode i) = true ∧ r.instr (encode i) = i

theorem init (z p : Bool) : Statement (.init z p) :=
  ⟨by cases z <;> cases p <;> decide, _, .head _, by cases z <;> cases p <;> decide, by cases z <;> cases p <;> decide⟩

theorem initSize (z p : Bool) : Statement (.initSize z p) :=
  ⟨by cases z <;> cases p <;> decide, _, .tail _ (.head _), by cases z <;> cases p <;> decide,
    by cases z <;> cases p <;> decide⟩

theorem insert (k d : Bool) : Statement (.insert k d) :=
  ⟨by cases k <;> cases d <;> decide, _, .tail _ (.tail _ (.head _)), by cases k <;> cases d <;> decide,
    by cases k <;> cases d <;> decide⟩

theorem get (k : Bool) : Statement (.get k) :=
  ⟨by cases k <;> decide, _, .tail _ (.tail _ (.tail _ (.head _))), by cases k <;> decide, by cases k <;> decide⟩

theorem remove (k : Bool) : Statement (.remove k) :=
  ⟨by cases k <;> decide, _, .tail _ (.tail _ (.tail _ (.tail _ (.head _)))), by cases k <;> decide,
    by cases k <;> decide⟩

theorem len : Statement .len := ⟨by decide, ⟨0x00000006#32, 0xFFFFFFFF#32, fun _ => .len⟩, by simp [commandRows], by decide, rfl⟩

theorem iterStart : Statement .iterStart :=
  ⟨by decide, ⟨0x00000007#32, 0xFFFFFFFF#32, fun _ => .iterStart⟩, by simp [commandRows], by decide, rfl⟩

theorem iterNext : Statement .iterNext :=
  ⟨by decide, ⟨0x00000008#32, 0xFFFFFFFF#32, fun _ => .iterNext⟩, by simp [commandRows], by decide, rfl⟩

theorem iterStop : Statement .iterStop :=
  ⟨by decide, ⟨0x00000009#32, 0xFFFFFFFF#32, fun _ => .iterStop⟩, by simp [commandRows], by decide, rfl⟩

theorem free : Statement .free :=
  ⟨by decide, ⟨0x0000000A#32, 0xFFFFFFFF#32, fun _ => .free⟩, by simp [commandRows], by decide, rfl⟩

theorem disposeAck : Statement .disposeAck :=
  ⟨by decide, ⟨0x0000000B#32, 0xFFFFFFFF#32, fun _ => .disposeAck⟩, by simp [commandRows], by decide, rfl⟩

theorem peek : Statement .peek :=
  ⟨by decide, ⟨0x0000000C#32, 0xFFFFFFFF#32, fun _ => .peek⟩, by simp [commandRows], by decide, rfl⟩

end Sys2Proof.Laws.MatchesRow
end

