-- ==== Sys2Proof/Laws/Probe.lean ====
section
/-! SUPPORT. The laws of the probe engine: index arithmetic, what each loop keeps, and one lemma per shared operation
that says everything it can answer. -/

namespace Sys2Proof.Machine

/-! ## Indices (spec/41_probe_engine.md R200, R201) -/

theorem home_eq (t : BitVec 20) (e : Nat) : home t e = t.toNat % 2 ^ e := Nat.and_two_pow_sub_one_eq_mod _ _

theorem nextIndex_eq (i e : Nat) : nextIndex i e = (i + 1) % 2 ^ e := Nat.and_two_pow_sub_one_eq_mod _ _

theorem home_lt (t : BitVec 20) (e : Nat) : home t e < 2 ^ e := by
  rw [home_eq]; exact Nat.mod_lt _ (Nat.two_pow_pos e)

theorem nextIndex_lt (i e : Nat) : nextIndex i e < 2 ^ e := by
  rw [nextIndex_eq]; exact Nat.mod_lt _ (Nat.two_pow_pos e)

/-- The index after `m` advances from the slot at distance `n` of `h`. -/
theorem nextIndex_add (h n e : Nat) : nextIndex ((h + n) % 2 ^ e) e = (h + (n + 1)) % 2 ^ e := by
  rw [nextIndex_eq, Nat.mod_add_mod, Nat.add_assoc]

/-! ## Extents -/

/-- Slots below `2^e` lie inside the array. -/
theorem Geometry.slotBase_extent (g : Geometry) {i n : Nat} (h : i < n) : g.slotBase i + g.slotSize ≤ n * g.slotSize :=
  g.slotBase_lt h

/-- A slot write inside the array lists no byte outside it. -/
theorem below_setSlot {g : Geometry} (hg : g.fits) {m : Memory} {i n : Nat} (hi : i < n)
    (hm : ∀ c ∈ m, c.1 < n * g.slotSize) (c : Slot) : ∀ d ∈ setSlot g m i c, d.1 < n * g.slotSize := by
  intro d hd
  rcases mem_setSlot hg hd with h | h
  · exact hm d h
  · have := g.slotBase_extent hi
    omega

theorem Candidate.toSlot_sane {g : Geometry} {c : Candidate} (hw : c.item.wf = true)
    (hb : ∀ d ∈ c.item, d.1 < g.itemSize) (n : Nat) : (c.toSlot n).Sane g := ⟨hw, hb⟩

/-! ## The insertion walk (R202) -/

/-- A property of arrays that a slot write inside the array keeps holds of the walk's answer. -/
theorem insertLoop_keeps {P : Memory → Prop} {g : Geometry} {e : Nat}
    (hP : ∀ m i c, P m → i < 2 ^ e → P (setSlot g m i c)) {bound : Nat} {b b' : Memory} {i d : Nat} {c : Candidate}
    (hi : i < 2 ^ e) (hb : P b)
    (h : insertLoop g e bound b i d c = .placed b' ∨ insertLoop g e bound b i d c = .replaced b') : P b' := by
  induction bound generalizing b i d c with
  | zero => simp [insertLoop] at h
  | succ bound ih =>
    simp only [insertLoop] at h
    split_ifs at h
    · simp only [WalkResult.placed.injEq, or_false] at h; exact h ▸ hP _ _ _ hb hi
    · simp only [WalkResult.replaced.injEq, false_or] at h; exact h ▸ hP _ _ _ hb hi
    · simp at h
    · exact ih (nextIndex_lt _ _) (hP _ _ _ hb hi) h
    · simp at h
    · exact ih (nextIndex_lt _ _) hb h

theorem wf_insertWalk {g : Geometry} {e : Nat} {a b : Memory} {c : Candidate} (ha : a.wf = true)
    (h : insertWalk g e a c = .placed b ∨ insertWalk g e a c = .replaced b) : b.wf = true :=
  insertLoop_keeps (P := fun m => m.wf = true) (fun _ _ _ hm _ => wf_setSlot hm _ _ _) (home_lt _ _) ha h

theorem below_insertWalk {g : Geometry} (hg : g.fits) {e : Nat} {a b : Memory} {c : Candidate}
    (ha : ∀ x ∈ a, x.1 < 2 ^ e * g.slotSize)
    (h : insertWalk g e a c = .placed b ∨ insertWalk g e a c = .replaced b) : ∀ x ∈ b, x.1 < 2 ^ e * g.slotSize :=
  insertLoop_keeps (P := fun m => ∀ x ∈ m, x.1 < 2 ^ e * g.slotSize) (fun _ _ _ hm hi => below_setSlot hg hi hm _)
    (home_lt _ _) ha h

/-- What one iteration does, the bound set aside. -/
theorem insertLoop_succ (g : Geometry) (e bound : Nat) (b : Memory) (i d : Nat) (c : Candidate) :
    insertLoop g e (bound + 1) b i d c =
      if (getSlot g b i).taken = false then .placed (setSlot g b i (c.toSlot d))
      else if (getSlot g b i).th = c.th ∧ (getSlot g b i).key = c.key then
        .replaced (setSlot g b i { getSlot g b i with item := c.item, psl := BitVec.ofNat 11 d })
      else if d > (getSlot g b i).psl.toNat then
        if (getSlot g b i).psl.toNat = Config.maxPsl then .overflow
        else insertLoop g e bound (setSlot g b i (c.toSlot d)) (nextIndex i e) ((getSlot g b i).psl.toNat + 1)
          (getSlot g b i).candidate
      else if d = Config.maxPsl then .overflow
      else insertLoop g e bound b (nextIndex i e) (d + 1) c := rfl

/-- In an array without an empty slot, with truncated hashes all different from each other and from the candidate's, the
walk overflows (R204). -/
theorem insertLoop_full {g : Geometry} (hg : g.fits) {e bound : Nat} {b : Memory} {i d : Nat} {c : Candidate}
    (hb : b.wf = true) (hi : i < 2 ^ e) (hc : (c.toSlot d).Sane g)
    (ht : ∀ j, j < 2 ^ e → (getSlot g b j).taken = true) (hn : ∀ j, j < 2 ^ e → (getSlot g b j).th ≠ c.th)
    (hu : ∀ j k, j < 2 ^ e → k < 2 ^ e → (getSlot g b j).th = (getSlot g b k).th → j = k) :
    insertLoop g e bound b i d c = .overflow := by
  induction bound generalizing b i d c with
  | zero => rfl
  | succ bound ih =>
    have same : getSlot g (setSlot g b i (c.toSlot d)) i = c.toSlot d := getSlot_setSlot_same hb i hc
    have other : ∀ j, j ≠ i → getSlot g (setSlot g b i (c.toSlot d)) j = getSlot g b j := fun j hj =>
      getSlot_setSlot_other hg hb (Ne.symm hj) _
    rw [insertLoop_succ, if_neg (by rw [ht i hi]; decide), if_neg fun h => hn i hi h.1]
    split_ifs
    · rfl
    · refine ih (wf_setSlot hb _ _ _) (nextIndex_lt _ _) ⟨(getSlot_sane hb g i).wf, (getSlot_sane hb g i).inside⟩ (fun j hj => ?_) (fun j hj => ?_)
        fun j k hj hk h => ?_
      · by_cases hji : j = i
        · rw [hji, same]; rfl
        · rw [other j hji]; exact ht j hj
      · by_cases hji : j = i
        · rw [hji, same]; exact Ne.symm (hn i hi)
        · rw [other j hji]; exact fun h => hji (hu j i hj hi h)
      · by_cases hji : j = i <;> by_cases hki : k = i
        · rw [hji, hki]
        · rw [hji, same, other k hki] at h; exact absurd h.symm (hn k hk)
        · rw [hki, same, other j hji] at h; exact absurd h (hn j hj)
        · rw [other j hji, other k hki] at h; exact hu j k hj hk h
    · rfl
    · exact ih hb (nextIndex_lt _ _) ⟨hc.wf, hc.inside⟩ ht hn hu

/-! ## The lookup walk (R207) -/

theorem findLoop_succ (g : Geometry) (e : Nat) (a : Memory) (k : KeyOperand) (bound i d : Nat) :
    findLoop g e a k (bound + 1) i d =
      if (getSlot g a i).taken = false then none
      else if (getSlot g a i).psl.toNat < d then none
      else if (getSlot g a i).th = k.th ∧ (getSlot g a i).key = k.key then some i
      else findLoop g e a k bound (nextIndex i e) (d + 1) := rfl

/-! ## The backward shift (R209) -/

theorem shiftLoop_succ (g : Geometry) (e bound : Nat) (a : Memory) (prev j : Nat) :
    shiftLoop g e (bound + 1) a prev j =
      if (getSlot g a j).taken = true ∧ (getSlot g a j).psl.toNat > 0 then
        shiftLoop g e bound
          (setSlot g a prev { getSlot g a j with psl := BitVec.ofNat 11 ((getSlot g a j).psl.toNat - 1) }) j
          (nextIndex j e)
      else setSlot g a prev Slot.empty := rfl

/-- A property of arrays that a slot write inside the array keeps holds of the shifted array. -/
theorem shiftLoop_keeps {P : Memory → Prop} {g : Geometry} {e : Nat}
    (hP : ∀ m i c, P m → i < 2 ^ e → P (setSlot g m i c)) {bound : Nat} {a : Memory} {prev j : Nat}
    (hp : prev < 2 ^ e) (hj : j < 2 ^ e) (ha : P a) : P (shiftLoop g e bound a prev j) := by
  induction bound generalizing a prev j with
  | zero => exact hP _ _ _ ha hp
  | succ bound ih =>
    rw [shiftLoop_succ]
    split_ifs
    · exact ih hj (nextIndex_lt _ _) (hP _ _ _ ha hp)
    · exact hP _ _ _ ha hp

theorem wf_backwardShift {g : Geometry} {e : Nat} {a : Memory} (ha : a.wf = true) (i : Nat) (hi : i < 2 ^ e) :
    (backwardShift g e a i).wf = true :=
  shiftLoop_keeps (P := fun m => m.wf = true) (fun _ _ _ hm _ => wf_setSlot hm _ _ _) hi (nextIndex_lt _ _) ha

theorem below_backwardShift {g : Geometry} (hg : g.fits) {e : Nat} {a : Memory}
    (ha : ∀ x ∈ a, x.1 < 2 ^ e * g.slotSize) {i : Nat} (hi : i < 2 ^ e) :
    ∀ x ∈ backwardShift g e a i, x.1 < 2 ^ e * g.slotSize :=
  shiftLoop_keeps (P := fun m => ∀ x ∈ m, x.1 < 2 ^ e * g.slotSize) (fun _ _ _ hm hi => below_setSlot hg hi hm _) hi
    (nextIndex_lt _ _) ha

/-! ## Resize and the arbiters (R211, R216, R217) -/

/-- A property of arrays that a slot write inside the new array keeps holds of the rebuilt array. -/
theorem reinsert_keeps {P : Memory → Prop} {g : Geometry} {a : Memory} {eNew : Nat}
    (hP : ∀ m i c, P m → i < 2 ^ eNew → P (setSlot g m i c)) {n i : Nat} {b b' : Memory} (hb : P b)
    (h : reinsert g a eNew n i b = some b') : P b' := by
  induction n generalizing i b with
  | zero => simp only [reinsert, Option.some.injEq] at h; exact h ▸ hb
  | succ n ih =>
    simp only [reinsert] at h
    split_ifs at h
    · split at h
      · rename_i hw; exact ih (insertLoop_keeps hP (home_lt _ _) hb (.inl hw)) h
      · rename_i hw; exact ih (insertLoop_keeps hP (home_lt _ _) hb (.inr hw)) h
      · simp at h
    · exact ih hb h

/-- A rebuild of a range cut in two. -/
theorem reinsert_add (g : Geometry) (a : Memory) (eNew n k i : Nat) (b : Memory) :
    reinsert g a eNew (n + k) i b = (reinsert g a eNew n i b).bind (reinsert g a eNew k (i + n)) := by
  induction n generalizing i b with
  | zero => simp [reinsert]
  | succ n ih =>
    rw [Nat.succ_add]
    simp only [reinsert, ih, Nat.add_assoc, Nat.add_comm 1 n]
    split
    · split <;> rfl
    · rfl

/-- One more slot reinserted (spec/41_probe_engine.md R211): an empty one leaves the new array, a taken one is walked
into it. -/
theorem reinsert_succ (g : Geometry) (a : Memory) (eNew n : Nat) (b : Memory) :
    reinsert g a eNew (n + 1) 0 b = (reinsert g a eNew n 0 b).bind fun m =>
      if (getSlot g a n).taken then
        match insertWalk g eNew m (getSlot g a n).candidate with
        | .placed m' => some m'
        | .replaced m' => some m'
        | .overflow => none
      else some m := by
  rw [reinsert_add, Nat.zero_add]
  cases reinsert g a eNew n 0 b with
  | none => simp only [Option.bind_none]
  | some m =>
    cases hw : insertWalk g eNew m (getSlot g a n).candidate <;> simp only [Option.bind_some, reinsert, hw]

/-- A reinsertion fails at the first slot whose walk overflows (R211, R213). -/
theorem reinsert_eq_none (g : Geometry) (a : Memory) (eNew n : Nat) (b : Memory) :
    reinsert g a eNew n 0 b = none ↔ ∃ i m, i < n ∧ (getSlot g a i).taken = true ∧
      reinsert g a eNew i 0 b = some m ∧ insertWalk g eNew m (getSlot g a i).candidate = .overflow := by
  induction n with
  | zero => simp [reinsert]
  | succ n ih =>
    rw [reinsert_succ]
    cases hr : reinsert g a eNew n 0 b with
    | none =>
      obtain ⟨i, m, hi, h⟩ := ih.mp hr
      exact ⟨fun _ => ⟨i, m, by omega, h⟩, fun _ => rfl⟩
    | some m =>
      have hn : ¬ ∃ i m, i < n ∧ (getSlot g a i).taken = true ∧
          reinsert g a eNew i 0 b = some m ∧ insertWalk g eNew m (getSlot g a i).candidate = .overflow :=
        fun h => by rw [ih.mpr h] at hr; cases hr
      simp only [Option.bind_some]
      constructor
      · intro h
        refine ⟨n, m, by omega, ?_, hr, ?_⟩
        · by_contra ht
          rw [if_neg ht] at h
          cases h
        · cases hw : insertWalk g eNew m (getSlot g a n).candidate <;> rw [hw] at h <;> split_ifs at h
      · rintro ⟨i, m', hi, ht, h, hw⟩
        rcases Nat.lt_or_ge i n with hlt | hge
        · exact absurd ⟨i, m', hlt, ht, h, hw⟩ hn
        · obtain rfl : i = n := by omega
          rw [hr] at h
          cases h
          rw [if_pos ht, hw]

/-- Everything a resize can answer. -/
theorem resize_cases (t : Table) (memBytes eNew : Nat) :
    (t.resize memBytes eNew = .failAlloc ∧
      memBytes < footprint t.cap t.slotSize.toNat + footprint (2 ^ eNew) t.slotSize.toNat) ∨
    (footprint t.cap t.slotSize.toNat + footprint (2 ^ eNew) t.slotSize.toNat ≤ memBytes ∧
      ((t.resize memBytes eNew = .failPsl ∧ reinsert t.geometry t.array eNew t.cap 0 [] = none) ∨
        ∃ b, t.resize memBytes eNew = .ok { t with array := b, e := BitVec.ofNat 5 eNew } ∧
          reinsert t.geometry t.array eNew t.cap 0 [] = some b)) := by
  unfold Table.resize
  split_ifs with h
  · exact .inl ⟨rfl, h⟩
  · refine .inr ⟨Nat.le_of_not_lt h, ?_⟩
    cases hr : reinsert t.geometry t.array eNew t.cap 0 [] with
    | none => exact .inl ⟨rfl, rfl⟩
    | some b => exact .inr ⟨b, rfl, rfl⟩

/-- Everything the grow arbiter can answer. -/
theorem growArbiter_cases (t : Table) (memBytes : Nat) :
    (growNeeded t.occ.toNat t.e.toNat = false ∧ t.growArbiter memBytes = .proceed t false) ∨
    (growNeeded t.occ.toNat t.e.toNat = true ∧
      ((t.e.toNat = Config.maxExp ∧ t.growArbiter memBytes = .fail .full) ∨
        (t.e.toNat ≠ Config.maxExp ∧
          ((∃ u, t.resize memBytes (t.e.toNat + 1) = .ok u ∧ t.growArbiter memBytes = .proceed u true) ∨
            (t.resize memBytes (t.e.toNat + 1) = .failAlloc ∧ t.growArbiter memBytes = .fail .resizeAlloc) ∨
            (t.resize memBytes (t.e.toNat + 1) = .failPsl ∧ t.growArbiter memBytes = .fail .resizePsl))))) := by
  unfold Table.growArbiter
  cases hg : growNeeded t.occ.toNat t.e.toNat with
  | false => exact .inl ⟨rfl, rfl⟩
  | true =>
    refine .inr ⟨rfl, ?_⟩
    by_cases he : t.e.toNat = Config.maxExp
    · exact .inl ⟨he, by simp [he]⟩
    · refine .inr ⟨he, ?_⟩
      cases hr : t.resize memBytes (t.e.toNat + 1) with
      | ok u => exact .inl ⟨u, rfl, by simp [he]⟩
      | failAlloc => exact .inr (.inl ⟨rfl, by simp [he]⟩)
      | failPsl => exact .inr (.inr ⟨rfl, by simp [he]⟩)

/-- Everything the shrink arbiter can leave. -/
theorem shrinkArbiter_cases (t : Table) (memBytes : Nat) :
    (¬(t.e.toNat > Config.minExp ∧ sparse t.occ.toNat t.e.toNat = true) ∧
      t.shrinkArbiter memBytes = ⟨t, false, false, .ok⟩) ∨
    ((t.e.toNat > Config.minExp ∧ sparse t.occ.toNat t.e.toNat = true) ∧
      ((∃ u, t.resize memBytes (shrinkExp t.occ.toNat t.e.toNat) = .ok u ∧
          t.shrinkArbiter memBytes = ⟨u, true, false, .ok⟩) ∨
        (t.resize memBytes (shrinkExp t.occ.toNat t.e.toNat) = .failAlloc ∧
          t.shrinkArbiter memBytes = ⟨t, false, true, .resizeAlloc⟩) ∨
        (t.resize memBytes (shrinkExp t.occ.toNat t.e.toNat) = .failPsl ∧
          t.shrinkArbiter memBytes = ⟨t, false, true, .resizePsl⟩))) := by
  unfold Table.shrinkArbiter
  by_cases h : t.e.toNat > Config.minExp ∧ sparse t.occ.toNat t.e.toNat = true
  · refine .inr ⟨h, ?_⟩
    rw [if_pos h]
    cases hr : t.resize memBytes (shrinkExp t.occ.toNat t.e.toNat) with
    | ok u => exact .inl ⟨u, rfl, rfl⟩
    | failAlloc => exact .inr (.inl ⟨rfl, rfl⟩)
    | failPsl => exact .inr (.inr ⟨rfl, rfl⟩)
  · exact .inl ⟨h, by rw [if_neg h]⟩

end Sys2Proof.Machine
end

