-- ==== Sys2Proof/Machine/HostProgram.lean ====
section
/-! DEFINITION. The notation of spec/30_encoding.md R129 and the pseudo-instructions of R130, as the events they stand
for. The loops of `free` and `iterate` are host control flow (R130) and are left to the host. -/

namespace Sys2Proof.Machine

/-- The offset of a register in a register map. -/
def offsetIn : List (Nat × Reg) → Reg → Nat
  | [], _ => 0
  | (o, r') :: rest, r => if r' = r then o else offsetIn rest r

/-- `offset(REG)` (spec/20_memory.md R81). -/
def Reg.offset (r : Reg) : BitVec 32 := BitVec.ofNat 32 (offsetIn regMap r)

/-- `wr REG, imm` (R129). -/
def wr (r : Reg) (imm : Word) : Event := .access (.write .reg r.offset 4 imm)

/-- `rd REG` (R129). -/
def rd (r : Reg) : Event := .access (.read .reg r.offset 4)

/-- `wrb SPACE, off, n, imm` (R129). -/
def wrb (space : Space) (off : BitVec 32) (n : Nat) (imm : Word) : Event := .access (.write space off n imm)

/-- `rdb SPACE, off, n` (R129). -/
def rdb (space : Space) (off : BitVec 32) (n : Nat) : Event := .access (.read space off n)

/-- `cmd MNEMONIC[.FLAGS]` (R129). -/
def cmd (i : Instr) : Event := wr .cmd (encode i)

/-- `wait` (R129) in the schedule where the engine steps before the first poll, which then reads BUSY = 0. -/
def wait : List Event := [.engine, rd .status]

/-- `w1c imm` (R129). -/
def w1c (imm : Word) : Event := wr .status imm

/-- `key "s"` (R130): the length and the five words of the key padded with zero bytes. -/
def keyProgram (k : List Byte) : List Event :=
  let buf : KeyBuf := BitVec.ofNat 160 (leValue k)
  [wr .keyLen (BitVec.ofNat 32 k.length), wr .key0 (keyWord buf 0), wr .key1 (keyWord buf 1), wr .key2 (keyWord buf 2),
    wr .key3 (keyWord buf 3), wr .key4 (keyWord buf 4)]

/-- `stage v0, v1, ...` (R130): the value number `i` goes to offset `4i`. -/
def stageProgram : (off : Nat) → List Word → List Event
  | _, [] => []
  | off, v :: vs => wrb .stage (BitVec.ofNat 32 off) 4 v :: stageProgram (off + 4) vs

/-- `init_exp e, item[, flags]` (R130). -/
def initExpProgram (e item : Word) (z p : Bool) : List Event :=
  [wr .arg0 e, wr .arg1 item, cmd (.init z p)] ++ wait

/-- `init item` (R130): the default exponent. -/
def initProgram (item : Word) : List Event := initExpProgram (BitVec.ofNat 32 Config.defaultExp) item false false

/-- `init_with_size item, n[, flags]` (R130). -/
def initWithSizeProgram (item n : Word) (z p : Bool) : List Event :=
  [wr .arg0 n, wr .arg1 item, cmd (.initSize z p)] ++ wait

/-- `insert "s", v0, ...` (R130). -/
def insertProgram (k : List Byte) (vs : List Word) : List Event :=
  keyProgram k ++ stageProgram 0 vs ++ [cmd (.insert true true)] ++ wait

/-- `get "s"` (R130). -/
def getProgram (k : List Byte) : List Event := keyProgram k ++ [cmd (.get true)] ++ wait

/-- `remove "s"` (R130). -/
def removeProgram (k : List Byte) : List Event := keyProgram k ++ [cmd (.remove true)] ++ wait

/-- `len` (R130). -/
def lenProgram : List Event := [cmd .len] ++ wait ++ [rd .result]

end Sys2Proof.Machine
end

