-- ==== Sys2Proof/Tests/Slice0.lean ====
section
/-! SUPPORT. Tests of one step each, with expected values from spec/95_test_vectors.md or worked out by hand from the
rules, and for every statement with hypotheses a state that meets them. -/

namespace Sys2Proof.Tests

open Sys2Proof.Machine

/-! ## Small states -/

/-- The truncated hashes of spec/95_test_vectors.md P2, under the zero secret: `a`, `b`, `d` have 3, `c`, `e` have 4;
and two more for the walks that overflow. -/
def hashesP2 : List HashAnswer :=
  [⟨[0x61#8], 0#128, 3#64⟩, ⟨[0x62#8], 0#128, 3#64⟩, ⟨[0x63#8], 0#128, 4#64⟩, ⟨[0x64#8], 0#128, 3#64⟩,
    ⟨[0x65#8], 0#128, 4#64⟩, ⟨[0x66#8], 0#128, 20#64⟩, ⟨[0x67#8], 0#128, 0xFFFF1#64⟩]

def env (mem : Nat) : Env where
  events := []
  readData := 0#32
  memBytes := mem
  hashes := hashesP2
  entropy := [some 7#128]
  draws := 0

/-- The latched operands: ARG0, ARG1, and a key. -/
def latch (a0 a1 : Word) (len : BitVec 5) (key : KeyBuf) : Latch where
  word := 0#32
  arg0 := a0
  arg1 := a1
  keyLen := len
  key := key

/-- No table, BUSY, with operands latched. -/
def blank (mem : Nat) (l : Latch) : State := { State.reset with phase := .busy, latch := l, env := env mem }

/-- READY with a table, BUSY, with operands latched. -/
def ready (t : Table) (l : Latch) : State :=
  { State.reset with phase := .busy, latch := l, tstate := .ready, tab := t, env := env 1700 }

/-- A table of items of 4 bytes, so slots of 32, under the zero secret. -/
def table (e : BitVec 5) (occ : Word) (a : Memory) : Table where
  e := e
  occ := occ
  itemSize := 4#32
  slotSize := 32#32
  disposer := true
  secret := 0#128
  array := a
  scratch := [(24, 0xDD#8)]

/-- Slots 3: `a` (th 3) psl 0, 4: `b` (th 3) psl 1, 5: `c` (th 4) psl 1, as in P2 before `d`. -/
def abc : Memory :=
  [(96, 0x01#8), (97, 0x30#8), (100, 0x61#8), (120, 0xAA#8),
   (128, 0x03#8), (129, 0x30#8), (132, 0x62#8), (152, 0xBB#8),
   (160, 0x03#8), (161, 0x40#8), (164, 0x63#8), (184, 0xCC#8)]

def tableABC : Table := table 4#5 3#32 abc

/-- The operands of a command with the one-byte key `k`. -/
def keyed (k : KeyBuf) : Latch := latch 0#32 0#32 1#5 k

/-- The next state, if there is one. -/
def after (o : Host.Outcome State Fault Refusal) : Option State :=
  match o with
  | .next s => some s
  | .fault _ => none
  | .refused _ => none

/-- The metadata word of slot `i` after a command. -/
def metaAt (s : State) (i : Nat) : Word := slotMeta s.tab.geometry s.tab.array i

/-! ## WellFormed refuses an ill-formed term for each check -/

theorem test_wf_reserved_opcode : (RawCommand.mk 13#5 0#3 false false false false 0#20).opcodeAssigned = false := by
  decide

theorem test_wf_opcode_zero : (RawCommand.mk 0#5 0#3 false false false false 0#20).wellFormed = false := by decide

theorem test_wf_reserved_low_bits : (RawCommand.mk 6#5 1#3 false false false false 0#20).reservedClear = false := by
  decide

theorem test_wf_reserved_high_bits : (RawCommand.mk 1#5 0#3 false false false false 1#20).wellFormed = false := by decide

theorem test_wf_flag_of_other_opcode : (RawCommand.mk 3#5 0#3 false false true false 0#20).flagsAdmitted = false := by
  decide

theorem test_wf_flag_on_len : (RawCommand.mk 6#5 0#3 true false false false 0#20).wellFormed = false := by decide

/-! ## Decoding, every constructor from a word written out (spec/30_encoding.md R129, spec/95_test_vectors.md 2.1) -/

theorem test_decode_init : decode 0b00000000000000000000110000000001#32 = .ok (.init true true) := by decide

theorem test_decode_init_p : decode 0b00000000000000000000100000000001#32 = .ok (.init false true) := by decide

theorem test_decode_initSize : decode 0b00000000000000000000010000000010#32 = .ok (.initSize true false) := by decide

theorem test_decode_insert : decode 0b00000000000000000000000100000011#32 = .ok (.insert true false) := by decide

theorem test_decode_insert_d : decode 0b00000000000000000000001000000011#32 = .ok (.insert false true) := by decide

theorem test_decode_get : decode 0b00000000000000000000000100000100#32 = .ok (.get true) := by decide

theorem test_decode_remove : decode 0b00000000000000000000000100000101#32 = .ok (.remove true) := by decide

theorem test_decode_len : decode 0b00000000000000000000000000000110#32 = .ok .len := by decide

theorem test_decode_iterStart : decode 0b00000000000000000000000000000111#32 = .ok .iterStart := by decide

theorem test_decode_iterNext : decode 0b00000000000000000000000000001000#32 = .ok .iterNext := by decide

theorem test_decode_iterStop : decode 0b00000000000000000000000000001001#32 = .ok .iterStop := by decide

theorem test_decode_free : decode 0b00000000000000000000000000001010#32 = .ok .free := by decide

theorem test_decode_disposeAck : decode 0b00000000000000000000000000001011#32 = .ok .disposeAck := by decide

theorem test_decode_peek : decode 0b00000000000000000000000000001100#32 = .ok .peek := by decide

/-- TV-DEC-6, 8, 9, 13, 17. -/
theorem test_decode_illegal :
    decode 0x00000403#32 = .error .unadmittedFlag ∧ decode 0x0000010D#32 = .error .reservedOpcode ∧
    decode 0x00001001#32 = .error .reservedBits ∧ decode 0x00000E01#32 = .error .unadmittedFlag ∧
    decode 0x80000003#32 = .error .reservedBits := by decide

theorem test_table_word : decodeTableWord 32 0x303 = some (.insert true true) ∧ decodeTableWord 32 0x106 = none := by
  decide

/-! ## Commands, one step each -/

/-- The example of R251, with memory for exactly that table. -/
theorem test_init : (after (exec (.init true true) (blank 576 (latch 4#32 8#32 0#5 0#160)))).map
    (fun t => (t.err, t.result, t.tab.slotSize, t.tab.disposer, t.tstate)) =
      some (.ok, 4#32, 32#32, true, .ready) := by decide

/-- `ARG0 = 0x104` is exponent 260 (R126). -/
theorem test_init_whole_word : (after (exec (.init true false) (blank 576 (latch 0x104#32 8#32 0#5 0#160)))).map
    (fun t => (t.err, t.tstate)) = some (.capExp, .none) := by decide

/-- The example of R253. -/
theorem test_initSize : (after (exec (.initSize false false) (blank 20000 (latch 500#32 4#32 0#5 0#160)))).map
    (fun t => (t.err, t.result, t.tab.secret)) = some (.ok, 9#32, 7#128) := by decide

/-- S10: 1050000 elements are too many. -/
theorem test_initSize_too_many : (after (exec (.initSize true false) (blank 20000 (latch 1050000#32 4#32 0#5 0#160)))).map
    (fun t => (t.err, t.result)) = some (.capExp, 0#32) := by decide

/-- P2: `d` steals slot 5 at distance 2 and carries `c` to slot 6 with psl 2. -/
theorem test_insert_steals : (after (exec (.insert true true) (ready tableABC (keyed 0x64#160)))).map
    (fun t => (t.result, t.tab.occ, metaAt t 4, metaAt t 5, metaAt t 6)) =
      some (1#32, 4#32, 0x00003003#32, 0x00003005#32, 0x00004005#32) := by decide

/-- R304: a present key is replaced, with the STAGE item. -/
theorem test_insert_replaces : (after (exec (.insert true true) (ready tableABC (keyed 0x62#160)))).map
    (fun t => (t.result, t.tab.occ, metaAt t 4, (t.tab.slot 4).item)) =
      some (2#32, 3#32, 0x00003003#32, [(0, 0xDD#8)]) := by decide

/-- The example of R310. -/
theorem test_get : (after (exec (.get true) (ready tableABC (keyed 0x62#160)))).map
    (fun t => (t.err, t.result, t.ref, t.readReg .refKey0)) = some (.ok, 4#32, .slot 4, 0x62#32) := by decide

/-- An absent key of th 4: passed over at slot 4 and 5, not found at the empty slot 6. -/
theorem test_get_absent : (after (exec (.get true) (ready tableABC (keyed 0x65#160)))).map
    (fun t => (t.err, t.result, t.ref)) = some (.notFound, 0#32, .none) := by decide

/-- `b` goes, `c` shifts back one slot with psl 0, and REMOVED shows `b`. -/
theorem test_remove : (after (exec (.remove true) (ready tableABC (keyed 0x62#160)))).map
    (fun t => ((t.result, t.tab.occ), (metaAt t 4, metaAt t 5), (t.tab.removedKey, t.tab.removedItem))) =
      some ((4#32, 2#32), (0x00004001#32, 0#32), (0x62#160, [(0, 0xBB#8)])) := by decide

/-- A removal that leaves the table sparse at exponent 5 shrinks it to 4 in the same command (R217). -/
theorem test_remove_shrinks : (after (exec (.remove true) (ready (table 5#5 3#32 abc) (keyed 0x62#160)))).map
    (fun t => (t.shrank, t.tab.e, t.result, metaAt t 3, metaAt t 4)) =
      some (true, 4#5, 4#32, 0x00003001#32, 0x00004001#32) := by decide

theorem test_len : (after (exec .len (ready tableABC (keyed 0#160)))).map (·.result) = some 3#32 := by decide

/-- The metadata word of `c`. -/
theorem test_peek : (after (exec .peek (ready tableABC (latch 5#32 0#32 0#5 0#160)))).map (·.result) =
    some 0x00004003#32 := by decide

theorem test_peek_range : (after (exec .peek (ready tableABC (latch 16#32 0#32 0#5 0#160)))).map (·.err) =
    some .range := by decide

theorem test_iterStart : (after (exec .iterStart (ready tableABC (keyed 0#160)))).map
    (fun t => (t.result, t.iterActive, t.iterCursor, t.ref)) = some (0#32, true, 3, .slot 3) := by decide

theorem test_iterNext : (after (exec .iterNext { ready tableABC (keyed 0#160) with iterActive := true, iterCursor := 3 })).map
    (fun t => (t.result, t.iterCursor, t.ref)) = some (0#32, 4, .slot 4) := by decide

/-- After the last entry the iteration ends with RESULT 1 (R352). -/
theorem test_iterNext_last :
    (after (exec .iterNext { ready tableABC (keyed 0#160) with iterActive := true, iterCursor := 5 })).map
      (fun t => (t.result, t.iterActive, t.ref)) = some (1#32, false, .none) := by decide

theorem test_iterStop :
    (after (exec .iterStop { ready tableABC (keyed 0#160) with iterActive := true, iterCursor := 5, ref := .slot 5 })).map
      (fun t => (t.result, t.iterActive, t.ref)) = some (0#32, false, .none) := by decide

/-- The example of R265. -/
theorem test_free : (after (exec .free (ready tableABC (keyed 0#160)))).map
    (fun t => (t.result, t.tstate, t.ref)) = some (3#32, .disposing, .slot 3) := by decide

theorem test_free_without_disposer :
    (after (exec .free (ready { tableABC with disposer := false } (keyed 0#160)))).map
      (fun t => (t.result, t.tstate, t.ref)) = some (0#32, .none, .none) := by decide

/-- The example of R270. -/
theorem test_disposeAck :
    (after (exec .disposeAck { ready tableABC (keyed 0#160) with tstate := .disposing, disp := 3, ref := .slot 3 })).map
      (fun t => (t.result, t.tstate, t.ref)) = some (2#32, .disposing, .slot 4) := by decide

theorem test_disposeAck_last :
    (after (exec .disposeAck { ready tableABC (keyed 0#160) with tstate := .disposing, disp := 5, ref := .slot 5 })).map
      (fun t => (t.result, t.tstate, t.ref)) = some (0#32, .none, .none) := by decide

/-- The key register example of R169: `abc` is 61 62 63 and then zeros, whatever stands behind the length. -/
theorem test_key_normal_form : (ready tableABC (latch 0#32 0#32 3#5 0xFF00FF636261#160)).getKey true =
    .ok ⟨0x636261#160, (Env.keyedHash (env 1700) [0x61#8, 0x62#8, 0x63#8] 0#128).setWidth 20⟩ := by rfl

/-! ## Host accesses -/

/-- P2's STATUS while an entry is presented: TABLE, ITER and REF_VALID, here without the disposer. -/
theorem test_status :
    ({ ready { tableABC with disposer := false } (keyed 0#160) with
        phase := .idle, iterActive := true, ref := .slot 3 } : State).status = 0x00000016#32 := by decide

/-- The codes of spec/60_exceptions.md R400, in the order of its table. -/
theorem test_error_codes :
    [ErrCode.ok, .illegalCmd, .state, .keyAbsent, .keyInvalid, .dataAbsent, .notFound, .capExp, .itemSize, .alloc, .entropy,
      .full, .resizeAlloc, .resizePsl, .pslOverflow, .range].map (·.code.toNat) = List.range 16 := by decide

/-- Two bytes written to STAGE, little-endian. -/
theorem test_stage_write :
    ({ ready tableABC (keyed 0#160) with phase := .idle }.access (.write .stage 1#32 2 0xBEEF#32)).tab.scratch =
      [(24, 0xDD#8), (25, 0xEF#8), (26, 0xBE#8)] := by decide

/-- P2's item of `b`, read through REF. -/
theorem test_ref_read :
    ({ ready tableABC (keyed 0#160) with phase := .idle, ref := .slot 4 }.access (.read .ref 0#32 4)).env.readData =
      0xBB#32 := by decide

/-- An access that runs past the item is refused. -/
theorem test_ref_past_the_item :
    ({ ready tableABC (keyed 0#160) with phase := .idle, ref := .slot 4 }.access (.read .ref 1#32 4)).busErr = true := by
  decide

/-- The little-endian notation of R130: `key "ab"` writes `0x6261` to KEY0. -/
theorem test_key_program : (keyProgram [0x61#8, 0x62#8]).take 2 = [wr .keyLen 2#32, wr .key0 0x6261#32] := by decide

/-! ## Every statement with hypotheses has a state that meets them -/

/-- The outcome of a walk, without its array. -/
inductive WalkKind where
  | placed
  | replaced
  | overflow
deriving DecidableEq, Repr

def walkKind (r : WalkResult) : WalkKind :=
  match r with
  | .placed _ => .placed
  | .replaced _ => .replaced
  | .overflow => .overflow

theorem exists_placed {r : WalkResult} (h : walkKind r = .placed) : ∃ b, r = .placed b := by
  cases r <;> simp_all [walkKind]

theorem exists_replaced {r : WalkResult} (h : walkKind r = .replaced) : ∃ b, r = .replaced b := by
  cases r <;> simp_all [walkKind]

theorem is_overflow {r : WalkResult} (h : walkKind r = .overflow) : r = .overflow := by cases r <;> simp_all [walkKind]

theorem exists_next {o : Host.Outcome State Fault Refusal} {e : ErrCode} (h : (after o).map (·.err) = some e) :
    ∃ t, o = .next t ∧ t.err = e := by
  cases o <;> simp_all [after]

/-- The walk of INSERT in a table. -/
def walk (t : Table) (th : BitVec 20) (key : KeyBuf) : WalkResult :=
  insertWalk t.geometry t.e.toNat t.array ⟨th, key, t.stage⟩

/-- The table a resize gives, or the table it was given. -/
def resized (t : Table) (mem eNew : Nat) : Table :=
  match t.resize mem eNew with
  | .ok u => u
  | .failAlloc => t
  | .failPsl => t

/-- 0 for success, else the code of the failure. -/
def resizeCode (r : ResizeResult) : Nat :=
  match r with
  | .ok _ => 0
  | .failAlloc => 0x0C
  | .failPsl => 0x0D

theorem resize_ok {t : Table} {mem eNew : Nat} (h : resizeCode (t.resize mem eNew) = 0) :
    t.resize mem eNew = .ok (resized t mem eNew) := by
  unfold resized; cases hr : t.resize mem eNew <;> simp_all [resizeCode]

theorem resize_failAlloc {r : ResizeResult} (h : resizeCode r = 0x0C) : r = .failAlloc := by
  cases r <;> simp_all [resizeCode]

theorem resize_failPsl {r : ResizeResult} (h : resizeCode r = 0x0D) : r = .failPsl := by
  cases r <;> simp_all [resizeCode]

/-! ### Decoding and the step -/

theorem witness_DecodingSelectsTheOneMatchingRow :
    (∃ r ∈ commandRows, 0x00000303#32 &&& r.mask = r.matchWord) ∧
    (∀ r ∈ commandRows, (blank 576 { keyed 0#160 with word := 0x106#32 }).latch.word &&& r.mask ≠ r.matchWord) :=
  ⟨⟨_, .tail _ (.tail _ (.head _)), by decide⟩, by decide⟩

theorem witness_IllegalWordsAreTheReservedOnes :
    decode (blank 576 { keyed 0#160 with word := 0x0D#32 }).latch.word = .error .reservedOpcode := by decide

theorem witness_StepRunsTheDecodedCommand :
    (ready tableABC { keyed 0#160 with word := 6#32 }).phase = .busy ∧
    decode (ready tableABC { keyed 0#160 with word := 6#32 }).latch.word = .ok .len ∧ Instr.len.wellFormed = true ∧
    (ready tableABC { keyed 0#160 with word := 6#32 }).env.events = [] ∧
    ((ready tableABC { keyed 0#160 with word := 6#32 }).pushEvent .engine).env.events = [.engine] ∧
    (State.reset.pushEvent (rd .id)).env.events = [.access (.read .reg 0x00#32 4)] ∧
    (State.reset.pushEvent .engine).phase = .idle ∧ (State.reset.pushEvent .engine).env.events = [.engine] ∧
    State.reset.phase = .idle ∧ State.reset.env.events = [] :=
  ⟨rfl, by decide, by decide, rfl, rfl, rfl, rfl, rfl, rfl, rfl⟩

theorem witness_ResetDropsCommandAndTable : ((ready tableABC (keyed 0#160)).pushEvent .reset).env.events = [.reset] := rfl

/-! ### Sizes, thresholds -/

theorem witness_SlotSizeIsTheLeastMultipleOfEight : 8 ∣ 32 ∧ 24 + 4 ≤ 32 ∧ slotBytes 0xFFFFFFE0 = 0xFFFFFFF8 := by decide

theorem witness_ExpForSizeIsTheSmallestFit :
    expForSize 0 = some 4 ∧ expForSize 16 = some 4 ∧ expForSize 17 = some 5 ∧ expForSize 1048576 = some 20 ∧
    expForSize 1048577 = none := by decide

/-- The largest count that shrinks from exponent 5. -/
theorem witness_ShrinkIsNotFollowedByGrow : ((table 5#5 12#32 abc).shrinkArbiter 1664).shrank = true := by decide +kernel

theorem witness_ShrinkLoopStopsAtTheFirstDenseExponent : 4 < 5 ∧ sparse 12 5 = true := by decide

theorem witness_WrongStateRaisesErrState :
    (ready tableABC (keyed 0#160)).tstate ≠ .none ∧ (blank 576 (keyed 0#160)).tstate ≠ .ready ∧
    (ready tableABC (keyed 0#160)).iterActive = false ∧ (ready tableABC (keyed 0#160)).tstate ≠ .disposing := by decide

/-! ### Creation -/

theorem witness_InitCreatesATable :
    (blank 576 (latch 4#32 8#32 0#5 0#160)).tstate = .none ∧ (2 ^ 4 + 2) * slotBytes 8 ≤ 576 ∧
    (blank 576 (latch 4#32 8#32 0#5 0#160)).env.entropyAnswer = some 7#128 := by decide

/-- The largest exponent and the largest item. -/
theorem witness_InitCreatesATable_largest :
    4 ≤ (20#32).toNat ∧ (20#32).toNat ≤ 20 ∧ (0xFFFFFFE0#32).toNat ≤ 0xFFFFFFE0 ∧
    (2 ^ 20 + 2) * slotBytes 0xFFFFFFE0 ≤ (blank 4503608217305072 (latch 20#32 0xFFFFFFE0#32 0#5 0#160)).env.memBytes := by
  decide

theorem witness_InitSizeCreatesTheLeastTable :
    (blank 2000 (latch 17#32 4#32 0#5 0#160)).tstate = .none ∧ (17#32).toNat ≤ 2 ^ 5 ∧
    (∀ f, 4 ≤ f → f < 5 → 2 ^ f < (17#32).toNat) ∧ (2 ^ 5 + 2) * slotBytes 4 ≤ 2000 ∧
    (0#32).toNat ≤ 2 ^ 4 ∧ (∀ f, 4 ≤ f → f < 4 → 2 ^ f < (0#32).toNat) :=
  ⟨rfl, by decide, fun f h1 h2 => by interval_cases f; decide, by decide, by decide, fun f h1 h2 => by omega⟩

/-- Each of the failures of a creation happens. -/
theorem witness_FailedCreationChangesNothing :
    (∃ t, exec (.init true false) (blank 576 (latch 3#32 4#32 0#5 0#160)) = .next t ∧ t.err = .capExp) ∧
    (∃ t, exec (.init true false) (blank 576 (latch 4#32 0xFFFFFFE1#32 0#5 0#160)) = .next t ∧ t.err = .itemSize) ∧
    (∃ t, exec (.init true false) (blank 575 (latch 4#32 8#32 0#5 0#160)) = .next t ∧ t.err = .alloc) ∧
    (∃ t, exec (.init false false)
      { blank 576 (latch 4#32 8#32 0#5 0#160) with env := { env 576 with entropy := [none] } } = .next t ∧
      t.err = .entropy) ∧
    (∃ t, exec (.initSize true false) (blank 576 (latch 1048577#32 4#32 0#5 0#160)) = .next t ∧ t.err = .capExp) :=
  ⟨exists_next (by decide), exists_next (by decide), exists_next (by decide), exists_next (by decide),
    exists_next (by decide)⟩

/-! ### Keys -/

theorem witness_KeyOperandIsChecked :
    (∃ j, j < 3 ∧ keyByte 0x610061#160 j = 0#8) ∧ (20#5).toNat > 19 ∧ (19#5).toNat ≤ 19 ∧
    ∀ j, j < 19 → keyByte 0xFF01010101010101010101010101010101010101#160 j ≠ 0#8 :=
  ⟨⟨1, by decide, by decide⟩, by decide, by decide, fun j hj => by interval_cases j <;> decide⟩

theorem witness_KeyBytesPastTheLengthAreIgnored : ∀ j, j < 1 → keyByte 0xFF61#160 j = keyByte 0x61#160 j := by
  intro j hj; interval_cases j; decide

theorem witness_OperandErrorsComeBeforeAnyMutation :
    (ready tableABC (latch 0#32 0#32 20#5 0x61#160)).getKey true = .error .keyInvalid ∧
    (ready tableABC (keyed 0x61#160)).getKey false = .error .keyAbsent ∧
    (ready tableABC (keyed 0x61#160)).getKey true = .ok ⟨0x61#160, 3#20⟩ := by decide

/-! ### The map commands -/

theorem witness_InsertPlacesOrReplaces :
    (ready tableABC (keyed 0x64#160)).getKey true = .ok ⟨0x64#160, 3#20⟩ ∧ 10 * 3 < 9 * 2 ^ 4 ∧
    (∃ b, walk tableABC 3#20 0x64#160 = .placed b) ∧ ∃ b, walk tableABC 3#20 0x62#160 = .replaced b :=
  ⟨by decide, by decide, exists_placed (by decide +kernel), exists_replaced (by decide +kernel)⟩

/-- One slot, never empty and never matching: the walk overflows. -/
theorem witness_InsertPlacesOrReplaces_overflow :
    10 * 0 < 9 * 2 ^ 0 ∧ walk (table 0#5 0#32 [(0, 0x01#8), (1, 0x40#8)]) 3#20 0x61#160 = .overflow := by
  refine ⟨by decide, insertLoop_full (by decide) rfl (home_lt _ _) ⟨by decide, by decide⟩ (fun j hj => ?_)
    (fun j hj => ?_) fun j k hj hk _ => ?_⟩
  · have h0 : j = 0 := by simpa [table] using hj
    subst h0; decide
  · have h0 : j = 0 := by simpa [table] using hj
    subst h0; decide
  · have h0 : j = 0 := by simpa [table] using hj
    have h1 : k = 0 := by simpa [table] using hk
    rw [h0, h1]

theorem witness_InsertGrowsFirst :
    (ready (table 4#5 15#32 abc) (keyed 0x64#160)).getKey true = .ok ⟨0x64#160, 3#20⟩ ∧ 10 * 15 ≥ 9 * 2 ^ 4 ∧
    10 * 943719 ≥ 9 * 2 ^ 20 ∧ (table 20#5 943719#32 abc).e.toNat = 20 ∧
    (table 4#5 15#32 abc).resize 1663 5 = .failAlloc ∧
    (table 4#5 15#32 abc).resize 1664 5 = .ok (resized (table 4#5 15#32 abc) 1664 5) ∧
    (∃ b, walk (resized (table 4#5 15#32 abc) 1664 5) 3#20 0x64#160 = .placed b) ∧
    ∃ b, walk (resized (table 4#5 15#32 abc) 1664 5) 3#20 0x62#160 = .replaced b :=
  ⟨by decide, by decide, by decide, by decide, resize_failAlloc (by decide), resize_ok (by decide +kernel),
    exists_placed (by decide +kernel), exists_replaced (by decide +kernel)⟩

theorem witness_GetFindsOrReportsNotFound :
    findSlot tableABC.geometry 4 tableABC.array ⟨0x62#160, 3#20⟩ = some 4 ∧
    findSlot tableABC.geometry 4 tableABC.array ⟨0x65#160, 4#20⟩ = none := by decide +kernel

/-- At exponent 5 the table shrinks if a removal leaves at most 12 entries; with 13 it stays. -/
theorem witness_RemoveRemovesThenShrinks :
    findSlot (table 5#5 14#32 abc).geometry 5 abc ⟨0x62#160, 3#20⟩ = some 4 ∧
    ¬(5 > 4 ∧ 10 * ((table 5#5 14#32 abc).removeAt 4).occ.toNat ≤ 4 * 2 ^ 5) ∧
    (5 > 4 ∧ 10 * ((table 5#5 13#32 abc).removeAt 4).occ.toNat ≤ 4 * 2 ^ 5) ∧
    ((table 5#5 13#32 abc).removeAt 4).resize 1663 (shrinkExp 12 5) = .failAlloc ∧
    ((table 5#5 13#32 abc).removeAt 4).resize 1664 (shrinkExp 12 5) =
      .ok (resized ((table 5#5 13#32 abc).removeAt 4) 1664 (shrinkExp 12 5)) :=
  ⟨by decide +kernel, by decide +kernel, by decide +kernel, resize_failAlloc (by decide +kernel),
    resize_ok (by decide +kernel)⟩

/-- Slots 0 to 15, each with an entry whose truncated hash is the slot's number. -/
def crowdedLow : Memory :=
  (List.range 16).flatMap fun i =>
    if i = 0 then [(0, 0x01#8)] else [(32 * i, 0x01#8), (32 * i + 1, BitVec.ofNat 8 (16 * i))]

/-- The same, an entry with truncated hash 16 in slot 16, and the entry `f` in slot 20: more entries than the count says,
so no run reaches it. -/
def crowded : Table :=
  table 5#5 3#32 (crowdedLow ++ [(512, 0x01#8), (514, 0x01#8), (640, 0x01#8), (641, 0x40#8), (642, 0x01#8), (644, 0x66#8)])

theorem crowded_array : (crowded.removeAt 20).array = crowdedLow ++ [(512, 0x01#8), (514, 0x01#8)] := by decide +kernel

theorem crowdedLow_taken : ∀ j, j < 2 ^ 4 → (getSlot ⟨32, 4⟩ crowdedLow j).taken = true := by decide +kernel

theorem crowdedLow_th : ∀ j, j < 2 ^ 4 → (getSlot ⟨32, 4⟩ crowdedLow j).th = BitVec.ofNat 20 j := by decide +kernel

/-- A shrink that runs out of distance: the seventeenth entry meets sixteen full slots. -/
theorem crowded_failPsl : (crowded.removeAt 20).resize 1700 4 = .failPsl := by
  have h16 : reinsert ⟨32, 4⟩ (crowdedLow ++ [(512, 0x01#8), (514, 0x01#8)]) 4 16 0 [] = some crowdedLow := by
    decide +kernel
  have hc : (getSlot ⟨32, 4⟩ (crowdedLow ++ [(512, 0x01#8), (514, 0x01#8)]) (0 + 16)).taken = true ∧
      (getSlot ⟨32, 4⟩ (crowdedLow ++ [(512, 0x01#8), (514, 0x01#8)]) (0 + 16)).candidate = ⟨16#20, 0#160, []⟩ := by
    decide +kernel
  have hw : insertWalk ⟨32, 4⟩ 4 crowdedLow ⟨16#20, 0#160, []⟩ = .overflow := by
    refine insertLoop_full (by decide) (by decide) (home_lt _ _) ⟨rfl, by decide⟩ crowdedLow_taken (fun j hj h => ?_)
      fun j k hj hk h => ?_
    · rw [crowdedLow_th j hj] at h
      have := congrArg BitVec.toNat h
      simp only [BitVec.toNat_ofNat] at this
      omega
    · rw [crowdedLow_th j hj, crowdedLow_th k hk] at h
      have := congrArg BitVec.toNat h
      simp only [BitVec.toNat_ofNat] at this
      omega
  have hr : reinsert (crowded.removeAt 20).geometry (crowded.removeAt 20).array 4 (crowded.removeAt 20).cap 0 [] = none := by
    have hg : (crowded.removeAt 20).geometry = ⟨32, 4⟩ := by decide
    have hn : (crowded.removeAt 20).cap = 16 + (15 + 1) := by decide
    rw [crowded_array, hg, hn, reinsert_add, h16, Option.bind_some]
    unfold reinsert
    dsimp only
    rw [hc.1, if_pos rfl, hc.2, hw]
  rcases resize_cases (crowded.removeAt 20) 1700 4 with ⟨_, h⟩ | ⟨_, ⟨h, _⟩ | ⟨b, _, h⟩⟩
  · exact absurd h (by decide)
  · exact h
  · exact absurd (hr.symm.trans h) (by simp)

theorem witness_RemoveRemovesThenShrinks_failPsl :
    (ready crowded (keyed 0x66#160)).getKey true = .ok ⟨0x66#160, 20#20⟩ ∧
    findSlot crowded.geometry 5 crowded.array ⟨0x66#160, 20#20⟩ = some 20 ∧
    10 * (crowded.removeAt 20).occ.toNat ≤ 4 * 2 ^ 5 ∧ shrinkExp (crowded.removeAt 20).occ.toNat 5 = 4 ∧
    (crowded.removeAt 20).resize 1700 4 = .failPsl :=
  ⟨by decide, by decide +kernel, by decide +kernel, by decide +kernel, crowded_failPsl⟩

/-! ### Queries, iteration, destruction -/

/-- The last slot and the first index past the table. -/
theorem witness_LenAndPeekOnlyReport :
    (ready tableABC (latch 15#32 0#32 0#5 0#160)).latch.arg0.toNat < 2 ^ tableABC.e.toNat ∧
    2 ^ tableABC.e.toNat ≤ (ready tableABC (latch 16#32 0#32 0#5 0#160)).latch.arg0.toNat := by decide

theorem witness_IterationPresentsTheNextTakenSlot :
    ((tableABC.slot 3).taken = true ∧ ∀ l, l < 3 → (tableABC.slot l).taken = false) ∧
    ∀ l, l < 2 ^ 4 → 6 ≤ l → (tableABC.slot l).taken = false := by decide +kernel

theorem witness_FreeReleasesOrStartsDisposal :
    tableABC.disposer = true ∧ tableABC.occ.toNat > 0 ∧ (tableABC.slot 3).taken = true ∧
    (∀ l, l < 3 → (tableABC.slot l).taken = false) ∧ (table 4#5 0#32 []).occ.toNat = 0 := by decide +kernel

/-- DISPOSING with the cursor at slot `d` of the three entries. -/
def disposing (d : Nat) : State :=
  { ready tableABC (keyed 0#160) with tstate := .disposing, disp := d, ref := .slot d }

theorem witness_DisposeAckPresentsTheNextOrReleases :
    (disposing 3).tstate = .disposing ∧ (tableABC.slot 4).taken = true ∧
    ∀ l, l < 2 ^ 4 → 5 < l → (tableABC.slot l).taken = false := by decide +kernel

theorem witness_EachAcknowledgementCountsDown :
    tableABC.takenCount 3 = 2 + 1 ∧ (3 < tableABC.cap ∧ (tableABC.slot 3).taken = true) ∧
    tableABC.takenCount 5 = 0 + 1 ∧ 5 < tableABC.cap ∧ (tableABC.slot 5).taken = true := by decide +kernel

/-! ### Frames and failures -/

theorem witness_CommandsLeaveTheHostRegisters :
    ∃ t, exec (.remove true) (ready tableABC (keyed 0x62#160)) = .next t ∧ t.err = .ok := exists_next (by decide +kernel)

/-- A failure of each kind the statement tells apart; ERR_PSL_OVERFLOW is the walk of
`witness_InsertPlacesOrReplaces_overflow`. -/
theorem witness_FailedCommandsChangeOnlyWhatIsListed :
    (∃ t, exec (.insert true true) (blank 576 (keyed 0x61#160)) = .next t ∧ t.err = .state) ∧
    (∃ t, exec (.insert true false) (ready tableABC (keyed 0x61#160)) = .next t ∧ t.err = .dataAbsent) ∧
    (∃ t, exec (.remove true) (ready tableABC (keyed 0x65#160)) = .next t ∧ t.err = .notFound) ∧
    (∃ t, exec (.get true) (ready tableABC (keyed 0x65#160)) = .next t ∧ t.err = .notFound) ∧
    ∃ t, exec .peek (ready tableABC (latch 16#32 0#32 0#5 0#160)) = .next t ∧ t.err = .range :=
  ⟨exists_next (by decide), exists_next (by decide), exists_next (by decide +kernel), exists_next (by decide +kernel),
    exists_next (by decide)⟩

/-- The slot that is never empty and never matches, as a state. -/
def overflowing : State := ready (table 0#5 0#32 [(0, 0x01#8), (1, 0x40#8)]) (keyed 0x61#160)

theorem witness_FailedCommandsChangeOnlyWhatIsListed_overflow :
    ∃ t, exec (.insert true true) overflowing = .next t ∧ t.err = .pslOverflow := by
  have hk : overflowing.getKey true = .ok ⟨0x61#160, 3#20⟩ := by decide
  have hg : overflowing.tab.growArbiter overflowing.env.memBytes = .proceed overflowing.tab false := by
    unfold Table.growArbiter; exact if_pos (by decide)
  have he : exec (.insert true true) overflowing =
      .next (overflowing.endReferences.insertInto overflowing.tab false ⟨0x61#160, 3#20⟩) := by
    show execInsert true true overflowing = _
    unfold execInsert
    rw [if_neg (by decide), hk]
    dsimp only
    rw [if_neg (by decide), hg]
  have hw : insertWalk overflowing.tab.geometry overflowing.tab.e.toNat overflowing.tab.array
      ⟨3#20, 0x61#160, overflowing.tab.stage⟩ = .overflow := witness_InsertPlacesOrReplaces_overflow.2
  rcases insertInto_cases overflowing.endReferences overflowing.tab false ⟨0x61#160, 3#20⟩ with
    ⟨b, h, _⟩ | ⟨b, h, _⟩ | ⟨_, h⟩
  · exact absurd (hw.symm.trans h) (by simp)
  · exact absurd (hw.symm.trans h) (by simp)
  · exact ⟨_, he, by rw [h]; rfl⟩

/-! ### Host accesses -/

/-- IDLE with the three entries, and slot 4 referred to. -/
def idle : State := { ready tableABC (keyed 0#160) with phase := .idle, ref := .slot 4 }

theorem witness_WritableRegistersReadBack :
    idle.phase = .idle ∧ 0x18#32 ≠ 0x14#32 ∧ 0x34#32 ≠ 0x1C#32 ∧
    ((0x1C#32 : BitVec 32) = 0x1C#32 ∧ (0#32 : Word) = 0#27 ++ idle.keyLen) := by decide

theorem witness_CmdWriteLatchesTheCommand :
    idle.phase = .idle ∧ (ready tableABC (keyed 0#160)).phase = .busy := ⟨rfl, rfl⟩

/-- Idle and busy states, one whose command completes, and one with both sticky bits set before a KEY_LEN write. -/
theorem witness_StickyBitsClearOnlyByWritingOnes :
    idle.phase = .idle ∧ (ready tableABC (keyed 0#160)).phase = .busy ∧
    (∃ t, (ready tableABC { keyed 0#160 with word := 6#32 }).executeLatched = .next t ∧ t.err = .ok) ∧
    ({ idle with busyViol := true, busErr := true } : State).busyViol = true ∧
    ({ idle with busyViol := true, busErr := true } : State).busErr = true ∧
    ∀ v, Access.write .reg 0x1C#32 4 5#32 ≠ .write .reg 0x0C#32 4 v :=
  ⟨rfl, rfl, exists_next (by decide), rfl, rfl, fun v h => by simp at h⟩

/-- Each kind of refused access, the unmapped range at both its ends. -/
theorem witness_RefusedAccessOnlySetsBusErr :
    (0x5C ≤ (0x5C#32).toNat ∧ (0xFFF#32).toNat ≤ 0xFFF) ∧ (0x16#32).toNat % 4 ≠ 0 ∧
    (blank 576 (keyed 0#160)).tstate ≠ .ready ∧ (ready tableABC (keyed 0#160)).ref = .none ∧
    (1#32).toNat + 4 > idle.tab.itemSize.toNat ∧ 3 ∉ [1, 2, 4] := by decide

/-- BUSY; not refused: the first and the last mapped offset, and the last byte of the STAGE item; refused: the offset past
the last, the byte past the item, and a closed REF. -/
theorem witness_BusyAccessIsDropped :
    (ready tableABC (keyed 0#160)).phase = .busy ∧
    (ready tableABC (keyed 0#160)).refuses .reg 0x00#32 4 = false ∧
    (ready tableABC (keyed 0#160)).refuses .reg 0x58#32 4 = false ∧
    (ready tableABC (keyed 0#160)).refuses .stage 3#32 1 = false ∧
    (ready tableABC (keyed 0#160)).refuses .reg 0x5C#32 4 = true ∧
    (ready tableABC (keyed 0#160)).refuses .stage 4#32 1 = true ∧
    (ready tableABC (keyed 0#160)).refuses .ref 0#32 4 = true := by decide

theorem witness_StatusBitsShowTheState : idle.phase = .idle ∧ (0x10#32) ∈ [0x00#32, 0x04#32, 0x10#32] := by decide

theorem witness_MirrorsShowTheTable :
    idle.phase = .idle ∧ idle.tstate ≠ .none ∧ State.reset.phase = .idle ∧ State.reset.tstate = .none := by decide

theorem witness_RefRegistersShowTheNamedEntry :
    idle.phase = .idle ∧ State.reset.phase = .idle ∧ State.reset.ref = .none ∧ idle.ref = .slot 4 ∧ idle.tstate ≠ .disposing ∧ ({ idle with ref := .removed } : State).ref = .removed ∧
    (ready tableABC (keyed 0#160)).ref = .none ∧ (disposing 3).tstate = .disposing := by decide

/-- The last byte and the whole of an item. -/
theorem witness_StageApertureStoresLittleEndian :
    idle.tstate = .ready ∧ (3#32).toNat + 1 ≤ idle.tab.itemSize.toNat ∧ (0#32).toNat + 4 ≤ idle.tab.itemSize.toNat ∧
    idle.tab.scratch.wf = true := by decide

theorem witness_RefWriteChangesOnlyTheItem :
    idle.ref = .slot 4 ∧ (2#32).toNat + 2 ≤ idle.tab.itemSize.toNat ∧ idle.tab.array.wf = true ∧
    idle.tab.slotSize.toNat = slotBytes idle.tab.itemSize.toNat := by decide

theorem witness_RemovedRefWriteChangesOnlyTheBuffer :
    ({ idle with ref := .removed } : State).ref = .removed ∧ (0#32).toNat + 4 ≤ idle.tab.itemSize.toNat ∧
    idle.tab.scratch.wf = true := by decide

theorem witness_AbsentTableIsNeverRead :
    (blank 576 (keyed 0#160)).tstate = .none ∧ (blank 576 (keyed 0#160)).ref = .none ∧
    step (blank 576 (keyed 0#160)) = .next ((blank 576 (keyed 0#160)).raise .illegalCmd) := ⟨rfl, rfl, rfl⟩

/-! ### The probe engine -/

theorem witness_FindReturnsAMatchingSlot : findSlot tableABC.geometry 4 abc ⟨0x63#160, 4#20⟩ = some 5 := by decide +kernel

theorem witness_InsertWalkReturnsWithinTheCapacity :
    tableABC.geometry.fits ∧ abc.wf = true ∧ 6 < 2 ^ 4 ∧ (getSlot tableABC.geometry abc 6).taken = false := by
  decide +kernel

/-- `d` meets its event at distance 2: a theft of slot 5. A key of truncated hash 7 meets an empty slot at once. `b` is
replaced at distance 1. -/
theorem witness_InsertWalkStopsOrStealsAtTheFirstEvent :
    (∀ m, m < 2 → (getSlot tableABC.geometry abc ((home 3#20 4 + m) % 2 ^ 4)).taken = true ∧
      ((getSlot tableABC.geometry abc ((home 3#20 4 + m) % 2 ^ 4)).th ≠ 3#20 ∨
        (getSlot tableABC.geometry abc ((home 3#20 4 + m) % 2 ^ 4)).key ≠ 0x64#160) ∧
      m ≤ (getSlot tableABC.geometry abc ((home 3#20 4 + m) % 2 ^ 4)).psl.toNat) ∧
    ((getSlot tableABC.geometry abc 5).taken = true ∧ (getSlot tableABC.geometry abc 5).th ≠ 3#20 ∧
      (getSlot tableABC.geometry abc 5).psl.toNat < 2) ∧
    (getSlot tableABC.geometry abc ((home 7#20 4 + 0) % 2 ^ 4)).taken = false ∧
    (getSlot tableABC.geometry abc ((home 3#20 4 + 1) % 2 ^ 4)).th = 3#20 ∧
    (getSlot tableABC.geometry abc ((home 3#20 4 + 1) % 2 ^ 4)).key = 0x62#160 := by decide +kernel

/-- One slot with psl 2047: the walk overflows at distance 2047. -/
theorem witness_InsertWalkStopsOrStealsAtTheFirstEvent_overflow :
    2047 ≤ 2047 ∧ 0 = (home 3#20 0 + 2047) % 2 ^ 0 ∧
    (∀ m, m < 2047 →
      (getSlot ⟨32, 4⟩ [(0, 0xFF#8), (1, 0x0F#8)] ((home 3#20 0 + m) % 2 ^ 0)).taken = true ∧
      ((getSlot ⟨32, 4⟩ [(0, 0xFF#8), (1, 0x0F#8)] ((home 3#20 0 + m) % 2 ^ 0)).th ≠ 3#20 ∨
        (getSlot ⟨32, 4⟩ [(0, 0xFF#8), (1, 0x0F#8)] ((home 3#20 0 + m) % 2 ^ 0)).key ≠ 0#160) ∧
      m ≤ (getSlot ⟨32, 4⟩ [(0, 0xFF#8), (1, 0x0F#8)] ((home 3#20 0 + m) % 2 ^ 0)).psl.toNat) ∧
    (getSlot ⟨32, 4⟩ [(0, 0xFF#8), (1, 0x0F#8)] 0).taken = true ∧
    (getSlot ⟨32, 4⟩ [(0, 0xFF#8), (1, 0x0F#8)] 0).psl.toNat = 2047 := by
  have h : (getSlot ⟨32, 4⟩ [(0, 0xFF#8), (1, 0x0F#8)] 0).taken = true ∧
      (getSlot ⟨32, 4⟩ [(0, 0xFF#8), (1, 0x0F#8)] 0).th ≠ 3#20 ∧
      (getSlot ⟨32, 4⟩ [(0, 0xFF#8), (1, 0x0F#8)] 0).psl.toNat = 2047 := by decide +kernel
  refine ⟨le_rfl, by decide, fun m hm => ?_, h.1, h.2.2⟩
  rw [show (home 3#20 0 + m) % 2 ^ 0 = 0 from Nat.mod_one _]
  exact ⟨h.1, .inl h.2.1, by rw [h.2.2]; omega⟩

theorem witness_InsertWalkWritesOnlyTheProbedRun :
    (getSlot tableABC.geometry abc ((home 3#20 4 + 3) % 2 ^ 4)).taken = false ∧
    (∀ m, m < 3 → (getSlot tableABC.geometry abc ((home 3#20 4 + m) % 2 ^ 4)).taken = true) ∧
    (∃ b, insertWalk tableABC.geometry 4 abc ⟨3#20, 0x64#160, []⟩ = .placed b) ∧
    ∃ b, insertWalk tableABC.geometry 4 abc ⟨3#20, 0x62#160, []⟩ = .replaced b :=
  ⟨by decide +kernel, by decide +kernel, exists_placed (by decide +kernel), exists_replaced (by decide +kernel)⟩

/-- A placing and a replacing walk. -/
theorem witness_InsertWalkAddsOneTakenSlot :
    tableABC.geometry.fits ∧ abc.wf = true ∧
    (∃ b, insertWalk tableABC.geometry 4 abc ⟨3#20, 0x64#160, []⟩ = .placed b) ∧
    ∃ b, insertWalk tableABC.geometry 4 abc ⟨3#20, 0x62#160, []⟩ = .replaced b :=
  ⟨by decide, by decide, witness_InsertWalkWritesOnlyTheProbedRun.2.2⟩

/-- Slot 4 goes: one entry follows it, and an empty slot that; slot 5 goes: none follows it. -/
theorem witness_BackwardShiftMovesTheRunBack :
    tableABC.geometry.fits ∧ abc.wf = true ∧ 1 + 1 < 2 ^ 4 ∧
    (∀ m, m < 1 → (getSlot tableABC.geometry abc ((4 + 1 + m) % 2 ^ 4)).taken = true ∧
      0 < (getSlot tableABC.geometry abc ((4 + 1 + m) % 2 ^ 4)).psl.toNat) ∧
    (getSlot tableABC.geometry abc ((4 + 1 + 1) % 2 ^ 4)).taken = false ∧
    (getSlot tableABC.geometry abc ((5 + 1 + 0) % 2 ^ 4)).taken = false := by decide +kernel

/-! ### Good states -/

/-- `Table.Inv` from bounded checks; `key i` is the key in slot `i`. -/
theorem inv_of_checks {t : Table} {v : Env} (key : Nat → List Byte)
    (bounds : 4 ≤ t.e.toNat ∧ t.e.toNat ≤ 20 ∧ t.occ.toNat < t.cap) (counted : t.occ.toNat = t.takenCount 0)
    (distances : ∀ i, i < t.cap → (t.slot i).taken = true →
      (t.slot i).psl.toNat = (i + t.cap - home (t.slot i).th t.e.toNat) % t.cap)
    (robin : ∀ i, i < t.cap → (t.slot i).taken = true → (t.slot i).psl.toNat > 0 →
      (t.slot ((i + t.cap - 1) % t.cap)).taken = true ∧
      (t.slot i).psl.toNat ≤ (t.slot ((i + t.cap - 1) % t.cap)).psl.toNat + 1)
    (keys : ∀ i, i < t.cap → (t.slot i).taken = true → (1 ≤ (key i).length ∧ (key i).length ≤ 19 ∧ ∀ b ∈ key i, b ≠ 0#8))
    (hashed : ∀ i, i < t.cap → (t.slot i).taken = true → (t.slot i).key = normalKey (key i) ∧
      (t.slot i).th = (v.keyedHash (key i) t.secret).setWidth 20)
    (unique : ∀ i, i < t.cap → (t.slot i).taken = true →
      ∀ j, j < t.cap → (t.slot j).taken = true → (t.slot i).key = (t.slot j).key → i = j)
    (sized : t.slotSize.toNat = slotBytes t.itemSize.toNat ∧ footprint t.cap t.slotSize.toNat ≤ v.memBytes)
    (stored : t.array.wf = true ∧ t.scratch.wf = true ∧ (∀ c ∈ t.array, c.1 < t.cap * t.slotSize.toNat) ∧
      ∀ c ∈ t.scratch, c.1 < 2 * t.slotSize.toNat) : t.Inv v where
  bounds := bounds
  counted := counted
  uniqueKeys := fun i j hi hj hk => unique i hi.1 hi.2 j hj.1 hj.2 hk
  distances := fun i hi => distances i hi.1 hi.2
  hashed := fun i hi => ⟨key i, keys i hi.1 hi.2, hashed i hi.1 hi.2⟩
  robinHood := fun i hi hp =>
    ⟨⟨Nat.mod_lt _ (Nat.two_pow_pos _), (robin i hi.1 hi.2 hp).1⟩, (robin i hi.1 hi.2 hp).2⟩
  sized := sized
  stored := stored

/-- The keys of the three entries. -/
def keysABC (i : Nat) : List Byte := if i = 3 then [0x61#8] else if i = 4 then [0x62#8] else [0x63#8]

theorem tableABC_inv : tableABC.Inv (env 1700) :=
  inv_of_checks keysABC (by decide) (by decide +kernel) (by decide +kernel) (by decide +kernel) (by decide +kernel)
    (by decide +kernel) (by decide +kernel) (by decide) (by decide)

/-- The state with the three entries is good, whatever is latched. -/
theorem ready_inv (l : Latch) : (ready tableABC l).Inv where
  table := fun _ => tableABC_inv
  absent := fun h => by simp [ready] at h
  pointers :=
    { slotTaken := fun i h => by simp [ready, State.reset] at h
      removedReady := fun h => by simp [ready, State.reset] at h
      disposing := fun h => by simp [ready] at h
      cursor := fun h => by simp [ready, State.reset] at h }

theorem witness_FindIsCompleteInAGoodTable :
    tableABC.Inv (env 1700) ∧ 5 < tableABC.cap ∧ (tableABC.slot 5).taken = true := ⟨tableABC_inv, by decide +kernel⟩

theorem witness_ResizeKeepsTheMap :
    tableABC.Inv (env 1700) ∧ tableABC.occ.toNat < 2 ^ 5 ∧
    tableABC.resize (env 1700).memBytes 5 = .ok (resized tableABC 1700 5) :=
  ⟨tableABC_inv, by decide, resize_ok (by decide +kernel)⟩

/-- Each outcome of a resize: both footprints are 1664 bytes; and the reinsertion of an empty slot and of a taken one. -/
theorem witness_ResizeKeepsTheMap_outcomes :
    (2 ^ 4 + 2) * 32 + (2 ^ 5 + 2) * 32 = 1664 ∧ tableABC.resize 1663 5 = .failAlloc ∧
    tableABC.resize 1664 5 = .ok (resized tableABC 1664 5) ∧ (crowded.removeAt 20).resize 1700 4 = .failPsl ∧
    reinsert tableABC.geometry abc 5 2 0 [] = some [] ∧ (tableABC.slot 2).taken = false ∧
    reinsert tableABC.geometry abc 5 3 0 [] = some [] ∧ (tableABC.slot 3).taken = true ∧
    ∃ b, insertWalk tableABC.geometry 5 [] ⟨(tableABC.slot 3).th, (tableABC.slot 3).key, (tableABC.slot 3).item⟩ =
      .placed b :=
  ⟨rfl, resize_failAlloc (by decide), resize_ok (by decide +kernel), crowded_failPsl, by decide +kernel,
    by decide +kernel, by decide +kernel, by decide +kernel, exists_placed (by decide +kernel)⟩

/-- INSERT of `d`, latched by a CMD write of `0x303`: good and with a next state. -/
theorem witness_StepKeepsTheTableInvariants :
    (ready tableABC { keyed 0x64#160 with word := 0x303#32 }).Inv ∧
    ∃ t, step (ready tableABC { keyed 0x64#160 with word := 0x303#32 }) = .next t ∧ t.err = .ok :=
  ⟨ready_inv _, exists_next (by decide +kernel)⟩

theorem witness_StepKeepsMemoryCanonical :
    (ready tableABC { keyed 0x64#160 with word := 0x303#32 }).canonical ∧
    ∃ t, step (ready tableABC { keyed 0x64#160 with word := 0x303#32 }) = .next t ∧ t.err = .ok :=
  ⟨⟨rfl, rfl⟩, witness_StepKeepsTheTableInvariants.2⟩

/-- FREE of a table with a disposer, the one command with a stop in its text. -/
theorem witness_GoodStatesNeverStop :
    (ready tableABC { keyed 0#160 with word := 0x0A#32 }).Inv ∧
    (ready tableABC { keyed 0#160 with word := 0x0A#32 }).tab.disposer = true := ⟨ready_inv _, rfl⟩

theorem witness_StepKeepsShapeAndPointers :
    (ready tableABC { keyed 0x64#160 with word := 0x303#32 }).Shape ∧
    (ready tableABC { keyed 0x64#160 with word := 0x303#32 }).Pointers :=
  ⟨{ exponent := fun _ => by decide
     sized := fun _ => tableABC_inv.sized
     stored := fun _ => tableABC_inv.stored
     absent := fun h => by simp [ready] at h }, (ready_inv _).pointers⟩

theorem witness_InsertUpdatesTheMap :
    (ready tableABC (keyed 0x64#160)).Inv ∧ (ready tableABC (keyed 0x64#160)).tstate = .ready ∧
    (ready tableABC (keyed 0x64#160)).getKey true = .ok ⟨0x64#160, 3#20⟩ ∧
    (∃ t, exec (.insert true true) (ready tableABC (keyed 0x64#160)) = .next t ∧ t.err = .ok) ∧
    (ready tableABC (keyed 0x62#160)).getKey true = .ok ⟨0x62#160, 3#20⟩ ∧
    ∃ t, exec (.insert true true) (ready tableABC (keyed 0x62#160)) = .next t ∧ t.err = .ok :=
  ⟨ready_inv _, rfl, by decide, exists_next (by decide +kernel), by decide, exists_next (by decide +kernel)⟩

/-- Fifteen entries, each in its home slot `i` with truncated hash and one-byte key `i`, for `i` from 1 to 15. -/
def fifteen : Table where
  e := 4#5
  occ := 15#32
  itemSize := 0#32
  slotSize := 24#32
  disposer := false
  secret := 0#128
  array := (List.range 15).flatMap fun i =>
    [(24 * (i + 1), 0x01#8), (24 * (i + 1) + 1, BitVec.ofNat 8 (16 * (i + 1))), (24 * (i + 1) + 4, BitVec.ofNat 8 (i + 1))]
  scratch := []

/-- Memory for the fifteen entries and no growth. -/
def fullEnv : Env :=
  { env 432 with
    hashes := (List.range 16).map fun i => ⟨[BitVec.ofNat 8 i], 0#128, BitVec.ofNat 64 i⟩ }

theorem fifteen_inv : fifteen.Inv fullEnv :=
  inv_of_checks (fun i => [BitVec.ofNat 8 i]) (by decide) (by decide +kernel) (by decide +kernel) (by decide +kernel)
    (by decide +kernel) (by decide +kernel) (by decide +kernel) (by decide) (by decide +kernel)

/-- A good table at the threshold, with no memory to grow: INSERT fails. -/
theorem witness_InsertUpdatesTheMap_failure :
    ({ ready fifteen (keyed 0x01#160) with env := fullEnv } : State).Inv ∧
    ({ ready fifteen (keyed 0x01#160) with env := fullEnv } : State).getKey true = .ok ⟨0x01#160, 1#20⟩ ∧
    ∃ t, exec (.insert true true) { ready fifteen (keyed 0x01#160) with env := fullEnv } = .next t ∧
      t.err = .resizeAlloc :=
  ⟨{ table := fun _ => fifteen_inv
     absent := fun h => by simp [ready] at h
     pointers :=
      { slotTaken := fun i h => by simp [ready, State.reset] at h
        removedReady := fun h => by simp [ready, State.reset] at h
        disposing := fun h => by simp [ready] at h
        cursor := fun h => by simp [ready, State.reset] at h } },
    by decide, exists_next (by decide +kernel)⟩

theorem witness_RemoveUpdatesTheMap :
    (ready tableABC (keyed 0x61#160)).Inv ∧ (ready tableABC (keyed 0x61#160)).getKey true = .ok ⟨0x61#160, 3#20⟩ ∧
    ∃ t, exec (.remove true) (ready tableABC (keyed 0x61#160)) = .next t ∧ t.err = .ok :=
  ⟨ready_inv _, by decide, exists_next (by decide +kernel)⟩

theorem sparse_inv : (table 5#5 3#32 abc).Inv (env 1700) :=
  inv_of_checks keysABC (by decide) (by decide +kernel) (by decide +kernel) (by decide +kernel) (by decide +kernel)
    (by decide +kernel) (by decide +kernel) (by decide) (by decide)

/-- A good state whose removal shrinks the table. -/
theorem witness_RemoveUpdatesTheMap_shrinks :
    (ready (table 5#5 3#32 abc) (keyed 0x62#160)).Inv ∧
    (ready (table 5#5 3#32 abc) (keyed 0x62#160)).getKey true = .ok ⟨0x62#160, 3#20⟩ ∧
    (∃ t, exec (.remove true) (ready (table 5#5 3#32 abc) (keyed 0x62#160)) = .next t ∧ t.err = .ok) ∧
    (after (exec (.remove true) (ready (table 5#5 3#32 abc) (keyed 0x62#160)))).map (·.shrank) = some true :=
  ⟨{ table := fun _ => sparse_inv
     absent := fun h => by simp [ready] at h
     pointers :=
      { slotTaken := fun i h => by simp [ready, State.reset] at h
        removedReady := fun h => by simp [ready, State.reset] at h
        disposing := fun h => by simp [ready] at h
        cursor := fun h => by simp [ready, State.reset] at h } },
    by decide, exists_next (by decide +kernel), by decide +kernel⟩

theorem witness_GetShowsTheMapsItem :
    ((ready tableABC (keyed 0x63#160)).tstate = .ready ∧
      (ready tableABC (keyed 0x63#160)).getKey true = .ok ⟨0x63#160, 4#20⟩ ∧
      ∃ t, exec (.get true) (ready tableABC (keyed 0x63#160)) = .next t ∧ t.err = .ok) ∧
    ∃ t, exec (.get true) (ready tableABC (keyed 0x65#160)) = .next t ∧ t.err = .notFound :=
  ⟨⟨rfl, by decide, exists_next (by decide +kernel)⟩, exists_next (by decide +kernel)⟩

end Sys2Proof.Tests
end

section
/-! SUPPORT. What an array of slots holds and in what order: the parts of INV3 to INV6 (spec/10_state.md R55, R56) that
speak of the array alone, as the walks of spec/41_probe_engine.md keep them. -/

namespace Sys2Proof.Machine

/-! ## Indices -/

theorem nextIndex_ne {e i : Nat} (he : 1 ≤ e) (hi : i < 2 ^ e) : nextIndex i e ≠ i := by
  have h2 : 2 ≤ 2 ^ e := Nat.pow_le_pow_right (n := 2) (by decide) he
  rw [nextIndex_eq]
  by_cases h : i + 1 < 2 ^ e
  · rw [Nat.mod_eq_of_lt h]; omega
  · rw [show i + 1 = 2 ^ e by omega, Nat.mod_self]; omega

theorem nextIndex_inj {e i j : Nat} (hi : i < 2 ^ e) (hj : j < 2 ^ e) (h : nextIndex i e = nextIndex j e) : i = j := by
  rw [nextIndex_eq, nextIndex_eq] at h
  by_cases h1 : i + 1 < 2 ^ e <;> by_cases h2 : j + 1 < 2 ^ e
  · rw [Nat.mod_eq_of_lt h1, Nat.mod_eq_of_lt h2] at h; omega
  · rw [Nat.mod_eq_of_lt h1, show j + 1 = 2 ^ e by omega, Nat.mod_self] at h; omega
  · rw [Nat.mod_eq_of_lt h2, show i + 1 = 2 ^ e by omega, Nat.mod_self] at h; omega
  · omega

/-- Every slot stands at some distance from any other. -/
theorem exists_distance {n i j : Nat} (hi : i < n) (hj : j < n) : ∃ m, m < n ∧ (i + m) % n = j := by
  by_cases h : i ≤ j
  · exact ⟨j - i, by omega, by rw [Nat.add_sub_cancel' h, Nat.mod_eq_of_lt hj]⟩
  · exact ⟨j + n - i, by omega, by rw [Nat.add_sub_cancel' (by omega), Nat.add_mod_right, Nat.mod_eq_of_lt hj]⟩

/-! ## A slot write, seen from every slot -/

theorem getSlot_setSlot {g : Geometry} (hg : g.fits) {m : Memory} (hm : m.wf = true) (i j : Nat) {c : Slot}
    (hc : c.Sane g) : getSlot g (setSlot g m i c) j = if j = i then c else getSlot g m j := by
  split_ifs with h
  · rw [h, getSlot_setSlot_same hm i hc]
  · exact getSlot_setSlot_other hg hm (Ne.symm h) c

/-! ## The entries of an array -/

/-- One of the `2^e` slots of an array holds the entry `x`. -/
def Holds (g : Geometry) (e : Nat) (a : Memory) (x : Candidate) : Prop :=
  ∃ i, i < 2 ^ e ∧ (getSlot g a i).taken = true ∧ (getSlot g a i).candidate = x

/-- No two taken slots hold equal keys (INV3). -/
def DistinctKeys (g : Geometry) (e : Nat) (a : Memory) : Prop :=
  ∀ i j, i < 2 ^ e → j < 2 ^ e → (getSlot g a i).taken = true → (getSlot g a j).taken = true →
    (getSlot g a i).key = (getSlot g a j).key → i = j

/-- A canonical array in which every taken slot stands at its psl from its home index (INV4), no slot is poorer by more
than one than the slot before it (INV6), and every entry's truncated hash and key satisfy `P` (INV5). -/
structure Probed (g : Geometry) (e : Nat) (P : BitVec 20 → KeyBuf → Prop) (a : Memory) : Prop where
  wf : a.wf = true
  distance : ∀ i, i < 2 ^ e → (getSlot g a i).taken = true →
    (getSlot g a i).psl.toNat < 2 ^ e ∧ (home (getSlot g a i).th e + (getSlot g a i).psl.toNat) % 2 ^ e = i
  order : ∀ i, i < 2 ^ e → (getSlot g a (nextIndex i e)).taken = true →
    0 < (getSlot g a (nextIndex i e)).psl.toNat →
    (getSlot g a i).taken = true ∧ (getSlot g a (nextIndex i e)).psl.toNat ≤ (getSlot g a i).psl.toNat + 1
  entry : ∀ i, i < 2 ^ e → (getSlot g a i).taken = true → P (getSlot g a i).th (getSlot g a i).key

/-- What INV3 to INV6 say of the array of a table. -/
structure GoodArray (g : Geometry) (e : Nat) (P : BitVec 20 → KeyBuf → Prop) (a : Memory) : Prop extends
    Probed g e P a where
  distinct : DistinctKeys g e a

section
variable {g : Geometry} {e : Nat} {P : BitVec 20 → KeyBuf → Prop} {a : Memory} {i : Nat} {c : Slot}

theorem Holds.unique (ha : DistinctKeys g e a) {x y : Candidate} (hx : Holds g e a x) (hy : Holds g e a y)
    (h : x.key = y.key) : x = y := by
  obtain ⟨i, hi, hit, rfl⟩ := hx
  obtain ⟨j, hj, hjt, rfl⟩ := hy
  rw [ha i j hi hj hit hjt h]

/-- Filling an empty slot adds its entry. -/
theorem holds_setSlot_empty (hg : g.fits) (hm : a.wf = true) (hi : i < 2 ^ e) (hc : c.Sane g) (ht : c.taken = true)
    (hf : (getSlot g a i).taken = false) (x : Candidate) :
    Holds g e (setSlot g a i c) x ↔ Holds g e a x ∨ x = c.candidate := by
  constructor
  · rintro ⟨j, hj, hjt, rfl⟩
    rw [getSlot_setSlot hg hm i j hc] at hjt ⊢
    split_ifs at hjt ⊢ with h
    · exact .inr rfl
    · exact .inl ⟨j, hj, hjt, rfl⟩
  · rintro (⟨j, hj, hjt, rfl⟩ | rfl)
    · have h : j ≠ i := by rintro rfl; rw [hf] at hjt; cases hjt
      have hs : getSlot g (setSlot g a i c) j = getSlot g a j := by rw [getSlot_setSlot hg hm i j hc, if_neg h]
      exact ⟨j, hj, by rw [hs, hjt], by rw [hs]⟩
    · have hs : getSlot g (setSlot g a i c) i = c := getSlot_setSlot_same hm i hc
      exact ⟨i, hi, by rw [hs, ht], by rw [hs]⟩

/-- Overwriting a taken slot exchanges its entry. -/
theorem holds_setSlot_taken (hg : g.fits) (hm : a.wf = true) (hd : DistinctKeys g e a) (hi : i < 2 ^ e)
    (hc : c.Sane g) (ht : c.taken = true) (hf : (getSlot g a i).taken = true) (x : Candidate) :
    Holds g e (setSlot g a i c) x ↔ Holds g e a x ∧ x.key ≠ (getSlot g a i).key ∨ x = c.candidate := by
  constructor
  · rintro ⟨j, hj, hjt, rfl⟩
    rw [getSlot_setSlot hg hm i j hc] at hjt ⊢
    split_ifs at hjt ⊢ with h
    · exact .inr rfl
    · exact .inl ⟨⟨j, hj, hjt, rfl⟩, fun hk => h (hd j i hj hi hjt hf hk)⟩
  · rintro (⟨⟨j, hj, hjt, rfl⟩, hk⟩ | rfl)
    · have h : j ≠ i := by rintro rfl; exact hk rfl
      have hs : getSlot g (setSlot g a i c) j = getSlot g a j := by rw [getSlot_setSlot hg hm i j hc, if_neg h]
      exact ⟨j, hj, by rw [hs, hjt], by rw [hs]⟩
    · have hs : getSlot g (setSlot g a i c) i = c := getSlot_setSlot_same hm i hc
      exact ⟨i, hi, by rw [hs, ht], by rw [hs]⟩

/-- Keys stay distinct when a slot gets a key that no other taken slot has. -/
theorem DistinctKeys.fillSlot (ha : DistinctKeys g e a) (hg : g.fits) (hm : a.wf = true) (hc : c.Sane g)
    (hk : ∀ j, j < 2 ^ e → j ≠ i → (getSlot g a j).taken = true → (getSlot g a j).key ≠ c.key) :
    DistinctKeys g e (setSlot g a i c) := by
  intro j l hj hl
  rw [getSlot_setSlot hg hm i j hc, getSlot_setSlot hg hm i l hc]
  split_ifs with h1 h2 h2
  · exact fun _ _ _ => h1.trans h2.symm
  · exact fun _ hlt h => absurd h.symm (hk l hl h2 hlt)
  · exact fun hjt _ h => absurd h (hk j hj h1 hjt)
  · exact ha j l hj hl

/-- A slot write keeps the array in order when the new entry stands at its distance and in order with its two
neighbours. -/
theorem Probed.fillSlot (ha : Probed g e P a) (hg : g.fits) (he : 1 ≤ e) (hi : i < 2 ^ e) (hc : c.Sane g)
    (hd : c.psl.toNat < 2 ^ e ∧ (home c.th e + c.psl.toNat) % 2 ^ e = i) (hP : P c.th c.key) (ht : c.taken = true)
    (hprev : ∀ j, j < 2 ^ e → nextIndex j e = i → 0 < c.psl.toNat →
      (getSlot g a j).taken = true ∧ c.psl.toNat ≤ (getSlot g a j).psl.toNat + 1)
    (hnext : (getSlot g a (nextIndex i e)).taken = true → 0 < (getSlot g a (nextIndex i e)).psl.toNat →
      (getSlot g a (nextIndex i e)).psl.toNat ≤ c.psl.toNat + 1) :
    Probed g e P (setSlot g a i c) where
  wf := wf_setSlot ha.wf g i c
  distance j hj := by
    rw [getSlot_setSlot hg ha.wf i j hc]
    split_ifs with h
    · exact fun _ => h ▸ hd
    · exact ha.distance j hj
  order j hj := by
    rw [getSlot_setSlot hg ha.wf i j hc, getSlot_setSlot hg ha.wf i (nextIndex j e) hc]
    have hne := nextIndex_ne he hj
    by_cases h1 : nextIndex j e = i
    · rw [if_pos h1, if_neg fun h => hne (h1.trans h.symm)]
      exact fun _ => hprev j hj h1
    · rw [if_neg h1]
      split_ifs with h2
      · subst h2
        exact fun h h' => ⟨ht, hnext h h'⟩
      · exact ha.order j hj
  entry j hj := by
    rw [getSlot_setSlot hg ha.wf i j hc]
    split_ifs with h
    · exact fun _ => hP
    · exact ha.entry j hj

/-- A slot may be emptied when the slot after it needs none before it. -/
theorem Probed.clearSlot (ha : Probed g e P a) (hg : g.fits) (he : 1 ≤ e)
    (hnext : (getSlot g a (nextIndex i e)).taken = true → (getSlot g a (nextIndex i e)).psl.toNat = 0) :
    Probed g e P (setSlot g a i Slot.empty) where
  wf := wf_setSlot ha.wf g i _
  distance j hj := by
    rw [getSlot_setSlot hg ha.wf i j (Slot.empty_sane g)]
    split_ifs with h
    · exact fun h => absurd h (by decide)
    · exact ha.distance j hj
  order j hj := by
    rw [getSlot_setSlot hg ha.wf i j (Slot.empty_sane g),
      getSlot_setSlot hg ha.wf i (nextIndex j e) (Slot.empty_sane g)]
    have hne := nextIndex_ne he hj
    split_ifs with h1 h2 h2
    · exact absurd (h1.trans h2.symm) hne
    · exact fun h => absurd h (by decide)
    · subst h2
      exact fun h h' => absurd (hnext h) (by omega)
    · exact ha.order j hj
  entry j hj := by
    rw [getSlot_setSlot hg ha.wf i j (Slot.empty_sane g)]
    split_ifs with h
    · exact fun h => absurd h (by decide)
    · exact ha.entry j hj

/-- The run of a slot that is at least as poor as its distance `q` from slot `s`: by INV6 the slots between are taken
and at least as poor as theirs. -/
theorem Probed.run_back (ha : Probed g e P a) {s q : Nat} (ht : (getSlot g a ((s + q) % 2 ^ e)).taken = true)
    (hq : q ≤ (getSlot g a ((s + q) % 2 ^ e)).psl.toNat) {m : Nat} (hm : m ≤ q) :
    (getSlot g a ((s + m) % 2 ^ e)).taken = true ∧ m ≤ (getSlot g a ((s + m) % 2 ^ e)).psl.toNat := by
  induction q with
  | zero =>
    obtain rfl : m = 0 := by omega
    exact ⟨ht, hq⟩
  | succ q ih =>
    rcases Nat.eq_or_lt_of_le hm with rfl | hlt
    · exact ⟨ht, hq⟩
    · have ho := ha.order ((s + q) % 2 ^ e) (Nat.mod_lt _ (Nat.two_pow_pos e))
      rw [nextIndex_add] at ho
      obtain ⟨h1, h2⟩ := ho ht (by omega)
      exact ih h1 (by omega) (by omega)

end

/-! ## The empty array -/

@[simp] theorem getSlot_nil_taken (g : Geometry) (i : Nat) : (getSlot g [] i).taken = false := by
  have h : slotMeta g [] i = 0#32 := rfl
  simp [getSlot, h, getTaken]

theorem goodArray_nil (g : Geometry) (e : Nat) (P : BitVec 20 → KeyBuf → Prop) : GoodArray g e P [] where
  wf := rfl
  distance i _ h := by simp at h
  order i _ h := by simp at h
  entry i _ h := by simp at h
  distinct i j _ _ h := by simp at h

theorem not_holds_nil (g : Geometry) (e : Nat) (x : Candidate) : ¬ Holds g e [] x := by
  rintro ⟨i, _, h, _⟩
  simp at h

/-! ## Counting taken slots (INV2) -/

@[simp] theorem countTaken_nil (g : Geometry) (n i : Nat) : countTaken g [] n i = 0 := by
  induction n generalizing i with
  | zero => rfl
  | succ n ih => simp [countTaken, ih]

theorem countTaken_succ (g : Geometry) (a : Memory) (n : Nat) :
    countTaken g a (n + 1) 0 = countTaken g a n 0 + if (getSlot g a n).taken = true then 1 else 0 := by
  rw [countTaken_add]
  simp [countTaken]

theorem countTaken_mono (g : Geometry) (a : Memory) {n k : Nat} (h : n ≤ k) :
    countTaken g a n 0 ≤ countTaken g a k 0 := by
  obtain ⟨d, rfl⟩ := Nat.exists_eq_add_of_le h
  rw [countTaken_add]
  omega

/-- An array that counts fewer taken slots than it has, has an empty one. -/
theorem exists_empty_of_countTaken_lt {g : Geometry} {a : Memory} {n : Nat} (h : countTaken g a n 0 < n) :
    ∃ j, j < n ∧ (getSlot g a j).taken = false := by
  induction n with
  | zero => omega
  | succ n ih =>
    rw [countTaken_succ] at h
    by_cases ht : (getSlot g a n).taken = true
    · rw [if_pos ht] at h
      obtain ⟨j, hj, hf⟩ := ih (by omega)
      exact ⟨j, by omega, hf⟩
    · exact ⟨n, by omega, by simpa using ht⟩

/-- A slot write changes the count by the slot's own flag. -/
theorem countTaken_setSlot {g : Geometry} (hg : g.fits) {m : Memory} (hm : m.wf = true) {i n : Nat} (hi : i < n)
    {c : Slot} (hc : c.Sane g) :
    countTaken g (setSlot g m i c) n 0 + (if (getSlot g m i).taken = true then 1 else 0) =
      countTaken g m n 0 + if c.taken = true then 1 else 0 := by
  induction n with
  | zero => omega
  | succ n ih =>
    rw [countTaken_succ, countTaken_succ, getSlot_setSlot hg hm i n hc]
    rcases Nat.eq_or_lt_of_le (show i ≤ n by omega) with rfl | hlt
    · have h : countTaken g (setSlot g m i c) i 0 = countTaken g m i 0 :=
        countTaken_congr fun l _ hl => by rw [getSlot_setSlot hg hm i l hc, if_neg (by omega)]
      rw [if_pos rfl, h]
      omega
    · rw [if_neg (show n ≠ i by omega)]
      have := ih hlt
      omega

end Sys2Proof.Machine
end

section
/-! SUPPORT. What the insertion walk does to a good array (spec/41_probe_engine.md R202 to R206, spec/10_state.md R55,
R56): it keeps the array good, and adds its entry or exchanges the one of its key. -/

namespace Sys2Proof.Machine

/-- What InsertWalk carries into slot `i` at distance `d`: an entry that stands at its distance there, behind which
every slot on its way is taken and at least as poor as it was there, and whose key is not among the slots passed. -/
structure Carried (g : Geometry) (e : Nat) (P : BitVec 20 → KeyBuf → Prop) (b : Memory) (i d : Nat) (c : Candidate) :
    Prop where
  place : i = (home c.th e + d) % 2 ^ e
  inside : d < 2 ^ e
  fits : d ≤ Config.maxPsl
  entry : P c.th c.key
  sane : (c.toSlot d).Sane g
  behind : ∀ m, m < d → (getSlot g b ((home c.th e + m) % 2 ^ e)).taken = true ∧
    m ≤ (getSlot g b ((home c.th e + m) % 2 ^ e)).psl.toNat
  ahead : ∀ j, j < 2 ^ e → (getSlot g b j).taken = true → (getSlot g b j).key = c.key → d ≤ (getSlot g b j).psl.toNat

/-- The array `b` is `a` with the entry `c` added, whose key `a` does not hold. -/
structure PlacedIn (g : Geometry) (e : Nat) (P : BitVec 20 → KeyBuf → Prop) (a : Memory) (c : Candidate)
    (b : Memory) : Prop where
  good : GoodArray g e P b
  holds : ∀ x, Holds g e b x ↔ Holds g e a x ∨ x = c
  fresh : ∀ x, Holds g e a x → x.key ≠ c.key

/-- The array `b` is `a` with the entry of the key of `c` exchanged for `c`. -/
structure ReplacedIn (g : Geometry) (e : Nat) (P : BitVec 20 → KeyBuf → Prop) (a : Memory) (c : Candidate)
    (b : Memory) : Prop where
  good : GoodArray g e P b
  holds : ∀ x, Holds g e b x ↔ Holds g e a x ∧ x.key ≠ c.key ∨ x = c
  found : ∃ x, Holds g e a x ∧ x.key = c.key

/-- What a walk that carries the entry `c` into the array `a` may answer. -/
structure WalkKeeps (g : Geometry) (e : Nat) (P : BitVec 20 → KeyBuf → Prop) (a : Memory) (c : Candidate)
    (r : WalkResult) : Prop where
  placed : ∀ b, r = .placed b → PlacedIn g e P a c b
  replaced : ∀ b, r = .replaced b → ReplacedIn g e P a c b

section
variable {g : Geometry} {e : Nat} {P : BitVec 20 → KeyBuf → Prop} {a b : Memory} {i d : Nat} {c : Candidate}

theorem PlacedIn.walkKeeps (h : PlacedIn g e P a c b) : WalkKeeps g e P a c (.placed b) :=
  ⟨fun _ hr => (by cases hr; exact h), fun _ hr => (by cases hr)⟩

theorem ReplacedIn.walkKeeps (h : ReplacedIn g e P a c b) : WalkKeeps g e P a c (.replaced b) :=
  ⟨fun _ hr => (by cases hr), fun _ hr => (by cases hr; exact h)⟩

theorem WalkKeeps.overflow : WalkKeeps g e P a c .overflow := ⟨fun _ hr => (by cases hr), fun _ hr => (by cases hr)⟩

theorem toSlot_psl_toNat (c : Candidate) (hd : d ≤ Config.maxPsl) : (c.toSlot d).psl.toNat = d := by
  simp only [Config.maxPsl] at hd
  simp only [Candidate.toSlot, BitVec.toNat_ofNat]
  omega

theorem Carried.lt (hc : Carried g e P b i d c) : i < 2 ^ e := by
  rw [hc.place]; exact Nat.mod_lt _ (Nat.two_pow_pos e)

/-- At the first slot that is empty or richer than the carried entry, its key stands nowhere in the array: INV6 would
have a taken slot as poor as it here. -/
theorem Carried.absent (hc : Carried g e P b i d c) (hb : Probed g e P b) (hP : ∀ t t' k, P t k → P t' k → t = t')
    (hi : (getSlot g b i).taken = true → (getSlot g b i).psl.toNat < d) {j : Nat} (hj : j < 2 ^ e)
    (ht : (getSlot g b j).taken = true) : (getSlot g b j).key ≠ c.key := by
  intro hk
  have hth : (getSlot g b j).th = c.th := hP _ _ _ (hk ▸ hb.entry j hj ht) hc.entry
  obtain ⟨_, hplace⟩ := hb.distance j hj ht
  rw [hth] at hplace
  obtain ⟨h1, h2⟩ := hb.run_back (s := home c.th e) (q := (getSlot g b j).psl.toNat) (by rw [hplace, ht])
    (by rw [hplace]) (hc.ahead j hj ht hk)
  rw [← hc.place] at h1 h2
  have := hi h1
  omega

/-- The carried entry may be written where it stands. -/
theorem Carried.fill (hc : Carried g e P b i d c) (hb : Probed g e P b) (hg : g.fits) (he : 1 ≤ e)
    (hnext : (getSlot g b (nextIndex i e)).taken = true → 0 < (getSlot g b (nextIndex i e)).psl.toNat →
      (getSlot g b (nextIndex i e)).psl.toNat ≤ d + 1) : Probed g e P (setSlot g b i (c.toSlot d)) := by
  have hpsl := toSlot_psl_toNat c hc.fits
  refine hb.fillSlot hg he hc.lt hc.sane ?_ hc.entry rfl (fun j hj hji hd => ?_) (by rwa [hpsl])
  · rw [hpsl]
    exact ⟨hc.inside, hc.place.symm⟩
  · rw [hpsl] at hd ⊢
    obtain ⟨m, rfl⟩ : ∃ m, d = m + 1 := ⟨d - 1, by omega⟩
    have hj' : j = (home c.th e + m) % 2 ^ e := nextIndex_inj hj (Nat.mod_lt _ (Nat.two_pow_pos e)) (by
      rw [nextIndex_add, ← hc.place, hji])
    obtain ⟨h1, h2⟩ := hc.behind m (by omega)
    rw [hj']
    exact ⟨h1, by omega⟩

/-- It may take the place of an entry that is no poorer. -/
theorem Carried.fill_richer (hc : Carried g e P b i d c) (hb : Probed g e P b) (hg : g.fits) (he : 1 ≤ e)
    (hp : (getSlot g b i).psl.toNat ≤ d) : Probed g e P (setSlot g b i (c.toSlot d)) :=
  hc.fill hb hg he fun h h' => by
    have := (hb.order i hc.lt h h').2
    omega

/-- Past a taken slot that is at least as poor, the distance stays inside an array with an empty slot (R206). -/
theorem Carried.succ_lt (hc : Carried g e P b i d c) (ht : (getSlot g b i).taken = true)
    (hp : d ≤ (getSlot g b i).psl.toNat) (hf : ∃ j, j < 2 ^ e ∧ (getSlot g b j).taken = false) : d + 1 < 2 ^ e := by
  obtain ⟨j, hj, hjf⟩ := hf
  obtain ⟨m, hm, rfl⟩ := exists_distance (home_lt c.th e) hj
  by_contra hge
  have hd := hc.inside
  rcases Nat.lt_or_ge m d with hlt | hge'
  · rw [(hc.behind m hlt).1] at hjf
    cases hjf
  · obtain rfl : m = d := by omega
    rw [← hc.place, ht] at hjf
    cases hjf

/-- Step 6 past a slot that keeps its entry. -/
theorem Carried.pass (hc : Carried g e P b i d c) (hb : Probed g e P b) (hP : ∀ t t' k, P t k → P t' k → t = t')
    (hf : ∃ j, j < 2 ^ e ∧ (getSlot g b j).taken = false)
    (ht : (getSlot g b i).taken = true) (hn : ¬((getSlot g b i).th = c.th ∧ (getSlot g b i).key = c.key))
    (hp : d ≤ (getSlot g b i).psl.toNat) (hd : d ≠ Config.maxPsl) : Carried g e P b (nextIndex i e) (d + 1) c where
  place := by rw [hc.place, nextIndex_add]
  inside := hc.succ_lt ht hp hf
  fits := by have := hc.fits; omega
  entry := hc.entry
  sane := ⟨hc.sane.wf, hc.sane.inside⟩
  behind m hm := by
    rcases Nat.eq_or_lt_of_le (show m ≤ d by omega) with rfl | hlt
    · rw [← hc.place]
      exact ⟨ht, hp⟩
    · exact hc.behind m hlt
  ahead j hj hjt hk := by
    have hle := hc.ahead j hj hjt hk
    have hth : (getSlot g b j).th = c.th := hP _ _ _ (hk ▸ hb.entry j hj hjt) hc.entry
    obtain ⟨_, hplace⟩ := hb.distance j hj hjt
    rcases Nat.eq_or_lt_of_le hle with heq | hlt
    · rw [hth, ← heq, ← hc.place] at hplace
      exact absurd ⟨hplace ▸ hth, hplace ▸ hk⟩ hn
    · exact hlt

/-- Step 4, the theft (R203): the entry of a richer slot is carried on. -/
theorem Carried.steal (hc : Carried g e P b i d c) (hb : GoodArray g e P b) (hg : g.fits) (he : 1 ≤ e)
    (habs : ∀ j, j < 2 ^ e → (getSlot g b j).taken = true → (getSlot g b j).key ≠ c.key)
    (ht : (getSlot g b i).taken = true) (hp : (getSlot g b i).psl.toNat < d)
    (hm : (getSlot g b i).psl.toNat ≠ Config.maxPsl) :
    Carried g e P (setSlot g b i (c.toSlot d)) (nextIndex i e) ((getSlot g b i).psl.toNat + 1)
      (getSlot g b i).candidate := by
  obtain ⟨hlt, hplace⟩ := hb.distance i hc.lt ht
  have hsame : getSlot g (setSlot g b i (c.toSlot d)) i = c.toSlot d := getSlot_setSlot_same hb.wf i hc.sane
  have hgood := hc.fill_richer hb.toProbed hg he hp.le
  refine ⟨?_, ?_, ?_, hb.entry i hc.lt ht, ⟨(getSlot_sane hb.wf g i).wf, (getSlot_sane hb.wf g i).inside⟩,
    fun m hmp => ?_, fun j hj hjt hk => ?_⟩
  · show nextIndex i e = (home (getSlot g b i).th e + ((getSlot g b i).psl.toNat + 1)) % 2 ^ e
    rw [← nextIndex_add, hplace]
  · have := hc.inside
    omega
  · have := (getSlot g b i).psl.isLt
    simp only [Config.maxPsl] at hm ⊢
    omega
  · refine hgood.run_back (s := home (getSlot g b i).th e) (q := (getSlot g b i).psl.toNat) ?_ ?_ (by omega)
    · rw [hplace, hsame]; rfl
    · rw [hplace, hsame, toSlot_psl_toNat c hc.fits]; omega
  · have hji : j = i := by
      by_contra hne
      rw [getSlot_setSlot hg hb.wf i j hc.sane, if_neg hne] at hjt hk
      exact hne (hb.distinct j i hj hc.lt hjt ht hk)
    subst hji
    rw [hsame] at hk
    exact absurd hk.symm (habs j hc.lt ht)

/-- The outcomes of a walk after a theft are outcomes of the walk before it: the stolen entry is placed, for its key
stands nowhere else. -/
theorem WalkKeeps.of_steal (hc : Carried g e P b i d c) (hb : GoodArray g e P b) (hg : g.fits)
    (habs : ∀ j, j < 2 ^ e → (getSlot g b j).taken = true → (getSlot g b j).key ≠ c.key)
    (ht : (getSlot g b i).taken = true) {r : WalkResult}
    (h : WalkKeeps g e P (setSlot g b i (c.toSlot d)) (getSlot g b i).candidate r) : WalkKeeps g e P b c r := by
  have hmid := holds_setSlot_taken hg hb.wf hb.distinct hc.lt hc.sane rfl ht
  have hold : Holds g e b (getSlot g b i).candidate := ⟨i, hc.lt, ht, rfl⟩
  have hfresh : ∀ x, Holds g e b x → x.key ≠ c.key := by
    rintro x ⟨j, hj, hjt, rfl⟩
    exact habs j hj hjt
  refine ⟨fun r hr => ?_, fun r hr => ?_⟩
  · have hp := h.placed r hr
    refine ⟨hp.good, fun x => ?_, hfresh⟩
    rw [hp.holds, hmid]
    constructor
    · rintro ((⟨hx, _⟩ | hx) | rfl)
      · exact .inl hx
      · exact .inr hx
      · exact .inl hold
    · rintro (hx | hx)
      · by_cases hk : x.key = (getSlot g b i).key
        · exact .inr (hx.unique hb.distinct hold hk)
        · exact .inl (.inl ⟨hx, hk⟩)
      · exact .inl (.inr hx)
  · obtain ⟨x, hx, hk⟩ := (h.replaced r hr).found
    rcases (hmid x).mp hx with ⟨_, hne⟩ | rfl
    · exact absurd hk hne
    · exact absurd hk.symm (hfresh _ hold)

/-- The outcome at an empty slot. -/
theorem Carried.placedIn (hc : Carried g e P b i d c) (hb : GoodArray g e P b) (hg : g.fits) (he : 1 ≤ e)
    (hP : ∀ t t' k, P t k → P t' k → t = t') (hf : (getSlot g b i).taken = false) :
    PlacedIn g e P b c (setSlot g b i (c.toSlot d)) := by
  have habs : ∀ j, j < 2 ^ e → (getSlot g b j).taken = true → (getSlot g b j).key ≠ c.key := fun j hj ht =>
    hc.absent hb.toProbed hP (fun h => by rw [hf] at h; cases h) hj ht
  have hprobed : Probed g e P (setSlot g b i (c.toSlot d)) := hc.fill hb.toProbed hg he fun h h' => by
    have := (hb.order i hc.lt h h').1
    rw [hf] at this
    cases this
  refine ⟨⟨hprobed, hb.distinct.fillSlot hg hb.wf hc.sane fun j hj _ => habs j hj⟩,
    holds_setSlot_empty hg hb.wf hc.lt hc.sane rfl hf, ?_⟩
  rintro x ⟨j, hj, hjt, rfl⟩
  exact habs j hj hjt

/-- The outcome at a slot that matches: it stands at the same distance, so only its item changes. -/
theorem Carried.replacedIn (hc : Carried g e P b i d c) (hb : GoodArray g e P b) (hg : g.fits) (he : 1 ≤ e)
    (ht : (getSlot g b i).taken = true) (hth : (getSlot g b i).th = c.th) (hk : (getSlot g b i).key = c.key) :
    ReplacedIn g e P b c (setSlot g b i { getSlot g b i with item := c.item, psl := BitVec.ofNat 11 d }) := by
  have hslot : ({ getSlot g b i with item := c.item, psl := BitVec.ofNat 11 d } : Slot) = c.toSlot d := by
    rw [Candidate.toSlot, ← hth, ← hk, ← ht]
  have hpsl : (getSlot g b i).psl.toNat = d := by
    obtain ⟨hlt, hplace⟩ := hb.distance i hc.lt ht
    rw [hth] at hplace
    exact Nat.ModEq.add_left_cancel' _ (hplace.trans hc.place) |>.eq_of_lt_of_lt hlt hc.inside
  rw [hslot]
  refine ⟨⟨hc.fill_richer hb.toProbed hg he hpsl.le, hb.distinct.fillSlot hg hb.wf hc.sane fun j hj hji hjt hjk =>
    hji (hb.distinct j i hj hc.lt hjt ht (hjk.trans hk.symm))⟩, fun x => ?_, ⟨_, ⟨i, hc.lt, ht, rfl⟩, hk⟩⟩
  rw [holds_setSlot_taken hg hb.wf hb.distinct hc.lt hc.sane rfl ht, hk]
  rfl

/-- The loop of InsertWalk on a good array with an empty slot. -/
theorem insertLoop_keeps_good (hg : g.fits) (he : 1 ≤ e) (hP : ∀ t t' k, P t k → P t' k → t = t') (bound : Nat)
    (hb : GoodArray g e P b) (hf : ∃ j, j < 2 ^ e ∧ (getSlot g b j).taken = false) (hc : Carried g e P b i d c) :
    WalkKeeps g e P b c (insertLoop g e bound b i d c) := by
  induction bound generalizing b i d c with
  | zero => exact .overflow
  | succ bound ih =>
    rw [insertLoop_succ]
    split_ifs with h1 h2 h3 h4 h5
    · exact (hc.placedIn hb hg he hP h1).walkKeeps
    · exact (hc.replacedIn hb hg he (by simpa using h1) h2.1 h2.2).walkKeeps
    · exact .overflow
    · have ht : (getSlot g b i).taken = true := by simpa using h1
      have habs : ∀ j, j < 2 ^ e → (getSlot g b j).taken = true → (getSlot g b j).key ≠ c.key := fun j hj hjt =>
        hc.absent hb.toProbed hP (fun _ => h3) hj hjt
      have hc' := hc.steal hb hg he habs ht h3 h4
      refine WalkKeeps.of_steal hc hb hg habs ht (ih ⟨hc.fill_richer hb.toProbed hg he (le_of_lt h3), ?_⟩ ?_ hc')
      · exact hb.distinct.fillSlot hg hb.wf hc.sane fun j hj _ => habs j hj
      · obtain ⟨j, hj, hjf⟩ := hf
        have hji : j ≠ i := by rintro rfl; rw [ht] at hjf; cases hjf
        exact ⟨j, hj, by rw [getSlot_setSlot hg hb.wf i j hc.sane, if_neg hji, hjf]⟩
    · exact .overflow
    · exact ih hb hf (hc.pass hb.toProbed hP hf (by simpa using h1) h2 (by omega) h5)

/-- InsertWalk on a good array with an empty slot (spec/41_probe_engine.md R202). -/
theorem insertWalk_keeps_good (hg : g.fits) (he : 1 ≤ e) (hP : ∀ t t' k, P t k → P t' k → t = t')
    (hb : GoodArray g e P b) (hf : ∃ j, j < 2 ^ e ∧ (getSlot g b j).taken = false) (hc : P c.th c.key)
    (hs : (c.toSlot 0).Sane g) : WalkKeeps g e P b c (insertWalk g e b c) := by
  have hstart : Carried g e P b (home c.th e) 0 c :=
    { place := by rw [Nat.add_zero, Nat.mod_eq_of_lt (home_lt c.th e)]
      inside := Nat.two_pow_pos e
      fits := Nat.zero_le _
      entry := hc
      sane := hs
      behind := fun m hm => absurd hm (Nat.not_lt_zero m)
      ahead := fun _ _ _ _ => Nat.zero_le _ }
  exact insertLoop_keeps_good hg he hP (insertBound e) hb hf hstart

end

/-! ## The count of taken slots -/

/-- A placing walk makes one more slot taken, a replacing walk none, from any loop state of any array. -/
theorem countTaken_insertLoop {g : Geometry} (hg : g.fits) {e bound : Nat} {b : Memory} {i d : Nat} {c : Candidate}
    (hb : b.wf = true) (hi : i < 2 ^ e) (hc : (c.toSlot d).Sane g) :
    (∀ r, insertLoop g e bound b i d c = .placed r → countTaken g r (2 ^ e) 0 = countTaken g b (2 ^ e) 0 + 1) ∧
    (∀ r, insertLoop g e bound b i d c = .replaced r → countTaken g r (2 ^ e) 0 = countTaken g b (2 ^ e) 0) := by
  induction bound generalizing b i d c with
  | zero => simp [insertLoop]
  | succ bound ih =>
    have hset : ∀ s : Slot, s.Sane g → s.taken = true → countTaken g (setSlot g b i s) (2 ^ e) 0 +
        (if (getSlot g b i).taken = true then 1 else 0) = countTaken g b (2 ^ e) 0 + 1 := fun s hs ht => by
      rw [countTaken_setSlot hg hb hi hs, if_pos ht]
    rw [insertLoop_succ]
    split_ifs with h1 h2 h3 h4 h5
    · have := hset _ hc rfl
      rw [if_neg (by simp [h1])] at this
      exact ⟨fun r h => (by cases h; exact this), fun r h => (by cases h)⟩
    · rw [Bool.not_eq_false] at h1
      have := hset { getSlot g b i with item := c.item, psl := BitVec.ofNat 11 d } ⟨hc.wf, hc.inside⟩ h1
      rw [if_pos h1] at this
      exact ⟨fun r h => (by cases h), fun r h => (by cases h; exact Nat.add_right_cancel this)⟩
    · exact ⟨fun r h => (by cases h), fun r h => (by cases h)⟩
    · rw [Bool.not_eq_false] at h1
      have hcount := hset _ hc rfl
      rw [if_pos h1] at hcount
      have hold := ih (b := setSlot g b i (c.toSlot d)) (d := (getSlot g b i).psl.toNat + 1)
        (c := (getSlot g b i).candidate) (wf_setSlot hb g i _) (nextIndex_lt i e)
        ⟨(getSlot_sane hb g i).wf, (getSlot_sane hb g i).inside⟩
      rwa [Nat.add_right_cancel hcount] at hold
    · exact ⟨fun r h => (by cases h), fun r h => (by cases h)⟩
    · exact ih hb (nextIndex_lt i e) ⟨hc.wf, hc.inside⟩

theorem countTaken_insertWalk_placed {g : Geometry} (hg : g.fits) {e : Nat} {a b : Memory} {c : Candidate}
    (ha : a.wf = true) (hc : (c.toSlot 0).Sane g) (h : insertWalk g e a c = .placed b) :
    countTaken g b (2 ^ e) 0 = countTaken g a (2 ^ e) 0 + 1 :=
  (countTaken_insertLoop hg ha (home_lt _ _) hc).1 b h

theorem countTaken_insertWalk_replaced {g : Geometry} (hg : g.fits) {e : Nat} {a b : Memory} {c : Candidate}
    (ha : a.wf = true) (hc : (c.toSlot 0).Sane g) (h : insertWalk g e a c = .replaced b) :
    countTaken g b (2 ^ e) 0 = countTaken g a (2 ^ e) 0 :=
  (countTaken_insertLoop hg ha (home_lt _ _) hc).2 b h

end Sys2Proof.Machine
end

section
/-! SUPPORT. What the backward shift and the reinsertion of a resize do to a good array (spec/41_probe_engine.md R209 to
R215, spec/10_state.md R55, R56). -/

namespace Sys2Proof.Machine

section
variable {g : Geometry} {e : Nat} {P : BitVec 20 → KeyBuf → Prop} {a : Memory} {i : Nat}

/-! ## The backward shift -/

/-- The shift starts at a slot whose key must go: with that slot emptied the other keys are as distinct as before. -/
theorem DistinctKeys.clearSlot (ha : DistinctKeys g e a) (hg : g.fits) (hm : a.wf = true) (i : Nat) :
    DistinctKeys g e (setSlot g a i Slot.empty) := by
  intro j l hj hl
  rw [getSlot_setSlot hg hm i j (Slot.empty_sane g), getSlot_setSlot hg hm i l (Slot.empty_sane g)]
  split_ifs with h1 h2 h2
  · exact fun h => absurd h (by decide)
  · exact fun h => absurd h (by decide)
  · exact fun _ h => absurd h (by decide)
  · exact ha j l hj hl

/-- Emptying a taken slot takes its entry out. -/
theorem holds_clearSlot (hg : g.fits) (hm : a.wf = true) (hd : DistinctKeys g e a) (hi : i < 2 ^ e)
    (ht : (getSlot g a i).taken = true) (x : Candidate) :
    Holds g e (setSlot g a i Slot.empty) x ↔ Holds g e a x ∧ x.key ≠ (getSlot g a i).key := by
  constructor
  · rintro ⟨j, hj, hjt, rfl⟩
    rw [getSlot_setSlot hg hm i j (Slot.empty_sane g)] at hjt ⊢
    split_ifs at hjt ⊢ with h
    · exact absurd hjt (by decide)
    · exact ⟨⟨j, hj, hjt, rfl⟩, fun hk => h (hd j i hj hi hjt ht hk)⟩
  · rintro ⟨⟨j, hj, hjt, rfl⟩, hk⟩
    have h : j ≠ i := by rintro rfl; exact hk rfl
    have hs : getSlot g (setSlot g a i Slot.empty) j = getSlot g a j := by
      rw [getSlot_setSlot hg hm i j (Slot.empty_sane g), if_neg h]
    exact ⟨j, hj, by rw [hs, hjt], by rw [hs]⟩

/-- One shift: the entry of slot `j` moves to slot `i`, and slot `j` is the one to fill or empty next. -/
def shiftOne (g : Geometry) (a : Memory) (i j : Nat) : Memory :=
  setSlot g a i { getSlot g a j with psl := BitVec.ofNat 11 ((getSlot g a j).psl.toNat - 1) }

theorem getSlot_shiftOne (hg : g.fits) (hm : a.wf = true) (i j l : Nat) :
    getSlot g (shiftOne g a i j) l =
      if l = i then { getSlot g a j with psl := BitVec.ofNat 11 ((getSlot g a j).psl.toNat - 1) } else getSlot g a l :=
  getSlot_setSlot hg hm i l ⟨(getSlot_sane hm g j).wf, (getSlot_sane hm g j).inside⟩

theorem wf_shiftOne (hm : a.wf = true) (i j : Nat) : (shiftOne g a i j).wf = true := wf_setSlot hm _ _ _

/-- After a shift every slot but the one left behind holds what the slot it came from held. -/
theorem getSlot_shiftOne_clear (hg : g.fits) (hm : a.wf = true) {i j l : Nat} (hij : j ≠ i) (hl : l ≠ j) :
    (getSlot g (setSlot g (shiftOne g a i j) j Slot.empty) l).taken =
        (getSlot g (setSlot g a i Slot.empty) (if l = i then j else l)).taken ∧
      (getSlot g (setSlot g (shiftOne g a i j) j Slot.empty) l).candidate =
        (getSlot g (setSlot g a i Slot.empty) (if l = i then j else l)).candidate := by
  rw [getSlot_setSlot hg (wf_shiftOne hm i j) j l (Slot.empty_sane g), if_neg hl, getSlot_shiftOne hg hm,
    getSlot_setSlot hg hm i _ (Slot.empty_sane g)]
  by_cases h : l = i
  · simp [h, hij, Slot.candidate]
  · simp [h]

theorem distinctKeys_shiftOne (hg : g.fits) (hm : a.wf = true) {i j : Nat} (hij : j ≠ i) (hj : j < 2 ^ e)
    (hd : DistinctKeys g e (setSlot g a i Slot.empty)) :
    DistinctKeys g e (setSlot g (shiftOne g a i j) j Slot.empty) := by
  intro l m hl hm' hlt hmt hk
  have hne : ∀ x, (getSlot g (setSlot g (shiftOne g a i j) j Slot.empty) x).taken = true → x ≠ j := by
    rintro x hx rfl
    rw [getSlot_setSlot_same (wf_shiftOne hm i x) x (Slot.empty_sane g)] at hx
    cases hx
  obtain ⟨hl1, hl2⟩ := getSlot_shiftOne_clear hg hm hij (hne l hlt)
  obtain ⟨hm1, hm2⟩ := getSlot_shiftOne_clear hg hm hij (hne m hmt)
  have hkl := congrArg Candidate.key hl2
  have hkm := congrArg Candidate.key hm2
  simp only [Slot.candidate] at hkl hkm
  have hsrc : (if l = i then j else l) = if m = i then j else m := by
    refine hd _ _ ?_ ?_ (hl1 ▸ hlt) (hm1 ▸ hmt) ?_
    · split_ifs <;> assumption
    · split_ifs <;> assumption
    · rw [← hkl, ← hkm, hk]
  have hlj := hne l hlt
  have hmj := hne m hmt
  by_cases h1 : l = i <;> by_cases h2 : m = i
  · rw [h1, h2]
  · rw [if_pos h1, if_neg h2] at hsrc
    exact absurd hsrc.symm hmj
  · rw [if_neg h1, if_pos h2] at hsrc
    exact absurd hsrc hlj
  · rwa [if_neg h1, if_neg h2] at hsrc

theorem holds_shiftOne (hg : g.fits) (hm : a.wf = true) {i j : Nat} (hij : j ≠ i) (hi : i < 2 ^ e) (hj : j < 2 ^ e)
    (x : Candidate) : Holds g e (setSlot g (shiftOne g a i j) j Slot.empty) x ↔
      Holds g e (setSlot g a i Slot.empty) x := by
  constructor
  · rintro ⟨l, hl, hlt, rfl⟩
    have hne : l ≠ j := by
      rintro rfl
      rw [getSlot_setSlot_same (wf_shiftOne hm i l) l (Slot.empty_sane g)] at hlt
      cases hlt
    obtain ⟨h1, h2⟩ := getSlot_shiftOne_clear hg hm hij hne
    exact ⟨if l = i then j else l, by split_ifs <;> assumption, by rw [← h1, hlt], h2.symm⟩
  · rintro ⟨l, hl, hlt, rfl⟩
    have hne : l ≠ i := by
      rintro rfl
      rw [getSlot_setSlot_same hm l (Slot.empty_sane g)] at hlt
      cases hlt
    by_cases h : l = j
    · obtain ⟨h1, h2⟩ := getSlot_shiftOne_clear hg hm hij (Ne.symm hij)
      rw [if_pos rfl, ← h] at h1 h2
      exact ⟨i, hi, by rw [← h, h1, hlt], by rw [← h, h2]⟩
    · obtain ⟨h1, h2⟩ := getSlot_shiftOne_clear hg hm hij h
      rw [if_neg hne] at h1 h2
      exact ⟨l, hl, by rw [h1, hlt], h2⟩

/-- A shift into a taken slot keeps the array in order, its stale copy at the slot left behind included. -/
theorem Probed.shiftOne (ha : Probed g e P a) (hg : g.fits) (he : 1 ≤ e) (hi : i < 2 ^ e)
    (ht : (getSlot g a (nextIndex i e)).taken = true) (hp : 0 < (getSlot g a (nextIndex i e)).psl.toNat) :
    Probed g e P (shiftOne g a i (nextIndex i e)) := by
  have hpsl : (BitVec.ofNat 11 ((getSlot g a (nextIndex i e)).psl.toNat - 1)).toNat =
      (getSlot g a (nextIndex i e)).psl.toNat - 1 := by
    have := (getSlot g a (nextIndex i e)).psl.isLt
    rw [BitVec.toNat_ofNat]
    omega
  obtain ⟨hlt, hplace⟩ := ha.distance (nextIndex i e) (nextIndex_lt i e) ht
  obtain ⟨hit, hle⟩ := ha.order i hi ht hp
  refine ha.fillSlot hg he hi ⟨(getSlot_sane ha.wf g _).wf, (getSlot_sane ha.wf g _).inside⟩ ?_
    (ha.entry _ (nextIndex_lt i e) ht) ht (fun l hl hli hpos => ?_) (fun _ _ => ?_)
  · simp only [hpsl]
    refine ⟨by omega, nextIndex_inj (Nat.mod_lt _ (Nat.two_pow_pos e)) hi ?_⟩
    rw [nextIndex_add, Nat.sub_add_cancel hp, hplace]
  · simp only [hpsl] at hpos ⊢
    subst hli
    obtain ⟨hlt, hle'⟩ := ha.order l hl hit (by omega)
    exact ⟨hlt, by omega⟩
  · simp only [hpsl]
    omega

/-- The loop of BackwardShift from a good array with a slot to fill: it stops at the latest before an empty slot, its
bound set aside, and leaves the array good, with the entries that stood outside the slot it started from. -/
theorem shiftLoop_keeps_good (hg : g.fits) (he : 1 ≤ e) {bound k prev : Nat} (ha : Probed g e P a) (hp : prev < 2 ^ e)
    (ht : (getSlot g a prev).taken = true) (hd : DistinctKeys g e (setSlot g a prev Slot.empty)) (hk : k < bound)
    (hf : (getSlot g a ((nextIndex prev e + k) % 2 ^ e)).taken = false) :
    GoodArray g e P (shiftLoop g e bound a prev (nextIndex prev e)) ∧
      (∀ x, Holds g e (shiftLoop g e bound a prev (nextIndex prev e)) x ↔
        Holds g e (setSlot g a prev Slot.empty) x) ∧
      countTaken g (shiftLoop g e bound a prev (nextIndex prev e)) (2 ^ e) 0 + 1 = countTaken g a (2 ^ e) 0 := by
  induction bound generalizing a k prev with
  | zero => omega
  | succ bound ih =>
    rw [shiftLoop_succ]
    have hne := nextIndex_ne he hp
    have hlt := nextIndex_lt prev e
    split_ifs with hc
    · obtain ⟨hct, hcp⟩ := hc
      cases k with
      | zero => rw [Nat.add_zero, Nat.mod_eq_of_lt hlt, hct] at hf; cases hf
      | succ k =>
        have hnext : (getSlot g (shiftOne g a prev (nextIndex prev e)) (nextIndex prev e)) =
            getSlot g a (nextIndex prev e) := by rw [getSlot_shiftOne hg ha.wf, if_neg hne]
        have hfar : (nextIndex (nextIndex prev e) e + k) % 2 ^ e = (nextIndex prev e + (k + 1)) % 2 ^ e := by
          rw [nextIndex_eq (nextIndex prev e), Nat.mod_add_mod, Nat.add_assoc, Nat.add_comm 1 k]
        obtain ⟨hgood, hholds, hcount⟩ := ih (k := k) (ha.shiftOne hg he hp hct hcp) hlt (by rw [hnext, hct])
          (distinctKeys_shiftOne hg ha.wf hne hlt hd) (by omega) (by
            rw [hfar, getSlot_shiftOne hg ha.wf, if_neg, hf]
            rintro heq
            rw [heq, ht] at hf
            cases hf)
        refine ⟨hgood, fun x => (hholds x).trans (holds_shiftOne hg ha.wf hne hp hlt x), hcount.trans ?_⟩
        have hset := countTaken_setSlot hg ha.wf hp
          (c := { getSlot g a (nextIndex prev e) with
            psl := BitVec.ofNat 11 ((getSlot g a (nextIndex prev e)).psl.toNat - 1) })
          ⟨(getSlot_sane ha.wf g _).wf, (getSlot_sane ha.wf g _).inside⟩
        rw [if_pos ht, if_pos hct] at hset
        exact Nat.add_right_cancel hset
    · refine ⟨⟨ha.clearSlot hg he fun h => ?_, hd⟩, fun _ => Iff.rfl, ?_⟩
      · by_contra hpos
        exact hc ⟨h, by omega⟩
      · have hset := countTaken_setSlot hg ha.wf hp (Slot.empty_sane g)
        rw [if_pos ht, if_neg (by decide)] at hset
        exact hset

/-- BackwardShift of a taken slot of a good array with an empty slot (spec/41_probe_engine.md R209). -/
theorem backwardShift_keeps_good (hg : g.fits) (he : 1 ≤ e) (ha : GoodArray g e P a) (hi : i < 2 ^ e)
    (ht : (getSlot g a i).taken = true) (hf : ∃ j, j < 2 ^ e ∧ (getSlot g a j).taken = false) :
    GoodArray g e P (backwardShift g e a i) ∧
      (∀ x, Holds g e (backwardShift g e a i) x ↔ Holds g e a x ∧ x.key ≠ (getSlot g a i).key) ∧
      countTaken g (backwardShift g e a i) (2 ^ e) 0 + 1 = countTaken g a (2 ^ e) 0 := by
  obtain ⟨j, hj, hjf⟩ := hf
  obtain ⟨k, hk, rfl⟩ := exists_distance (nextIndex_lt i e) hj
  have hbound : k < shiftBound e := hk.trans_le (Nat.pow_le_pow_right (by decide) (by omega))
  obtain ⟨hgood, hholds, hcount⟩ := shiftLoop_keeps_good hg he ha.toProbed hi ht (ha.distinct.clearSlot hg ha.wf i)
    hbound hjf
  exact ⟨hgood, fun x => (hholds x).trans (holds_clearSlot hg ha.wf ha.distinct hi ht x), hcount⟩

/-! ## The reinsertion of a resize -/

/-- Reinserting the first `n` slots of a good array into an array of `2^eNew` empty slots, if their entries leave one of
those empty: the new array is good and holds just those entries (spec/41_probe_engine.md R211, R212). -/
theorem reinsert_keeps_good (hg : g.fits) {eNew : Nat} (heNew : 1 ≤ eNew) (hP : ∀ t t' k, P t k → P t' k → t = t')
    (ha : GoodArray g e P a) {n : Nat} (hn : n ≤ 2 ^ e) (hc : countTaken g a n 0 < 2 ^ eNew) {b : Memory}
    (h : reinsert g a eNew n 0 [] = some b) :
    GoodArray g eNew P b ∧
      (∀ x, Holds g eNew b x ↔ ∃ i, i < n ∧ (getSlot g a i).taken = true ∧ (getSlot g a i).candidate = x) ∧
      countTaken g b (2 ^ eNew) 0 = countTaken g a n 0 := by
  induction n generalizing b with
  | zero =>
    cases h
    exact ⟨goodArray_nil g eNew P, fun x => ⟨fun hx => absurd hx (not_holds_nil g eNew x), fun ⟨i, hi, _⟩ => by omega⟩,
      countTaken_nil g _ _⟩
  | succ n ih =>
    rw [reinsert_succ] at h
    obtain ⟨m, hm, h⟩ := Option.bind_eq_some_iff.mp h
    have hle := countTaken_mono g a (Nat.le_add_right n 1)
    obtain ⟨hgood, hholds, hcount⟩ := ih (by omega) (by omega) hm
    rw [countTaken_succ]
    split_ifs at h ⊢ with ht
    · have hs := getSlot_sane ha.wf g n
      have hsane : ((getSlot g a n).candidate.toSlot 0).Sane g := ⟨hs.wf, hs.inside⟩
      have hwalk := insertWalk_keeps_good hg heNew hP hgood (exists_empty_of_countTaken_lt (by omega))
        (ha.entry n (by omega) ht) hsane
      cases hw : insertWalk g eNew m (getSlot g a n).candidate with
      | placed r =>
        rw [hw] at h
        cases h
        have hp := hwalk.placed b hw
        refine ⟨hp.good, fun x => ?_, ?_⟩
        · rw [hp.holds, hholds]
          constructor
          · rintro (⟨i, hi, hx⟩ | rfl)
            · exact ⟨i, by omega, hx⟩
            · exact ⟨n, by omega, ht, rfl⟩
          · rintro ⟨i, hi, hit, rfl⟩
            rcases Nat.eq_or_lt_of_le (show i ≤ n by omega) with rfl | hlt
            · exact .inr rfl
            · exact .inl ⟨i, hlt, hit, rfl⟩
        · rw [countTaken_insertWalk_placed hg hgood.wf hsane hw, hcount]
      | replaced r =>
        obtain ⟨x, hx, hk⟩ := (hwalk.replaced r hw).found
        obtain ⟨i, hi, hit, rfl⟩ := (hholds x).mp hx
        have := ha.distinct i n (by omega) (by omega) hit ht hk
        omega
      | overflow => rw [hw] at h; cases h
    · cases h
      refine ⟨hgood, fun x => (hholds x).trans ⟨fun ⟨i, hi, hx⟩ => ⟨i, by omega, hx⟩, ?_⟩, hcount⟩
      rintro ⟨i, hi, hit, rfl⟩
      rcases Nat.eq_or_lt_of_le (show i ≤ n by omega) with rfl | hlt
      · exact absurd hit ht
      · exact ⟨i, hlt, hit, rfl⟩

end

end Sys2Proof.Machine
end

section
/-! SUPPORT. The table as a whole: what INV1 to INV6 (spec/10_state.md R55, R56) say of it in terms of its array, and
what each operation of a command or of a host write does to its shape and to its invariants. -/

namespace Sys2Proof.Machine

/-! ## Keys and truncated hashes (INV5) -/

/-- A number determines the zero-free byte string that it spells. -/
theorem leValue_inj {k l : List Byte} (hk : ∀ b ∈ k, b ≠ 0#8) (hl : ∀ b ∈ l, b ≠ 0#8) (h : leValue k = leValue l) :
    k = l := by
  have hpos : ∀ b : Byte, b ≠ 0#8 → 0 < b.toNat := fun b hb =>
    Nat.pos_of_ne_zero fun h => hb (BitVec.eq_of_toNat_eq h)
  induction k generalizing l with
  | nil =>
    cases l with
    | nil => rfl
    | cons c l =>
      have := hpos c (hl c (by simp))
      simp only [leValue] at h
      omega
  | cons b k ih =>
    have hb := hpos b (hk b (by simp))
    cases l with
    | nil =>
      simp only [leValue] at h
      omega
    | cons c l =>
      have hbl := b.isLt
      have hcl := c.isLt
      simp only [leValue] at h
      have hbc : b = c := BitVec.eq_of_toNat_eq (by omega)
      subst hbc
      rw [ih (l := l) (fun x hx => hk x (by simp [hx])) (fun x hx => hl x (by simp [hx])) (by omega)]

theorem normalKey_inj {k l : List Byte} (hk : validKey k) (hl : validKey l) (h : normalKey k = normalKey l) :
    k = l := by
  obtain ⟨_, hklen, hk0⟩ := hk
  obtain ⟨_, hllen, hl0⟩ := hl
  have hlt : ∀ m : List Byte, m.length ≤ Config.keyMax → leValue m < 2 ^ 160 := fun m hm =>
    (leValue_lt m).trans_le ((Nat.pow_le_pow_right (by decide) hm).trans (by decide))
  refine leValue_inj hk0 hl0 ?_
  have := congrArg BitVec.toNat h
  simpa only [normalKey, BitVec.toNat_ofNat, Nat.mod_eq_of_lt (hlt k hklen), Nat.mod_eq_of_lt (hlt l hllen)] using this

/-- The truncated hash and the key buffer are those of one valid key under a secret (INV5). -/
def HashEntry (v : Env) (sec : Secret) (th : BitVec 20) (key : KeyBuf) : Prop :=
  ∃ k, validKey k ∧ key = normalKey k ∧ th = (v.keyedHash k sec).setWidth 20

/-- Equal keys have equal truncated hashes. -/
theorem HashEntry.th_unique {v : Env} {sec : Secret} (t t' : BitVec 20) (key : KeyBuf) (h : HashEntry v sec t key)
    (h' : HashEntry v sec t' key) : t = t' := by
  obtain ⟨k, hk, rfl, rfl⟩ := h
  obtain ⟨l, hl, hkl, rfl⟩ := h'
  rw [normalKey_inj hk hl hkl]

/-- A key operand that passed its check is one (spec/43_map_commands.md R298). -/
theorem hashEntry_of_getKey {s : State} {k : Bool} {key : KeyOperand} (h : s.getKey k = .ok key) :
    HashEntry s.env s.tab.secret key.th key.key := by
  rcases getKey_cases s k with ⟨_, he⟩ | ⟨_, _, he⟩ | ⟨_, h1, h2, h3, he⟩
  · rw [he] at h; cases h
  · rw [he] at h; cases h
  · rw [he] at h
    cases h
    exact ⟨_, ⟨by simpa using h1, by simpa using h2, fun b hb hb0 => h3 (hb0 ▸ hb)⟩, rfl, rfl⟩

/-- The keyed hash rests on the known answers only. -/
theorem keyedHash_congr {v w : Env} (h : w.hashes = v.hashes) (k : List Byte) (sec : Secret) :
    w.keyedHash k sec = v.keyedHash k sec := by
  simp only [Env.keyedHash, h]

/-! ## INV3 to INV6 of a table, as facts of its array -/

/-- A distance from a home index, by subtraction and by addition. -/
theorem distance_iff {n h i p : Nat} (hh : h < n) (hi : i < n) :
    p = (i + n - h) % n ↔ p < n ∧ (h + p) % n = i := by
  have hmod : (i + n - h) % n = if h ≤ i then i - h else i + n - h := by
    split_ifs with hle
    · rw [show i + n - h = (i - h) + n by omega, Nat.add_mod_right, Nat.mod_eq_of_lt (by omega)]
    · exact Nat.mod_eq_of_lt (by omega)
  rw [hmod]
  constructor
  · rintro rfl
    split_ifs with hle
    · exact ⟨by omega, by rw [Nat.add_sub_cancel' hle, Nat.mod_eq_of_lt hi]⟩
    · exact ⟨by omega, by rw [Nat.add_sub_cancel' (by omega), Nat.add_mod_right, Nat.mod_eq_of_lt hi]⟩
  · rintro ⟨hp, hpi⟩
    by_cases hlt : h + p < n
    · rw [Nat.mod_eq_of_lt hlt] at hpi
      rw [if_pos (by omega)]
      omega
    · rw [Nat.mod_eq_sub_mod (by omega), Nat.mod_eq_of_lt (by omega)] at hpi
      rw [if_neg (by omega)]
      omega

/-- The slot before a slot, and the slot after that. -/
theorem prevIndex_nextIndex {e i : Nat} (hi : i < 2 ^ e) : (nextIndex i e + 2 ^ e - 1) % 2 ^ e = i := by
  rw [nextIndex_eq]
  by_cases h : i + 1 < 2 ^ e
  · rw [Nat.mod_eq_of_lt h, show i + 1 + 2 ^ e - 1 = i + 2 ^ e by omega, Nat.add_mod_right, Nat.mod_eq_of_lt hi]
  · rw [show i + 1 = 2 ^ e by omega, Nat.mod_self, Nat.mod_eq_of_lt (by omega)]
    omega

theorem nextIndex_prevIndex {e i : Nat} (hi : i < 2 ^ e) : nextIndex ((i + 2 ^ e - 1) % 2 ^ e) e = i := by
  have := Nat.two_pow_pos e
  rw [nextIndex_eq, Nat.mod_add_mod, show i + 2 ^ e - 1 + 1 = i + 2 ^ e by omega, Nat.add_mod_right,
    Nat.mod_eq_of_lt hi]

/-- The array of a table is good for the table's sizes, secret and hash. -/
def Table.ArrayGood (t : Table) (v : Env) : Prop := GoodArray t.geometry t.e.toNat (HashEntry v t.secret) t.array

theorem Table.Inv.arrayGood {t : Table} {v : Env} (h : t.Inv v) : t.ArrayGood v where
  wf := h.stored.1
  distance i hi ht := (distance_iff (home_lt _ _) hi).mp (h.distances i ⟨hi, ht⟩)
  order i hi ht hp := by
    obtain ⟨h1, h2⟩ := h.robinHood (nextIndex i t.e.toNat) ⟨nextIndex_lt i _, ht⟩ hp
    rw [show t.cap = 2 ^ t.e.toNat from rfl, prevIndex_nextIndex hi] at h1 h2
    exact ⟨h1.2, h2⟩
  entry i hi ht := h.hashed i ⟨hi, ht⟩
  distinct i j hi hj hit hjt hk := h.uniqueKeys i j ⟨hi, hit⟩ ⟨hj, hjt⟩ hk

theorem Table.ArrayGood.inv {t : Table} {v : Env} (h : t.ArrayGood v) (hb : t.bounds) (hc : t.counted) (hs : t.sized v)
    (hst : t.stored) : t.Inv v where
  bounds := hb
  counted := hc
  uniqueKeys i j hi hj hk := h.distinct i j hi.1 hj.1 hi.2 hj.2 hk
  distances i hi := (distance_iff (home_lt _ _) hi.1).mpr (h.distance i hi.1 hi.2)
  hashed i hi := h.entry i hi.1 hi.2
  robinHood i hi hp := by
    have hlt : (i + t.cap - 1) % t.cap < t.cap := Nat.mod_lt _ (Nat.two_pow_pos _)
    have ho := h.order ((i + t.cap - 1) % t.cap) hlt
    rw [show t.cap = 2 ^ t.e.toNat from rfl, nextIndex_prevIndex hi.1] at ho
    obtain ⟨h1, h2⟩ := ho hi.2 hp
    exact ⟨⟨hlt, h1⟩, h2⟩
  sized := hs
  stored := hst

theorem Table.takenCount_zero (t : Table) : t.takenCount 0 = countTaken t.geometry t.array (2 ^ t.e.toNat) 0 := rfl

/-- A good table counts its taken slots, and one of them is empty. -/
theorem Table.Inv.exists_empty {t : Table} {v : Env} (h : t.Inv v) :
    ∃ j, j < 2 ^ t.e.toNat ∧ (getSlot t.geometry t.array j).taken = false := by
  have hc := h.counted
  have hb := h.bounds.2.2
  rw [Table.counted, Table.takenCount_zero] at hc
  exact exists_empty_of_countTaken_lt (hc ▸ hb)

/-! ## Shape -/

/-- The shape of one table: the exponent's range, the sizes, the allocations. -/
structure Table.Shaped (t : Table) (v : Env) : Prop where
  exponent : Config.minExp ≤ t.e.toNat ∧ t.e.toNat ≤ Config.maxExp
  sized : t.sized v
  stored : t.stored

theorem Table.Inv.shaped {t : Table} {v : Env} (h : t.Inv v) : t.Shaped v :=
  ⟨⟨h.bounds.1, h.bounds.2.1⟩, h.sized, h.stored⟩

section
variable {t u : Table} {v : Env}

theorem Table.Shaped.fits (h : t.Shaped v) : t.geometry.fits := fits_of_slotBytes h.sized.1

theorem Table.Shaped.one_le_e (h : t.Shaped v) : 1 ≤ t.e.toNat := le_trans (by decide) h.exponent.1

/-- The exponent field holds every exponent up to 20. -/
theorem exponent_toNat {e : Nat} (h : e ≤ Config.maxExp) : (BitVec.ofNat 5 e).toNat = e := by
  simp only [Config.maxExp] at h
  rw [BitVec.toNat_ofNat]
  omega

/-- An array of canonical form inside its allocation in place of the old one. -/
theorem Table.Shaped.withArray (h : t.Shaped v) {b : Memory} (hw : b.wf = true)
    (hb : ∀ c ∈ b, c.1 < 2 ^ t.e.toNat * t.slotSize.toNat) : Table.Shaped { t with array := b } v :=
  ⟨h.exponent, h.sized, hw, h.stored.2.1, hb, h.stored.2.2.2⟩

/-- A scratch of canonical form inside its allocation in place of the old one. -/
theorem Table.Shaped.withScratch (h : t.Shaped v) {m : Memory} (hw : m.wf = true)
    (hb : ∀ c ∈ m, c.1 < 2 * t.slotSize.toNat) : Table.Shaped { t with scratch := m } v :=
  ⟨h.exponent, h.sized, h.stored.1, hw, h.stored.2.2.1, hb⟩

theorem Table.Shaped.withOcc (h : t.Shaped v) (n : Word) : Table.Shaped { t with occ := n } v :=
  ⟨h.exponent, h.sized, h.stored⟩

theorem Table.Shaped.withEnv (h : t.Shaped v) {w : Env} (hm : w.memBytes = v.memBytes) : t.Shaped w :=
  ⟨h.exponent, ⟨h.sized.1, hm ▸ h.sized.2⟩, h.stored⟩

/-- A creation that passes its checks gives a table of the shape (spec/42_table_commands.md R250, R254). -/
theorem shaped_newTable {exp item : Nat} (p : Bool) (sec : Secret) (h1 : Config.minExp ≤ exp) (h2 : exp ≤ Config.maxExp)
    (h3 : slotBytes item ≤ Config.maxSlotSize) (h4 : footprint (2 ^ exp) (slotBytes item) ≤ v.memBytes) :
    (newTable exp item p sec).Shaped v := by
  have hitem : item ≤ slotBytes item := by
    simp only [slotBytes, Config.metaBytes, Config.keyBytes, Config.ptrAlign]
    omega
  simp only [Config.maxSlotSize] at h3
  have hi : (BitVec.ofNat 32 item).toNat = item := by rw [BitVec.toNat_ofNat]; omega
  have hs : (BitVec.ofNat 32 (slotBytes item)).toNat = slotBytes item := by rw [BitVec.toNat_ofNat]; omega
  have he := exponent_toNat h2
  refine ⟨?_, ⟨?_, ?_⟩, rfl, rfl, fun c hc => absurd hc List.not_mem_nil, fun c hc => absurd hc List.not_mem_nil⟩
  · simp only [newTable, he]
    exact ⟨h1, h2⟩
  · simp only [newTable, hi, hs]
  · simp only [newTable, Table.cap, hs, he]
    exact h4

/-- A resize that succeeds keeps the shape (spec/41_probe_engine.md R211, spec/20_memory.md R93, R94). -/
theorem Table.Shaped.resize (h : t.Shaped v) {eNew : Nat} (h1 : Config.minExp ≤ eNew) (h2 : eNew ≤ Config.maxExp)
    (hr : t.resize v.memBytes eNew = .ok u) : u.Shaped v := by
  rcases resize_cases t v.memBytes eNew with ⟨he, _⟩ | ⟨hf, ⟨he, _⟩ | ⟨b, he, hb⟩⟩
  · rw [he] at hr; cases hr
  · rw [he] at hr; cases hr
  · rw [he] at hr
    cases hr
    have hw : b.wf = true :=
      reinsert_keeps (P := fun m => m.wf = true) (fun _ _ _ hm _ => wf_setSlot hm _ _ _) rfl hb
    have hbelow : ∀ x ∈ b, x.1 < 2 ^ eNew * t.slotSize.toNat :=
      reinsert_keeps (P := fun m => ∀ x ∈ m, x.1 < 2 ^ eNew * t.geometry.slotSize)
        (fun _ _ _ hm hi => below_setSlot h.fits hi hm _) (by simp) hb
    refine ⟨?_, ⟨h.sized.1, ?_⟩, hw, h.stored.2.1, ?_, h.stored.2.2.2⟩
    · simp only [exponent_toNat h2]
      exact ⟨h1, h2⟩
    · simp only [Table.cap, exponent_toNat h2] at hf ⊢
      omega
    · simp only [Table.cap, exponent_toNat h2]
      exact hbelow

/-- What a resize leaves alone. -/
theorem resize_frame {memBytes eNew : Nat} (hr : t.resize memBytes eNew = .ok u) :
    u.geometry = t.geometry ∧ u.occ = t.occ ∧ u.secret = t.secret ∧ u.scratch = t.scratch ∧
      u.disposer = t.disposer := by
  rcases resize_cases t memBytes eNew with ⟨he, _⟩ | ⟨_, ⟨he, _⟩ | ⟨b, he, _⟩⟩
  · rw [he] at hr; cases hr
  · rw [he] at hr; cases hr
  · rw [he] at hr
    cases hr
    exact ⟨rfl, rfl, rfl, rfl, rfl⟩

/-- A resize to an exponent with room for every entry and one empty slot keeps INV1 to INV6. -/
theorem Table.Inv.resize (h : t.Inv v) {eNew : Nat} (h1 : Config.minExp ≤ eNew) (h2 : eNew ≤ Config.maxExp)
    (hocc : t.occ.toNat < 2 ^ eNew) (hr : t.resize v.memBytes eNew = .ok u) : u.Inv v := by
  have hshape := h.shaped.resize h1 h2 hr
  rcases resize_cases t v.memBytes eNew with ⟨he, _⟩ | ⟨_, ⟨he, _⟩ | ⟨b, he, hb⟩⟩
  · rw [he] at hr; cases hr
  · rw [he] at hr; cases hr
  · rw [he] at hr
    cases hr
    have hcount := h.counted
    rw [Table.counted, Table.takenCount_zero] at hcount
    obtain ⟨hgood, _, hc⟩ := reinsert_keeps_good h.shaped.fits (le_trans (by decide) h1) HashEntry.th_unique h.arrayGood
      (le_refl (2 ^ t.e.toNat)) (hcount ▸ hocc) hb
    have hgood' : Table.ArrayGood { t with array := b, e := BitVec.ofNat 5 eNew } v := by
      unfold Table.ArrayGood
      rw [exponent_toNat h2]
      exact hgood
    refine hgood'.inv ⟨hshape.exponent.1, hshape.exponent.2, ?_⟩ ?_ hshape.sized hshape.stored
    · simpa only [Table.cap, exponent_toNat h2] using hocc
    · rw [Table.counted, Table.takenCount_zero]
      simp only [exponent_toNat h2]
      exact hcount.trans hc.symm

/-! ## The arbiters (spec/41_probe_engine.md R216, R217) -/

/-- The exponents the shrink loop passes: it stops at 4 or above, with room for the entries. -/
theorem shrinkExp_bounds {occ e : Nat} (he : Config.minExp ≤ e) :
    Config.minExp ≤ shrinkExp occ e ∧ shrinkExp occ e ≤ e ∧ (occ < 2 ^ e → occ < 2 ^ shrinkExp occ e) := by
  induction e with
  | zero => simp [Config.minExp] at he
  | succ e ih =>
    simp only [shrinkExp]
    split_ifs with hc
    · obtain ⟨hmin, hsp⟩ := hc
      obtain ⟨h1, h2, h3⟩ := ih (by omega)
      refine ⟨h1, by omega, fun _ => h3 ?_⟩
      simp only [sparse, decide_eq_true_eq, Config.shrinkDen, Config.shrinkNum, pow_succ] at hsp
      have := Nat.two_pow_pos e
      omega
    · exact ⟨he, le_refl _, id⟩

/-- Everything the grow arbiter can proceed with: the table as it was, or resized by one below the largest exponent. -/
theorem growArbiter_proceed {memBytes : Nat} {grew : Bool} (h : t.growArbiter memBytes = .proceed u grew) :
    (growNeeded t.occ.toNat t.e.toNat = false ∧ u = t) ∨
      (t.e.toNat ≠ Config.maxExp ∧ t.resize memBytes (t.e.toNat + 1) = .ok u) := by
  rcases growArbiter_cases t memBytes with ⟨hn, he⟩ | ⟨_, ⟨_, he⟩ | ⟨hm, ⟨w, hr, he⟩ | ⟨_, he⟩ | ⟨_, he⟩⟩⟩ <;>
    rw [he] at h <;> cases h
  · exact .inl ⟨hn, rfl⟩
  · exact .inr ⟨hm, hr⟩

/-- Everything the shrink arbiter can leave: the table as it was, or resized to where the shrink loop stops. -/
theorem shrinkArbiter_table (t : Table) (memBytes : Nat) :
    (t.shrinkArbiter memBytes).table = t ∨
      t.resize memBytes (shrinkExp t.occ.toNat t.e.toNat) = .ok (t.shrinkArbiter memBytes).table := by
  rcases shrinkArbiter_cases t memBytes with ⟨_, he⟩ | ⟨_, ⟨u, hr, he⟩ | ⟨_, he⟩ | ⟨_, he⟩⟩ <;> rw [he]
  · exact .inl rfl
  · exact .inr hr
  · exact .inl rfl
  · exact .inl rfl

theorem Table.Shaped.grow (h : t.Shaped v) {grew : Bool} (hg : t.growArbiter v.memBytes = .proceed u grew) :
    u.Shaped v := by
  have he := h.exponent
  rcases growArbiter_proceed hg with ⟨_, rfl⟩ | ⟨hm, hr⟩
  · exact h
  · exact h.resize (by omega) (by omega) hr

/-- After the grow arbiter INV1 to INV6 hold, and one more entry leaves INV1. -/
theorem Table.Inv.grow (h : t.Inv v) {grew : Bool} (hg : t.growArbiter v.memBytes = .proceed u grew) :
    u.Inv v ∧ u.occ.toNat + 1 < u.cap := by
  obtain ⟨hmin, hmax, hlt⟩ := h.bounds
  have h16 : 2 ^ 4 ≤ t.cap := Nat.pow_le_pow_right (by decide) hmin
  rcases growArbiter_proceed hg with ⟨hn, rfl⟩ | ⟨hm, hr⟩
  · have hfew : ¬10 * u.occ.toNat ≥ 9 * 2 ^ u.e.toNat := of_decide_eq_false hn
    refine ⟨h, ?_⟩
    simp only [Table.cap] at h16 ⊢
    omega
  · have hroom : t.occ.toNat + 1 < 2 ^ (t.e.toNat + 1) := by
      rw [pow_succ]
      simp only [Table.cap] at h16 hlt
      omega
    have hinv := h.resize (by omega) (by omega) (by omega) hr
    refine ⟨hinv, ?_⟩
    rcases resize_cases t v.memBytes (t.e.toNat + 1) with ⟨he, _⟩ | ⟨_, ⟨he, _⟩ | ⟨b, he, _⟩⟩
    · rw [he] at hr; cases hr
    · rw [he] at hr; cases hr
    · rw [he] at hr
      cases hr
      simpa only [Table.cap, exponent_toNat (show t.e.toNat + 1 ≤ Config.maxExp by omega)] using hroom

theorem Table.Shaped.shrink (h : t.Shaped v) : (t.shrinkArbiter v.memBytes).table.Shaped v := by
  rcases shrinkArbiter_table t v.memBytes with he | hr
  · rwa [he]
  · obtain ⟨h1, h2, _⟩ := shrinkExp_bounds (occ := t.occ.toNat) h.exponent.1
    exact h.resize h1 (h2.trans h.exponent.2) hr

theorem Table.Inv.shrink (h : t.Inv v) : (t.shrinkArbiter v.memBytes).table.Inv v := by
  rcases shrinkArbiter_table t v.memBytes with he | hr
  · rwa [he]
  · obtain ⟨hmin, hmax, hlt⟩ := h.bounds
    obtain ⟨h1, h2, h3⟩ := shrinkExp_bounds (occ := t.occ.toNat) hmin
    exact h.resize h1 (h2.trans hmax) (h3 hlt) hr

/-! ## The walks on a table -/

theorem Table.stage_sane (h : t.Shaped v) (k : KeyOperand) (n : Nat) :
    ((⟨k.th, k.key, t.stage⟩ : Candidate).toSlot n).Sane t.geometry :=
  ⟨Memory.wf_extract h.stored.2.1 _ _, fun _ hd => Memory.mem_extract hd⟩

/-- The walk of INSERT on a table of the shape. -/
theorem Table.Shaped.insert (h : t.Shaped v) {c : Candidate} {b : Memory}
    (hw : insertWalk t.geometry t.e.toNat t.array c = .placed b ∨
      insertWalk t.geometry t.e.toNat t.array c = .replaced b) :
    Table.Shaped { t with array := b } v :=
  h.withArray (wf_insertWalk h.stored.1 hw) (below_insertWalk h.fits h.stored.2.2.1 hw)

/-- The walk of INSERT on a good table. -/
theorem Table.Inv.walkKeeps (h : t.Inv v) {k : KeyOperand} (hk : HashEntry v t.secret k.th k.key) :
    WalkKeeps t.geometry t.e.toNat (HashEntry v t.secret) t.array ⟨k.th, k.key, t.stage⟩
      (insertWalk t.geometry t.e.toNat t.array ⟨k.th, k.key, t.stage⟩) :=
  insertWalk_keeps_good h.shaped.fits h.shaped.one_le_e HashEntry.th_unique h.arrayGood h.exists_empty hk
    (Table.stage_sane h.shaped k 0)

/-- INSERT of a new key (spec/43_map_commands.md R300) keeps INV1 to INV6. -/
theorem Table.Inv.place (h : t.Inv v) (hroom : t.occ.toNat + 1 < t.cap) {k : KeyOperand}
    (hk : HashEntry v t.secret k.th k.key) {b : Memory}
    (hw : insertWalk t.geometry t.e.toNat t.array ⟨k.th, k.key, t.stage⟩ = .placed b) :
    Table.Inv { t with array := b, occ := t.occ + 1#32 } v := by
  have hshape := (h.shaped.insert (.inl hw)).withOcc (t.occ + 1#32)
  have hgood : Table.ArrayGood { t with array := b, occ := t.occ + 1#32 } v := ((h.walkKeeps hk).placed b hw).good
  have hcount := countTaken_insertWalk_placed h.shaped.fits h.stored.1 (Table.stage_sane h.shaped k 0) hw
  have hcap : t.cap ≤ 2 ^ 20 := Nat.pow_le_pow_right (by decide) h.bounds.2.1
  have hocc : (t.occ + 1#32).toNat = t.occ.toNat + 1 := by
    rw [BitVec.toNat_add]
    simp only [BitVec.toNat_ofNat]
    omega
  refine hgood.inv ⟨h.bounds.1, h.bounds.2.1, hocc.trans_lt hroom⟩ ?_ hshape.sized hshape.stored
  rw [Table.counted, Table.takenCount_zero]
  simp only [hocc]
  rw [h.counted, Table.takenCount_zero]
  exact hcount.symm

/-- INSERT of a key that is there keeps INV1 to INV6. -/
theorem Table.Inv.replace (h : t.Inv v) {k : KeyOperand} (hk : HashEntry v t.secret k.th k.key) {b : Memory}
    (hw : insertWalk t.geometry t.e.toNat t.array ⟨k.th, k.key, t.stage⟩ = .replaced b) :
    Table.Inv { t with array := b } v := by
  have hshape := h.shaped.insert (.inr hw)
  have hgood : Table.ArrayGood { t with array := b } v := ((h.walkKeeps hk).replaced b hw).good
  have hcount := countTaken_insertWalk_replaced h.shaped.fits h.stored.1 (Table.stage_sane h.shaped k 0) hw
  refine hgood.inv h.bounds ?_ hshape.sized hshape.stored
  rw [Table.counted, Table.takenCount_zero]
  exact h.counted.trans hcount.symm

/-- What the lookup walk finds (R207): a taken slot of the array with the hash and the key looked for. -/
theorem findLoop_some {g : Geometry} {e bound : Nat} {a : Memory} {k : KeyOperand} {i d j : Nat} (hi : i < 2 ^ e)
    (h : findLoop g e a k bound i d = some j) :
    j < 2 ^ e ∧ (getSlot g a j).taken = true ∧ (getSlot g a j).th = k.th ∧ (getSlot g a j).key = k.key := by
  induction bound generalizing i d with
  | zero => cases h
  | succ bound ih =>
    rw [findLoop_succ] at h
    split_ifs at h with h1 h2 h3
    · cases h
      exact ⟨hi, by simpa using h1, h3⟩
    · exact ih (nextIndex_lt i e) h

theorem findSlot_some {g : Geometry} {e : Nat} {a : Memory} {k : KeyOperand} {i : Nat} (h : findSlot g e a k = some i) :
    i < 2 ^ e ∧ (getSlot g a i).taken = true ∧ (getSlot g a i).th = k.th ∧ (getSlot g a i).key = k.key :=
  findLoop_some (home_lt _ _) h

/-- The slot that a lookup finds is one of the table's taken slots. -/
theorem takenAt_of_findSlot {k : KeyOperand} {i : Nat} (h : findSlot t.geometry t.e.toNat t.array k = some i) :
    t.takenAt i := by
  obtain ⟨hi, ht, _⟩ := findSlot_some h
  exact ⟨hi, ht⟩

/-- Copying an entry to REMOVED keeps the scratch canonical and inside its allocation. -/
theorem Table.Shaped.setRemoved (h : t.Shaped v) (k : KeyBuf) (m : Memory) : (t.setRemoved k m).Shaped v := by
  have hfits := h.fits
  simp only [Geometry.fits, Config.metaBytes, Config.keyBytes, Table.geometry] at hfits
  refine h.withScratch (wf_putItem (wf_putKey h.stored.2.1 _ _ _) _ _ _) fun c hc => ?_
  have hbase : t.geometry.slotBase removedSlot = t.slotSize.toNat := Nat.one_mul _
  rcases mem_putItem hc with hc | hc
  · rcases mem_putKey hc with hc | hc
    · exact h.stored.2.2.2 c hc
    · rw [Geometry.keyBase_eq, hbase] at hc
      omega
  · rw [Geometry.itemBase_eq, hbase] at hc
    simp only [Table.geometry] at hc
    omega

theorem Table.Shaped.removeAt (h : t.Shaped v) {i : Nat} (hi : i < t.cap) : (t.removeAt i).Shaped v :=
  ((h.setRemoved (t.slot i).key (t.slot i).item).withArray (wf_backwardShift h.stored.1 i hi)
    (below_backwardShift h.fits h.stored.2.2.1 hi)).withOcc (t.occ - 1#32)

/-- REMOVE of a taken slot (spec/43_map_commands.md R320) keeps INV1 to INV6. -/
theorem Table.Inv.removeAt (h : t.Inv v) {i : Nat} (hi : t.takenAt i) : (t.removeAt i).Inv v := by
  obtain ⟨hlt, ht⟩ := hi
  have hshape := h.shaped.removeAt hlt
  obtain ⟨hgood, _, hcount⟩ :=
    backwardShift_keeps_good h.shaped.fits h.shaped.one_le_e h.arrayGood hlt ht h.exists_empty
  have hgood' : Table.ArrayGood (t.removeAt i) v := hgood
  have hold := h.counted
  rw [Table.counted, Table.takenCount_zero, ← hcount] at hold
  have hocc : (t.occ - 1#32).toNat = t.occ.toNat - 1 := by
    have := t.occ.isLt
    rw [BitVec.toNat_sub]
    simp only [BitVec.toNat_ofNat]
    omega
  refine hgood'.inv ⟨h.bounds.1, h.bounds.2.1, ?_⟩ ?_ hshape.sized hshape.stored
  · show (t.occ - 1#32).toNat < t.cap
    have := h.bounds.2.2
    omega
  · show (t.occ - 1#32).toNat = countTaken t.geometry (backwardShift t.geometry t.e.toNat t.array i) (2 ^ t.e.toNat) 0
    omega

/-! ## Host writes through the apertures (spec/20_memory.md R84, R85) -/

/-- A write inside the item of slot `i` leaves the metadata and key bytes of every slot. -/
theorem read_writeItem_header {g : Geometry} (hg : g.fits) {m : Memory} (hm : m.wf = true) {i j x n w y : Nat}
    (hx : x + n ≤ g.itemSize) (hy : g.slotBase j ≤ y) (hy' : y < g.slotBase j + 24) :
    (m.writeLE (g.itemBase i + x) n w).read y = m.read y := by
  simp only [Geometry.fits, Config.metaBytes, Config.keyBytes] at hg
  refine Memory.read_writeLE_outside hm _ _ _ _ ?_
  rw [Geometry.itemBase_eq]
  rcases Nat.lt_trichotomy j i with hlt | rfl | hlt
  · have := g.slotBase_lt hlt
    omega
  · omega
  · have := g.slotBase_lt hlt
    omega

/-- So every slot keeps its flag, its psl, its truncated hash and its key. -/
theorem getSlot_writeItem_header {g : Geometry} (hg : g.fits) {m : Memory} (hm : m.wf = true) {i x n w : Nat}
    (hx : x + n ≤ g.itemSize) (j : Nat) :
    (getSlot g (m.writeLE (g.itemBase i + x) n w) j).taken = (getSlot g m j).taken ∧
      (getSlot g (m.writeLE (g.itemBase i + x) n w) j).psl = (getSlot g m j).psl ∧
      (getSlot g (m.writeLE (g.itemBase i + x) n w) j).th = (getSlot g m j).th ∧
      (getSlot g (m.writeLE (g.itemBase i + x) n w) j).key = (getSlot g m j).key := by
  have hmeta : slotMeta g (m.writeLE (g.itemBase i + x) n w) j = slotMeta g m j := by
    rw [slotMeta, slotMeta, Memory.readLE_eq_of_read fun y hy hy' => read_writeItem_header hg hm hx hy (by
      simp only [Config.metaBytes] at hy'
      omega)]
  have hkey : slotKey g (m.writeLE (g.itemBase i + x) n w) j = slotKey g m j := by
    rw [slotKey, slotKey, Memory.readLE_eq_of_read fun y hy hy' => read_writeItem_header hg hm hx (j := j) (by
      rw [Geometry.keyBase_eq] at hy
      omega) (by
      rw [Geometry.keyBase_eq] at hy'
      simp only [Config.keyBytes] at hy'
      omega)]
  simp only [getSlot, hmeta, hkey, and_self]

theorem GoodArray.writeItem {g : Geometry} (hg : g.fits) {e : Nat} {P : BitVec 20 → KeyBuf → Prop} {m : Memory}
    (h : GoodArray g e P m) {i x n w : Nat} (hx : x + n ≤ g.itemSize) :
    GoodArray g e P (m.writeLE (g.itemBase i + x) n w) := by
  have hs := getSlot_writeItem_header hg h.wf (i := i) (w := w) hx
  refine ⟨⟨Memory.wf_writeLE h.wf _ _ _, fun j hj => ?_, fun j hj => ?_, fun j hj => ?_⟩, fun j l hj hl => ?_⟩
  · obtain ⟨h1, h2, h3, _⟩ := hs j
    rw [h1, h2, h3]
    exact h.distance j hj
  · obtain ⟨h1, h2, _⟩ := hs j
    obtain ⟨h3, h4, _⟩ := hs (nextIndex j e)
    rw [h1, h2, h3, h4]
    exact h.order j hj
  · obtain ⟨h1, _, h3, h4⟩ := hs j
    rw [h1, h3, h4]
    exact h.entry j hj
  · obtain ⟨h1, _, _, h2⟩ := hs j
    obtain ⟨h3, _, _, h4⟩ := hs l
    rw [h1, h2, h3, h4]
    exact h.distinct j l hj hl

theorem Table.Shaped.writeScratchItem (h : t.Shaped v) {i x n : Nat} (w : Nat) (hi : i < 2)
    (hx : x + n ≤ t.itemSize.toNat) :
    Table.Shaped { t with scratch := t.scratch.writeLE (t.geometry.itemBase i + x) n w } v := by
  refine h.withScratch (Memory.wf_writeLE h.stored.2.1 _ _ _) fun c hc => ?_
  have hfits := h.fits
  have hext := t.geometry.slotBase_extent hi
  rcases Memory.mem_writeLE hc with hc | hc
  · exact h.stored.2.2.2 c hc
  · rw [Geometry.itemBase_eq] at hc
    simp only [Geometry.fits, Config.metaBytes, Config.keyBytes, Table.geometry] at hfits hext hc
    omega

theorem Table.Shaped.writeArrayItem (h : t.Shaped v) {i x n : Nat} (w : Nat) (hi : i < t.cap)
    (hx : x + n ≤ t.itemSize.toNat) :
    Table.Shaped { t with array := t.array.writeLE (t.geometry.itemBase i + x) n w } v := by
  refine h.withArray (Memory.wf_writeLE h.stored.1 _ _ _) fun c hc => ?_
  have hfits := h.fits
  have hext := t.geometry.slotBase_extent (show i < 2 ^ t.e.toNat from hi)
  rcases Memory.mem_writeLE hc with hc | hc
  · exact h.stored.2.2.1 c hc
  · rw [Geometry.itemBase_eq] at hc
    simp only [Geometry.fits, Config.metaBytes, Config.keyBytes, Table.geometry] at hfits hext hc
    omega

theorem Table.takenAt_writeArrayItem (h : t.Shaped v) {i x n : Nat} (w : Nat) (hx : x + n ≤ t.itemSize.toNat)
    (j : Nat) :
    Table.takenAt { t with array := t.array.writeLE (t.geometry.itemBase i + x) n w } j ↔ t.takenAt j := by
  have hx' : x + n ≤ t.geometry.itemSize := hx
  obtain ⟨hs, _⟩ := getSlot_writeItem_header h.fits h.stored.1 (i := i) (w := w) hx' j
  exact and_congr Iff.rfl (iff_of_eq (congrArg (· = true) hs))

theorem Table.Inv.writeArrayItem (h : t.Inv v) {i x n : Nat} (w : Nat) (hi : i < t.cap)
    (hx : x + n ≤ t.itemSize.toNat) :
    Table.Inv { t with array := t.array.writeLE (t.geometry.itemBase i + x) n w } v := by
  have hshape := h.shaped.writeArrayItem w hi hx
  have hgood : Table.ArrayGood { t with array := t.array.writeLE (t.geometry.itemBase i + x) n w } v :=
    h.arrayGood.writeItem h.shaped.fits hx
  refine hgood.inv h.bounds ?_ hshape.sized hshape.stored
  rw [Table.counted, Table.takenCount_zero]
  refine h.counted.trans (countTaken_congr fun l _ _ => ?_)
  exact (getSlot_writeItem_header h.shaped.fits h.stored.1 hx l).1.symm

theorem Table.Inv.writeScratchItem (h : t.Inv v) {i x n : Nat} (w : Nat) (hi : i < 2)
    (hx : x + n ≤ t.itemSize.toNat) :
    Table.Inv { t with scratch := t.scratch.writeLE (t.geometry.itemBase i + x) n w } v := by
  have hshape := h.shaped.writeScratchItem w hi hx
  have hgood : Table.ArrayGood { t with scratch := t.scratch.writeLE (t.geometry.itemBase i + x) n w } v := h.arrayGood
  exact hgood.inv h.bounds h.counted hshape.sized hshape.stored

/-! ## Creation, and what the environment may change -/

theorem inv_newTable {exp item : Nat} (p : Bool) (sec : Secret) (h1 : Config.minExp ≤ exp) (h2 : exp ≤ Config.maxExp)
    (h3 : slotBytes item ≤ Config.maxSlotSize) (h4 : footprint (2 ^ exp) (slotBytes item) ≤ v.memBytes) :
    (newTable exp item p sec).Inv v := by
  have hshape := shaped_newTable p sec h1 h2 h3 h4
  have hgood : Table.ArrayGood (newTable exp item p sec) v := goodArray_nil _ _ _
  exact hgood.inv ⟨hshape.exponent.1, hshape.exponent.2, Nat.two_pow_pos _⟩ (countTaken_nil _ _ _).symm hshape.sized
    hshape.stored

theorem Table.Inv.withEnv (h : t.Inv v) {w : Env} (hm : w.memBytes = v.memBytes) (hh : w.hashes = v.hashes) : t.Inv w :=
  { h with
    hashed := fun i hi => by
      obtain ⟨k, hk, hkey, hth⟩ := h.hashed i hi
      exact ⟨k, hk, hkey, by rw [keyedHash_congr hh, hth]⟩
    sized := ⟨h.sized.1, hm ▸ h.sized.2⟩ }

end

end Sys2Proof.Machine
end

section
/-! SUPPORT. The invariants of a state (spec/10_state.md R47 to R50, R55, R56), once for every property of its table: if
every operation on a table keeps `Q`, every step keeps `Q` of the table, and the pointers into it. -/

namespace Sys2Proof.Machine

/-- What the invariants read of a state. -/
def State.tableSide (s : State) : TState × Table × Ref × Bool × Nat × Nat × Nat × List HashAnswer :=
  (s.tstate, s.tab, s.ref, s.iterActive, s.iterCursor, s.disp, s.env.memBytes, s.env.hashes)

/-- The table of a state has the property `Q` while one exists, and the reference and the cursors agree with it. -/
structure State.InvWith (Q : Table → Env → Prop) (s : State) : Prop where
  table : s.tstate ≠ .none → Q s.tab s.env
  absent : s.tstate = .none → s.tab = Table.absent
  pointers : s.Pointers

/-- A property of tables that every operation of a command, and every host write through an aperture, keeps. -/
structure KeptByOperations (Q : Table → Env → Prop) : Prop where
  shaped {t : Table} {v : Env} : Q t v → t.Shaped v
  withEnv {t : Table} {v w : Env} : Q t v → w.memBytes = v.memBytes → w.hashes = v.hashes → Q t w
  created {v : Env} {exp item : Nat} (p : Bool) (sec : Secret) : Config.minExp ≤ exp → exp ≤ Config.maxExp →
    slotBytes item ≤ Config.maxSlotSize → footprint (2 ^ exp) (slotBytes item) ≤ v.memBytes →
    Q (newTable exp item p sec) v
  grown {t u : Table} {v : Env} {grew : Bool} : Q t v → t.growArbiter v.memBytes = .proceed u grew → Q u v
  placed {t u : Table} {v : Env} {grew : Bool} {k : KeyOperand} {b : Memory} : Q t v →
    t.growArbiter v.memBytes = .proceed u grew → HashEntry v t.secret k.th k.key →
    insertWalk u.geometry u.e.toNat u.array ⟨k.th, k.key, u.stage⟩ = .placed b →
    Q { u with array := b, occ := u.occ + 1#32 } v
  replaced {t u : Table} {v : Env} {grew : Bool} {k : KeyOperand} {b : Memory} : Q t v →
    t.growArbiter v.memBytes = .proceed u grew → HashEntry v t.secret k.th k.key →
    insertWalk u.geometry u.e.toNat u.array ⟨k.th, k.key, u.stage⟩ = .replaced b → Q { u with array := b } v
  removed {t : Table} {v : Env} {i : Nat} : Q t v → t.takenAt i → Q ((t.removeAt i).shrinkArbiter v.memBytes).table v
  scratchWritten {t : Table} {v : Env} {i x n : Nat} (w : Nat) : Q t v → i < 2 → x + n ≤ t.itemSize.toNat →
    Q { t with scratch := t.scratch.writeLE (t.geometry.itemBase i + x) n w } v
  arrayWritten {t : Table} {v : Env} {i x n : Nat} (w : Nat) : Q t v → i < t.cap → x + n ≤ t.itemSize.toNat →
    Q { t with array := t.array.writeLE (t.geometry.itemBase i + x) n w } v

/-- The arbiter's table keeps the secret, so a key's truncated hash is the same under it. -/
theorem growArbiter_secret {t u : Table} {memBytes : Nat} {grew : Bool}
    (h : t.growArbiter memBytes = .proceed u grew) : u.secret = t.secret := by
  rcases growArbiter_proceed h with ⟨_, rfl⟩ | ⟨_, hr⟩
  · rfl
  · obtain ⟨_, _, hs, _⟩ := resize_frame hr
    exact hs

theorem shaped_keptByOperations : KeptByOperations Table.Shaped where
  shaped h := h
  withEnv h hm _ := h.withEnv hm
  created p sec := shaped_newTable p sec
  grown h hg := h.grow hg
  placed h hg _ hw := ((h.grow hg).insert (.inl hw)).withOcc _
  replaced h hg _ hw := (h.grow hg).insert (.inr hw)
  removed h hi := (h.removeAt hi.1).shrink
  scratchWritten w h := h.writeScratchItem w
  arrayWritten w h := h.writeArrayItem w

theorem inv_keptByOperations : KeptByOperations Table.Inv where
  shaped h := h.shaped
  withEnv h := h.withEnv
  created p sec := inv_newTable p sec
  grown h hg := (h.grow hg).1
  placed h hg hk hw := (h.grow hg).1.place (h.grow hg).2 (growArbiter_secret hg ▸ hk) hw
  replaced h hg hk hw := (h.grow hg).1.replace (growArbiter_secret hg ▸ hk) hw
  removed h hi := (h.removeAt hi).shrink
  scratchWritten w h := h.writeScratchItem w
  arrayWritten w h := h.writeArrayItem w

section
variable {Q : Table → Env → Prop} {s t : State}

/-- Pointers are kept where nothing they speak of changes. -/
theorem State.Pointers.congr (h : s.Pointers) (ht : t.tableSide = s.tableSide) : t.Pointers := by
  simp only [State.tableSide, Prod.mk.injEq] at ht
  obtain ⟨h1, h2, h3, h4, h5, h6, _⟩ := ht
  exact ⟨by rw [h1, h2, h3]; exact h.slotTaken, by rw [h1, h3]; exact h.removedReady,
    by rw [h1, h2, h3, h6]; exact h.disposing, by rw [h1, h2, h4, h5]; exact h.cursor⟩

/-- A step that changes nothing of the table side keeps its invariants. -/
theorem State.InvWith.congr (h : s.InvWith Q) (hQ : KeptByOperations Q) (ht : t.tableSide = s.tableSide) :
    t.InvWith Q := by
  have hfields := ht
  simp only [State.tableSide, Prod.mk.injEq] at hfields
  obtain ⟨hts, htab, _, _, _, _, hmem, hhash⟩ := hfields
  refine ⟨fun hne => ?_, fun he => ?_, h.pointers.congr ht⟩ <;> rw [htab]
  · exact hQ.withEnv (h.table (hts ▸ hne)) hmem hhash
  · exact h.absent (hts ▸ he)

/-- With no reference and no iteration, and outside DISPOSING, there is nothing to agree with. -/
theorem pointers_of_none (hr : s.ref = .none) (hi : s.iterActive = false) (hd : s.tstate ≠ .disposing) :
    s.Pointers where
  slotTaken i h := by rw [hr] at h; cases h
  removedReady h := by rw [hr] at h; cases h
  disposing h := absurd h hd
  cursor h := by rw [hi] at h; cases h

/-- The state of no table: a release, or reset. -/
theorem invWith_absent (ht : s.tstate = .none) (htab : s.tab = Table.absent) (hr : s.ref = .none)
    (hi : s.iterActive = false) : s.InvWith Q where
  table h := absurd ht h
  absent _ := htab
  pointers := pointers_of_none hr hi (by rw [ht]; decide)

/-- A READY state without reference and iteration. -/
theorem invWith_ready (ht : s.tstate = .ready) (htab : Q s.tab s.env) (hr : s.ref = .none) (hi : s.iterActive = false) :
    s.InvWith Q where
  table _ := htab
  absent h := by rw [ht] at h; cases h
  pointers := pointers_of_none hr hi (by rw [ht]; decide)

theorem State.InvWith.tab_of_ready (h : s.InvWith Q) (ht : s.tstate = .ready) : Q s.tab s.env :=
  h.table (by rw [ht]; decide)

/-- What a search for the lowest taken slot finds is a taken slot of the table. -/
theorem takenAt_of_firstTaken {u : Table} {lo j : Nat} (h : u.firstTaken lo = some j) : u.takenAt j := by
  rcases firstTaken_cases u lo with ⟨l, hl, _, hlt, ht, _⟩ | ⟨hn, _⟩
  · rw [hl] at h
    cases h
    exact ⟨hlt, ht⟩
  · rw [hn] at h; cases h

/-! ## The commands -/

theorem next_inj (h : (.next s : Host.Outcome State Fault Refusal) = .next t) : t = s := by
  injection h with h
  exact h.symm

theorem tableCreate_invWith (h : s.InvWith Q) (hQ : KeptByOperations Q) (exp item : Nat) (z p : Bool) :
    (s.tableCreate exp item z p).InvWith Q := by
  have hdrawn : (s.secretDrawn z).tableSide = s.tableSide := by cases z <;> rfl
  rcases tableCreate_cases s exp item z p with
    ⟨_, he⟩ | ⟨h1, h2, ⟨_, he⟩ | ⟨h3, ⟨_, he⟩ | ⟨h4, ⟨_, he⟩ | ⟨sec, _, he⟩⟩⟩⟩ <;> rw [he]
  · exact h.congr hQ rfl
  · exact h.congr hQ rfl
  · exact h.congr hQ rfl
  · exact h.congr hQ hdrawn
  · refine invWith_ready rfl (hQ.created p sec h1 h2 h3 ?_) rfl rfl
    have hmem : (s.secretDrawn z).env.memBytes = s.env.memBytes := by cases z <;> rfl
    exact hmem ▸ h4

theorem execInit_invWith (h : s.InvWith Q) (hQ : KeptByOperations Q) {z p : Bool} (hs : execInit z p s = .next t) :
    t.InvWith Q := by
  simp only [execInit] at hs
  split_ifs at hs <;> cases hs
  · exact h.congr hQ rfl
  · exact tableCreate_invWith h hQ _ _ _ _

theorem execInitSize_invWith (h : s.InvWith Q) (hQ : KeptByOperations Q) {z p : Bool}
    (hs : execInitSize z p s = .next t) : t.InvWith Q := by
  simp only [execInitSize] at hs
  split_ifs at hs
  · cases hs
    exact h.congr hQ rfl
  · split at hs <;> cases hs
    · exact h.congr hQ rfl
    · exact tableCreate_invWith h hQ _ _ _ _

/-- The end of references at the start of INSERT and REMOVE (spec/43_map_commands.md R299). -/
theorem endReferences_invWith (h : s.InvWith Q) (ht : s.tstate = .ready) : s.endReferences.InvWith Q :=
  invWith_ready ht (h.tab_of_ready ht) rfl rfl

/-- The walk and the commit of INSERT, from a READY state whose references have ended. -/
theorem insertInto_invWith (hQ : KeptByOperations Q) (ht : s.tstate = .ready) (hq : Q s.tab s.env) (hr : s.ref = .none)
    (hi : s.iterActive = false) {k : KeyOperand} (hk : HashEntry s.env s.tab.secret k.th k.key) {u : Table}
    {grew : Bool} (hg : s.tab.growArbiter s.env.memBytes = .proceed u grew) : (s.insertInto u grew k).InvWith Q := by
  rcases insertInto_cases s u grew k with ⟨b, hw, he⟩ | ⟨b, hw, he⟩ | ⟨_, he⟩ <;> rw [he]
  · exact invWith_ready ht (hQ.placed hq hg hk hw) hr hi
  · exact invWith_ready ht (hQ.replaced hq hg hk hw) hr hi
  · exact invWith_ready ht (hQ.grown hq hg) hr hi

theorem execInsert_invWith (h : s.InvWith Q) (hQ : KeptByOperations Q) {k d : Bool}
    (hs : execInsert k d s = .next t) : t.InvWith Q := by
  unfold execInsert at hs
  split at hs
  · cases hs
    exact h.congr hQ rfl
  · next hr =>
    rw [not_not] at hr
    have hend := endReferences_invWith h hr
    split at hs
    · cases hs
      exact hend.congr hQ rfl
    · next key hkey =>
      split at hs
      · cases hs
        exact hend.congr hQ rfl
      · split at hs
        · cases hs
          exact hend.congr hQ rfl
        · next u grew hg =>
          have hins := insertInto_invWith (s := s.endReferences) hQ hr (hend.tab_of_ready hr) rfl rfl
            (hashEntry_of_getKey hkey) hg
          rw [next_inj hs]
          exact hins

/-- GET leaves the iteration and drops the reference, or moves it to the slot it found. -/
theorem execGet_invWith (h : s.InvWith Q) (hQ : KeptByOperations Q) {k : Bool} (hs : execGet k s = .next t) :
    t.InvWith Q := by
  simp only [execGet] at hs
  split_ifs at hs with hr
  · cases hs
    exact h.congr hQ rfl
  · rw [not_not] at hr
    have hnone : ({ s with ref := .none } : State).InvWith Q :=
      ⟨h.table, h.absent, { slotTaken := fun _ h => (by cases h), removedReady := fun h => (by cases h)
                            disposing := fun h => absurd (hr.symm.trans h) (by decide), cursor := h.pointers.cursor }⟩
    split at hs
    · cases hs
      exact hnone.congr hQ rfl
    · split at hs <;> cases hs
      · exact hnone.congr hQ rfl
      · next i hfind =>
        refine ⟨h.table, h.absent, { slotTaken := fun j hj => ?_, removedReady := fun h => (by cases h)
                                     disposing := fun h => absurd (hr.symm.trans h) (by decide)
                                     cursor := h.pointers.cursor }⟩
        cases hj
        exact ⟨fun h => absurd (hr.symm.trans h) (by decide), takenAt_of_findSlot hfind⟩

theorem execRemove_invWith (h : s.InvWith Q) (hQ : KeptByOperations Q) {k : Bool} (hs : execRemove k s = .next t) :
    t.InvWith Q := by
  simp only [execRemove] at hs
  split_ifs at hs with hr
  · cases hs
    exact h.congr hQ rfl
  · rw [not_not] at hr
    have hend := endReferences_invWith h hr
    split at hs
    · cases hs
      exact hend.congr hQ rfl
    · split at hs <;> cases hs
      · exact hend.congr hQ rfl
      · next i hfind =>
        exact ⟨fun _ => hQ.removed (h.tab_of_ready hr) (takenAt_of_findSlot hfind),
          fun h => absurd (hr.symm.trans h) (by decide),
          { slotTaken := fun _ h => (by cases h), removedReady := fun _ => hr
            disposing := fun h => absurd (hr.symm.trans h) (by decide), cursor := fun h => (by cases h) }⟩

theorem execLen_invWith (h : s.InvWith Q) (hQ : KeptByOperations Q) (hs : execLen s = .next t) : t.InvWith Q := by
  simp only [execLen] at hs
  split_ifs at hs <;> cases hs <;> exact h.congr hQ rfl

theorem execPeek_invWith (h : s.InvWith Q) (hQ : KeptByOperations Q) (hs : execPeek s = .next t) : t.InvWith Q := by
  simp only [execPeek] at hs
  split_ifs at hs <;> cases hs <;> exact h.congr hQ rfl

/-- Presenting an entry, or ending the iteration (spec/44_iteration_commands.md R350, R352). -/
theorem present_invWith (h : s.InvWith Q) (ht : s.tstate = .ready) (lo : Nat) : (s.present lo).InvWith Q := by
  rcases present_cases s lo with ⟨j, hj, he⟩ | ⟨_, he⟩ <;> rw [he]
  · have htaken := takenAt_of_firstTaken hj
    refine ⟨h.table, h.absent, { slotTaken := fun l hl => ?_, removedReady := fun h => (by cases h)
                                 disposing := fun h => absurd (ht.symm.trans h) (by decide)
                                 cursor := fun _ => ⟨ht, htaken⟩ }⟩
    cases hl
    exact ⟨fun h => absurd (ht.symm.trans h) (by decide), htaken⟩
  · exact invWith_ready ht (h.tab_of_ready ht) rfl rfl

theorem execIterStart_invWith (h : s.InvWith Q) (hQ : KeptByOperations Q) (hs : execIterStart s = .next t) :
    t.InvWith Q := by
  simp only [execIterStart] at hs
  split_ifs at hs with hr <;> cases hs
  · exact h.congr hQ rfl
  · exact present_invWith h (not_not.mp hr) 0

theorem execIterNext_invWith (h : s.InvWith Q) (hQ : KeptByOperations Q) (hs : execIterNext s = .next t) :
    t.InvWith Q := by
  simp only [execIterNext] at hs
  split_ifs at hs with hr <;> cases hs
  · exact h.congr hQ rfl
  · exact present_invWith h (not_not.mp (not_or.mp hr).1) _

theorem execIterStop_invWith (h : s.InvWith Q) (hQ : KeptByOperations Q) (hs : execIterStop s = .next t) :
    t.InvWith Q := by
  simp only [execIterStop] at hs
  split_ifs at hs with hr <;> cases hs
  · exact h.congr hQ rfl
  · have ht := not_not.mp (not_or.mp hr).1
    exact invWith_ready ht (h.tab_of_ready ht) rfl rfl

theorem execFree_invWith (h : s.InvWith Q) (hQ : KeptByOperations Q) (hs : execFree s = .next t) : t.InvWith Q := by
  simp only [execFree] at hs
  split_ifs at hs with hr hd
  · cases hs
    exact h.congr hQ rfl
  · split at hs <;> cases hs
    next j hj =>
    have hq := h.tab_of_ready (not_not.mp hr)
    refine ⟨fun _ => hq, fun h => (by cases h), { slotTaken := fun l hl => ?_, removedReady := fun h => (by cases h)
                                                  disposing := fun _ => ⟨rfl, hd.1⟩, cursor := fun h => (by cases h) }⟩
    cases hl
    exact ⟨fun h => (by cases h), takenAt_of_firstTaken hj⟩
  · cases hs
    exact invWith_absent rfl rfl rfl rfl

theorem execDisposeAck_invWith (h : s.InvWith Q) (hQ : KeptByOperations Q) (hs : execDisposeAck s = .next t) :
    t.InvWith Q := by
  simp only [execDisposeAck] at hs
  split_ifs at hs with hr
  · cases hs
    exact h.congr hQ rfl
  · rw [not_not] at hr
    split at hs <;> cases hs
    · next j hj =>
      refine ⟨h.table, h.absent, { slotTaken := fun l hl => ?_, removedReady := fun h => (by cases h)
                                   disposing := fun _ => ⟨rfl, (h.pointers.disposing hr).2⟩
                                   cursor := fun hi => absurd (hr.symm.trans (h.pointers.cursor hi).1) (by decide) }⟩
      cases hl
      exact ⟨fun h => absurd (hr.symm.trans h) (by decide), takenAt_of_firstTaken hj⟩
    · exact invWith_absent rfl rfl rfl rfl

/-- Every command keeps the invariants of the table side. -/
theorem exec_invWith (h : s.InvWith Q) (hQ : KeptByOperations Q) {i : Instr} (hs : exec i s = .next t) :
    t.InvWith Q := by
  cases i with
  | init z p => exact execInit_invWith h hQ hs
  | initSize z p => exact execInitSize_invWith h hQ hs
  | insert k d => exact execInsert_invWith h hQ hs
  | get k => exact execGet_invWith h hQ hs
  | remove k => exact execRemove_invWith h hQ hs
  | len => exact execLen_invWith h hQ hs
  | iterStart => exact execIterStart_invWith h hQ hs
  | iterNext => exact execIterNext_invWith h hQ hs
  | iterStop => exact execIterStop_invWith h hQ hs
  | free => exact execFree_invWith h hQ hs
  | disposeAck => exact execDisposeAck_invWith h hQ hs
  | peek => exact execPeek_invWith h hQ hs

/-! ## Host accesses and the step -/

@[simp] theorem writeReg_tableSide (s : State) (w : Word) (r : Reg) : (s.writeReg w r).tableSide = s.tableSide := by
  cases r <;> rfl

/-- A host write into the scratch while READY: no pointer speaks of the scratch. -/
theorem writeScratch_invWith (h : s.InvWith Q) (hQ : KeptByOperations Q) (ht : s.tstate = .ready) {i x n : Nat}
    (w : Nat) (hi : i < 2) (hx : x + n ≤ s.tab.itemSize.toNat) :
    State.InvWith Q { s with tab := { s.tab with
      scratch := s.tab.scratch.writeLE (s.tab.geometry.itemBase i + x) n w } } where
  table _ := hQ.scratchWritten w (h.tab_of_ready ht) hi hx
  absent hn := absurd (ht.symm.trans hn) (by decide)
  pointers := ⟨h.pointers.slotTaken, h.pointers.removedReady, h.pointers.disposing, h.pointers.cursor⟩

/-- A host write into the item of the slot that `ref` names: every slot keeps its taken flag. -/
theorem writeArray_invWith (h : s.InvWith Q) (hQ : KeptByOperations Q) {i x n : Nat} (hr : s.ref = .slot i) (w : Nat)
    (hx : x + n ≤ s.tab.itemSize.toNat) :
    State.InvWith Q { s with tab := { s.tab with
      array := s.tab.array.writeLE (s.tab.geometry.itemBase i + x) n w } } := by
  obtain ⟨hne, hi⟩ := h.pointers.slotTaken i hr
  have hq := h.table hne
  have hiff := Table.takenAt_writeArrayItem (hQ.shaped hq) (i := i) (x := x) (n := n) w hx
  exact ⟨fun _ => hQ.arrayWritten w hq hi.1 hx, fun hn => absurd hn hne,
    { slotTaken := fun j hj => ⟨(h.pointers.slotTaken j hj).1, (hiff j).mpr (h.pointers.slotTaken j hj).2⟩
      removedReady := h.pointers.removedReady
      disposing := h.pointers.disposing
      cursor := fun hc => ⟨(h.pointers.cursor hc).1, (hiff _).mpr (h.pointers.cursor hc).2⟩ }⟩

theorem writeValue_invWith (h : s.InvWith Q) (hQ : KeptByOperations Q) {space : Space} {off : BitVec 32} {n : Nat}
    {v : Word} (hf : s.refuses space off n = false) : (s.writeValue space off n v).InvWith Q := by
  rcases writeValue_cases s space off n v hf with
    ⟨r, _, _, he⟩ | ⟨_, ht, hx, he⟩ | ⟨i, _, hr, hx, he⟩ | ⟨_, hr, hx, he⟩ <;> rw [he]
  · exact h.congr hQ (writeReg_tableSide s v r)
  · exact writeScratch_invWith h hQ ht (i := stageSlot) v.toNat (by decide) hx
  · exact writeArray_invWith h hQ hr v.toNat hx
  · exact writeScratch_invWith h hQ (h.pointers.removedReady hr) (i := removedSlot) v.toNat (by decide) hx

theorem busyMalformed_tableSide (s : State) (space : Space) (off : BitVec 32) (n : Nat) :
    (s.busyMalformed space off n).tableSide = s.tableSide := by
  unfold State.busyMalformed
  split_ifs <;> rfl

theorem access_invWith (h : s.InvWith Q) (hQ : KeptByOperations Q) (a : Access) : (s.access a).InvWith Q := by
  unfold State.access
  cases s.phase with
  | idle =>
    show (s.accessIdle a).InvWith Q
    rcases accessIdle_cases s a with ⟨w, he⟩ | he | he | ⟨space, off, n, v, _, hf, he⟩ <;> rw [he]
    · exact h.congr hQ rfl
    · exact h.congr hQ rfl
    · exact h.congr hQ rfl
    · exact writeValue_invWith h hQ hf
  | busy =>
    show (s.accessBusy a).InvWith Q
    cases a with
    | read space off n => exact h.congr hQ (busyMalformed_tableSide s space off n)
    | write space off n v => exact h.congr hQ (busyMalformed_tableSide s space off n)

/-- Every step keeps a property that every operation keeps, and the pointers. -/
theorem step_invWith (h : s.InvWith Q) (hQ : KeptByOperations Q) (hs : step s = .next t) : t.InvWith Q := by
  obtain ⟨u, hu, hcases⟩ := step_cases s
  have hu' : u.InvWith Q := by
    rcases hu with rfl | rfl
    · exact h
    · exact h.congr hQ rfl
  rcases hcases with ⟨_, he⟩ | ⟨_, he⟩ | ⟨a, he⟩ | he <;> rw [he] at hs
  · cases hs
    exact hu'
  · rcases executeLatched_cases u with ⟨i, _, hx⟩ | ⟨_, _, hx⟩ <;> rw [hx] at hs
    · exact exec_invWith hu' hQ hs
    · cases hs
      exact hu'.congr hQ rfl
  · cases hs
    exact access_invWith hu' hQ a
  · cases hs
    exact invWith_absent rfl rfl rfl rfl

end

/-! ## Shape and pointers, and good states -/

theorem shape_pointers_iff (s : State) : s.Shape ∧ s.Pointers ↔ s.InvWith Table.Shaped :=
  ⟨fun ⟨h, hp⟩ => ⟨fun hn => ⟨h.exponent hn, h.sized hn, h.stored hn⟩, h.absent, hp⟩,
    fun h => ⟨⟨fun hn => (h.table hn).exponent, fun hn => (h.table hn).sized, fun hn => (h.table hn).stored, h.absent⟩,
      h.pointers⟩⟩

theorem inv_iff (s : State) : s.Inv ↔ s.InvWith Table.Inv :=
  ⟨fun h => ⟨h.table, h.absent, h.pointers⟩, fun h => ⟨h.table, h.absent, h.pointers⟩⟩

/-- Settles O55, from `step_invWith`: the shape is kept by every operation on a table. -/
theorem stepKeepsShapeAndPointers : Obligations.StepKeepsShapeAndPointers := by
  unfold Obligations.StepKeepsShapeAndPointers
  intro s t hshape hpointers hs
  exact (shape_pointers_iff t).mpr
    (step_invWith ((shape_pointers_iff s).mp ⟨hshape, hpointers⟩) shaped_keptByOperations hs)

/-- Settles O56, from `step_invWith`: INV1 to INV6 are kept by every operation on a table. -/
theorem stepKeepsTheTableInvariants : Obligations.StepKeepsTheTableInvariants := by
  unfold Obligations.StepKeepsTheTableInvariants
  intro s t h hs
  exact (inv_iff t).mpr (step_invWith ((inv_iff s).mp h) inv_keptByOperations hs)

end Sys2Proof.Machine
end

section
/-! SUPPORT. What every command leaves alone (spec/10_state.md R35, R52, R53), what a step does with its event, and the
state of reset (R57). -/

namespace Sys2Proof.Machine

/-! ## Commands and the host's side of the state -/

/-- What no command writes: the operand registers, the sticky bits, the latched copy, and of the environment all but the
entropy port. -/
def State.hostSide (s : State) :=
  (s.arg0, s.arg1, s.keyLen, (s.key0, s.key1, s.key2, s.key3, s.key4), (s.busyViol, s.busErr), s.latch,
    s.env.events, s.env.readData, s.env.memBytes, s.env.hashes)

/-- A command that started in `s` has completed in `t` and left the host's side alone. -/
structure Completes (s t : State) : Prop where
  idle : t.phase = .idle
  hostSide : t.hostSide = s.hostSide

section
variable {s t : State}

theorem tableCreate_completes (s : State) (exp item : Nat) (z p : Bool) : Completes s (s.tableCreate exp item z p) := by
  have hdrawn : (s.secretDrawn z).hostSide = s.hostSide := by cases z <;> rfl
  rcases tableCreate_cases s exp item z p with
    ⟨_, he⟩ | ⟨_, _, ⟨_, he⟩ | ⟨_, ⟨_, he⟩ | ⟨_, ⟨_, he⟩ | ⟨sec, _, he⟩⟩⟩⟩ <;> rw [he]
  · exact ⟨rfl, rfl⟩
  · exact ⟨rfl, rfl⟩
  · exact ⟨rfl, rfl⟩
  · exact ⟨rfl, hdrawn⟩
  · exact ⟨rfl, hdrawn⟩

theorem present_completes (s : State) (lo : Nat) : Completes s (s.present lo) := by
  rcases present_cases s lo with ⟨j, _, he⟩ | ⟨_, he⟩ <;> rw [he] <;> exact ⟨rfl, rfl⟩

theorem insertInto_completes (s : State) (u : Table) (grew : Bool) (k : KeyOperand) :
    Completes s (s.insertInto u grew k) := by
  rcases insertInto_cases s u grew k with ⟨b, _, he⟩ | ⟨b, _, he⟩ | ⟨_, he⟩ <;> rw [he] <;> exact ⟨rfl, rfl⟩

theorem execInsert_completes {k d : Bool} (hs : execInsert k d s = .next t) : Completes s t := by
  unfold execInsert at hs
  split at hs
  · rw [next_inj hs]
    exact ⟨rfl, rfl⟩
  · split at hs
    · rw [next_inj hs]
      exact ⟨rfl, rfl⟩
    · split at hs
      · rw [next_inj hs]
        exact ⟨rfl, rfl⟩
      · split at hs
        · rw [next_inj hs]
          exact ⟨rfl, rfl⟩
        · next key _ _ _ u grew _ =>
          have hins := insertInto_completes s.endReferences u grew key
          rw [next_inj hs]
          exact ⟨hins.idle, hins.hostSide⟩

theorem execGet_completes {k : Bool} (hs : execGet k s = .next t) : Completes s t := by
  unfold execGet at hs
  split at hs
  · cases hs
    exact ⟨rfl, rfl⟩
  · split at hs
    · cases hs
      exact ⟨rfl, rfl⟩
    · split at hs <;> cases hs <;> exact ⟨rfl, rfl⟩

theorem execRemove_completes {k : Bool} (hs : execRemove k s = .next t) : Completes s t := by
  unfold execRemove at hs
  split at hs
  · cases hs
    exact ⟨rfl, rfl⟩
  · split at hs
    · cases hs
      exact ⟨rfl, rfl⟩
    · split at hs <;> cases hs <;> exact ⟨rfl, rfl⟩

theorem execFree_completes (hs : execFree s = .next t) : Completes s t := by
  unfold execFree at hs
  split at hs
  · cases hs
    exact ⟨rfl, rfl⟩
  · split at hs
    · split at hs <;> cases hs
      exact ⟨rfl, rfl⟩
    · cases hs
      exact ⟨rfl, rfl⟩

theorem execDisposeAck_completes (hs : execDisposeAck s = .next t) : Completes s t := by
  unfold execDisposeAck at hs
  split at hs
  · cases hs
    exact ⟨rfl, rfl⟩
  · split at hs <;> cases hs <;> exact ⟨rfl, rfl⟩

/-- Every command completes in its one step and leaves the host's side alone. -/
theorem exec_completes {i : Instr} (hs : exec i s = .next t) : Completes s t := by
  cases i with
  | init z p =>
    simp only [exec, execInit] at hs
    split_ifs at hs <;> cases hs
    exacts [⟨rfl, rfl⟩, tableCreate_completes s _ _ z p]
  | initSize z p =>
    simp only [exec, execInitSize] at hs
    split_ifs at hs
    · cases hs
      exact ⟨rfl, rfl⟩
    · split at hs <;> cases hs
      exacts [⟨rfl, rfl⟩, tableCreate_completes s _ _ z p]
  | insert k d => exact execInsert_completes hs
  | get k => exact execGet_completes hs
  | remove k => exact execRemove_completes hs
  | len =>
    simp only [exec, execLen] at hs
    split_ifs at hs <;> cases hs <;> exact ⟨rfl, rfl⟩
  | iterStart =>
    simp only [exec, execIterStart] at hs
    split_ifs at hs <;> cases hs
    exacts [⟨rfl, rfl⟩, present_completes s _]
  | iterNext =>
    simp only [exec, execIterNext] at hs
    split_ifs at hs <;> cases hs
    exacts [⟨rfl, rfl⟩, present_completes s _]
  | iterStop =>
    simp only [exec, execIterStop] at hs
    split_ifs at hs <;> cases hs <;> exact ⟨rfl, rfl⟩
  | free => exact execFree_completes hs
  | disposeAck => exact execDisposeAck_completes hs
  | peek =>
    simp only [exec, execPeek] at hs
    split_ifs at hs <;> cases hs <;> exact ⟨rfl, rfl⟩

/-- So does a latched word that does not decode. -/
theorem executeLatched_completes (hs : s.executeLatched = .next t) : Completes s t := by
  rcases executeLatched_cases s with ⟨i, _, hx⟩ | ⟨_, _, hx⟩ <;> rw [hx] at hs
  · exact exec_completes hs
  · cases hs
    exact ⟨rfl, rfl⟩

end

/-- Settles O31, from what every command leaves alone. -/
theorem commandsLeaveTheHostRegisters : Obligations.CommandsLeaveTheHostRegisters := by
  unfold Obligations.CommandsLeaveTheHostRegisters
  intro i s t hs
  obtain ⟨hidle, hhost⟩ := exec_completes hs
  simp only [State.hostSide, Prod.mk.injEq] at hhost
  obtain ⟨h0, h1, hlen, ⟨k0, k1, k2, k3, k4⟩, ⟨hv, hb⟩, hl, hev, hrd, hmem, hhash⟩ := hhost
  exact ⟨hidle, h0, h1, hlen, k0, k1, k2, k3, k4, hv, hb, hl, hev, hrd, hmem, hhash⟩

/-! ## The step -/

section
variable {s : State} {es : List Event}

theorem popEvent_of_cons {e : Event} (h : s.env.events = e :: es) :
    s.popEvent = { s with env := { s.env with events := es } } := by
  simp only [State.popEvent, h, List.tail_cons]

theorem step_of_nil (h : s.env.events = []) : step s = s.engineTurn := by
  unfold step
  rw [h]

theorem step_of_engine (h : s.env.events = .engine :: es) :
    step s = State.engineTurn { s with env := { s.env with events := es } } := by
  unfold step
  rw [← popEvent_of_cons h, h]

theorem step_of_access {a : Access} (h : s.env.events = .access a :: es) :
    step s = .next (State.access { s with env := { s.env with events := es } } a) := by
  unfold step
  rw [← popEvent_of_cons h, h]

theorem engineTurn_of_busy (h : s.phase = .busy) : s.engineTurn = s.executeLatched := by
  unfold State.engineTurn
  rw [h]

theorem engineTurn_of_idle (h : s.phase = .idle) : s.engineTurn = .next s := by
  unfold State.engineTurn
  rw [h]

theorem executeLatched_of_decode {i : Instr} (h : decode s.latch.word = .ok i) : s.executeLatched = exec i s := by
  unfold State.executeLatched
  rw [h]

end

/-- Settles O5, from the rules of a step per event and of the engine's turn per phase. -/
theorem stepRunsTheDecodedCommand : Obligations.StepRunsTheDecodedCommand := by
  unfold Obligations.StepRunsTheDecodedCommand
  have hlatched : ∀ s : State, s.phase = .busy →
      (s.env.events = [] → step s = s.executeLatched) ∧
      (∀ es, s.env.events = .engine :: es →
        step s = State.executeLatched { s with env := { s.env with events := es } }) := fun s hs =>
    ⟨fun h => (step_of_nil h).trans (engineTurn_of_busy hs),
      fun es h => (step_of_engine h).trans
        (engineTurn_of_busy (s := { s with env := { s.env with events := es } }) hs)⟩
  refine ⟨fun s i hs hd _ => ⟨fun h => ?_, fun es h => ?_⟩, hlatched, fun s a es h => step_of_access h,
    fun s hs => ⟨fun h => ?_, fun es h => ?_⟩⟩
  · exact ((hlatched s hs).1 h).trans (executeLatched_of_decode hd)
  · exact ((hlatched s hs).2 es h).trans
      (executeLatched_of_decode (s := { s with env := { s.env with events := es } }) hd)
  · exact (step_of_nil h).trans (engineTurn_of_idle hs)
  · exact (step_of_engine h).trans (engineTurn_of_idle (s := { s with env := { s.env with events := es } }) hs)

/-! ## Reset -/

/-- The state of reset is good for every property of tables, for it has none. -/
theorem reset_invWith (Q : Table → Env → Prop) : State.reset.InvWith Q := invWith_absent rfl rfl rfl rfl

/-- Settles O6: the reset state is a closed term, and so is every register of it. -/
theorem resetLeavesTheListedValues : Obligations.ResetLeavesTheListedValues := by
  unfold Obligations.ResetLeavesTheListedValues
  exact ⟨rfl, rfl, rfl, rfl, rfl, rfl, rfl, by decide⟩

/-- Settles O7: reset leaves no table, no reference and no iteration, so every invariant has nothing to speak of. -/
theorem resetStateIsGood : Obligations.ResetStateIsGood := by
  unfold Obligations.ResetStateIsGood
  obtain ⟨hshape, hpointers⟩ := (shape_pointers_iff State.reset).mpr (reset_invWith Table.Shaped)
  exact ⟨(inv_iff State.reset).mpr (reset_invWith Table.Inv), ⟨rfl, rfl⟩, hshape, hpointers⟩

end Sys2Proof.Machine
end

section
/-! SUPPORT. Register accesses (spec/20_memory.md R81 to R83, R88): a mapped register is reached at its own offset
alone, a read returns its view, a write acts on it, and what each register shows (spec/10_state.md R31 to R48). -/

namespace Sys2Proof.Machine

/-! ## The register map -/

/-- A register is reached at its offset. -/
@[simp] theorem accessedReg_offset (r : Reg) : accessedReg r.offset 4 = some r := by cases r <;> rfl

/-- A register is reached at its offset alone, with 4 bytes (R82, R83). -/
theorem accessedReg_some {off : BitVec 32} {n : Nat} {r : Reg} (h : accessedReg off n = some r) :
    n = 4 ∧ off = r.offset := by
  obtain ⟨rfl, m, hm, ho⟩ := (accessedReg_isSome off n).mp (by rw [h]; rfl)
  have hoff : off = BitVec.ofNat 32 (4 * m) := BitVec.eq_of_toNat_eq (by rw [ho, BitVec.toNat_ofNat]; omega)
  subst hoff
  refine ⟨rfl, ?_⟩
  interval_cases m <;> (obtain rfl := Option.some.inj h; rfl)

section
variable {s : State}

/-- A read of a mapped register while IDLE returns its view and does nothing else (R104). -/
theorem access_read_reg (hs : s.phase = .idle) (r : Reg) :
    s.access (.read .reg r.offset 4) = s.returns (s.readReg r) := by
  simp [State.access, hs, State.accessIdle, State.refuses, State.readValue]

/-- What a REG read returns while IDLE: the view of the register there, else 0 (R83). -/
theorem readData_read_reg (hs : s.phase = .idle) (off : BitVec 32) :
    (s.access (.read .reg off 4)).env.readData = (accessedReg off 4).elim 0#32 s.readReg := by
  cases hr : accessedReg off 4 with
  | none => simp [State.access, hs, State.accessIdle, State.refuses, hr]
  | some r => simp [State.access, hs, State.accessIdle, State.refuses, State.readValue, hr]

/-- A write of a mapped register while IDLE acts on that register. -/
theorem access_write_reg (hs : s.phase = .idle) (r : Reg) (v : Word) :
    s.access (.write .reg r.offset 4 v) = s.writeReg v r := by
  simp [State.access, hs, State.accessIdle, State.refuses, State.writeValue]

/-- A write of a mapped register while BUSY is dropped and sets BUSY_VIOL (R88). -/
theorem access_write_reg_busy (hs : s.phase = .busy) (r : Reg) (v : Word) :
    s.access (.write .reg r.offset 4 v) = { s with busyViol := true } := by
  simp [State.access, hs, State.accessBusy, State.busyMalformed, State.refuses]

/-- A read of a mapped register while BUSY returns the value R88 gives it and does nothing else. -/
theorem access_read_reg_busy (hs : s.phase = .busy) (r : Reg) :
    s.access (.read .reg r.offset 4) = s.returns (s.busyValue .reg r.offset 4) := by
  simp [State.access, hs, State.accessBusy, State.busyMalformed, State.refuses]

theorem phase_cases (s : State) : s.phase = .idle ∨ s.phase = .busy := by cases s.phase <;> simp

/-- ID, VERSION and STATUS are readable in either phase (spec/10_state.md R31, R33). -/
theorem access_read_anyPhase {r : Reg} (hr : r = .id ∨ r = .version ∨ r = .status) :
    s.access (.read .reg r.offset 4) = s.returns (s.readReg r) := by
  rcases phase_cases s with hs | hs
  · exact access_read_reg hs r
  · rw [access_read_reg_busy hs]
    rcases hr with rfl | rfl | rfl <;> simp only [State.busyValue, accessedReg_offset]

end

/-! ## The operand registers (spec/10_state.md R37 to R39) -/

/-- The registers that store what the host writes. -/
def operandRegs : List Reg := [.arg0, .arg1, .keyLen, .key0, .key1, .key2, .key3, .key4]

section
variable {s : State} {r : Reg}

theorem phase_writeReg_operand (hr : r ∈ operandRegs) (v : Word) : (s.writeReg v r).phase = s.phase := by
  simp only [operandRegs, List.mem_cons, List.not_mem_nil, or_false] at hr
  rcases hr with rfl | rfl | rfl | rfl | rfl | rfl | rfl | rfl <;> rfl

/-- An operand register but KEY_LEN reads back what was written. -/
theorem readReg_writeReg_same (hr : r ∈ operandRegs) (hlen : r ≠ .keyLen) (v : Word) :
    (s.writeReg v r).readReg r = v := by
  simp only [operandRegs, List.mem_cons, List.not_mem_nil, or_false] at hr
  rcases hr with rfl | rfl | rfl | rfl | rfl | rfl | rfl | rfl
  exacts [rfl, rfl, absurd rfl hlen, rfl, rfl, rfl, rfl, rfl]

/-- KEY_LEN reads back bits 4:0 (R38). -/
theorem readReg_writeReg_keyLen (v : Word) : (s.writeReg v .keyLen).readReg .keyLen = v &&& 0x1F#32 := by
  have hmask : (v.toNat &&& 31) = v.toNat % 32 := Nat.and_two_pow_sub_one_eq_mod v.toNat 5
  apply BitVec.eq_of_toNat_eq
  simp only [State.writeReg, State.readReg, BitVec.toNat_setWidth, BitVec.toNat_and, BitVec.toNat_ofNat]
  rw [Nat.mod_eq_of_lt (by decide : 31 < 2 ^ 32), hmask]
  omega

/-- Every other register reads as before. -/
theorem readReg_writeReg_other (hr : r ∈ operandRegs) {r' : Reg} (hne : r' ≠ r) (v : Word) :
    (s.writeReg v r).readReg r' = s.readReg r' := by
  simp only [operandRegs, List.mem_cons, List.not_mem_nil, or_false] at hr
  rcases hr with rfl | rfl | rfl | rfl | rfl | rfl | rfl | rfl <;> cases r' <;> simp at hne <;> rfl

/-- A read at another offset returns what it did before an operand register was written. -/
theorem readData_after_write_other (hs : s.phase = .idle) (hr : r ∈ operandRegs) (v : Word) {off : BitVec 32}
    (hoff : off ≠ r.offset) :
    ((s.access (.write .reg r.offset 4 v)).access (.read .reg off 4)).env.readData =
      (s.access (.read .reg off 4)).env.readData := by
  rw [access_write_reg hs, readData_read_reg ((phase_writeReg_operand hr v).trans hs), readData_read_reg hs]
  cases ha : accessedReg off 4 with
  | none => rfl
  | some r' =>
    have hne : r' ≠ r := by
      rintro rfl
      exact hoff (accessedReg_some ha).2
    exact readReg_writeReg_other hr hne v

/-- A read of an operand register after it was written. -/
theorem readData_after_write_same (hs : s.phase = .idle) (hr : r ∈ operandRegs) (v : Word) :
    ((s.access (.write .reg r.offset 4 v)).access (.read .reg r.offset 4)).env.readData =
      (s.writeReg v r).readReg r := by
  rw [access_write_reg hs, readData_read_reg ((phase_writeReg_operand hr v).trans hs), accessedReg_offset]
  rfl

end

/-- Settles O33, register by register from the rules of register accesses. -/
theorem writableRegistersReadBack : Obligations.WritableRegistersReadBack := by
  unfold Obligations.WritableRegistersReadBack
  intro s v off hs
  refine ⟨⟨access_write_reg hs .arg0 v, access_write_reg hs .arg1 v, ?_, access_write_reg hs .key0 v,
    access_write_reg hs .key1 v, access_write_reg hs .key2 v, access_write_reg hs .key3 v,
    access_write_reg hs .key4 v⟩, fun stored hst => ?_, fun hoff => ?_, ?_, fun off' hne => ?_⟩
  · rw [← BitVec.setWidth_eq_extractLsb' (by decide)]
    exact access_write_reg hs .keyLen v
  · rcases hst with ⟨rfl, rfl⟩ | ⟨rfl, rfl⟩ | ⟨rfl, rfl⟩ | ⟨rfl, rfl⟩ | ⟨rfl, rfl⟩ | ⟨rfl, rfl⟩ | ⟨rfl, rfl⟩ |
      ⟨rfl, rfl⟩
    · exact access_read_reg hs .arg0
    · exact access_read_reg hs .arg1
    · refine (access_read_reg hs .keyLen).trans ?_
      rw [State.readReg, BitVec.setWidth_eq_append (by decide)]
      rfl
    · exact access_read_reg hs .key0
    · exact access_read_reg hs .key1
    · exact access_read_reg hs .key2
    · exact access_read_reg hs .key3
    · exact access_read_reg hs .key4
  · obtain ⟨r, hr, hlen, rfl⟩ : ∃ r, r ∈ operandRegs ∧ r ≠ .keyLen ∧ off = r.offset := by
      rcases hoff with h | h | h | h | h | h | h
      exacts [⟨.arg0, by decide, by decide, h⟩, ⟨.arg1, by decide, by decide, h⟩, ⟨.key0, by decide, by decide, h⟩,
        ⟨.key1, by decide, by decide, h⟩, ⟨.key2, by decide, by decide, h⟩, ⟨.key3, by decide, by decide, h⟩,
        ⟨.key4, by decide, by decide, h⟩]
    exact ⟨(readData_after_write_same hs hr v).trans (readReg_writeReg_same hr hlen v),
      fun off' hne => readData_after_write_other hs hr v hne⟩
  · exact (readData_after_write_same hs (r := .keyLen) (by decide) v).trans (readReg_writeReg_keyLen v)
  · exact readData_after_write_other hs (r := .keyLen) (by decide) v hne

/-! ## The sticky bits (spec/10_state.md R35) -/

section
variable {s : State}

/-- No register write but that of STATUS clears a sticky bit. -/
theorem sticky_writeReg {r : Reg} (hr : r ≠ .status) (v : Word) :
    (s.writeReg v r).busyViol = s.busyViol ∧ (s.writeReg v r).busErr = s.busErr := by
  cases r <;> simp at hr <;> exact ⟨rfl, rfl⟩

/-- No write that is not refused clears one, but that of STATUS. -/
theorem sticky_writeValue {space : Space} {off : BitVec 32} {n : Nat} {v : Word}
    (hf : s.refuses space off n = false) (hns : ¬(space = .reg ∧ off = 0x0C#32 ∧ n = 4)) :
    (s.writeValue space off n v).busyViol = s.busyViol ∧ (s.writeValue space off n v).busErr = s.busErr := by
  rcases writeValue_cases s space off n v hf with
    ⟨r, rfl, hr, he⟩ | ⟨_, _, _, he⟩ | ⟨i, _, _, _, he⟩ | ⟨_, _, _, he⟩ <;> rw [he]
  · refine sticky_writeReg ?_ v
    rintro rfl
    obtain ⟨hn, hoff⟩ := accessedReg_some hr
    exact hns ⟨rfl, hoff, hn⟩
  · exact ⟨rfl, rfl⟩
  · exact ⟨rfl, rfl⟩
  · exact ⟨rfl, rfl⟩

/-- An access while BUSY clears none: BUS_ERR stays set or becomes a free value. -/
theorem sticky_busyMalformed (space : Space) (off : BitVec 32) (n : Nat) :
    (s.busyMalformed space off n).busyViol = s.busyViol ∧
      (s.busErr = true → (s.busyMalformed space off n).busErr = true) := by
  unfold State.busyMalformed
  split_ifs
  · exact ⟨rfl, fun h => by simp only [h, Bool.true_or]⟩
  · exact ⟨rfl, id⟩

/-- No access but a STATUS write clears a sticky bit. -/
theorem sticky_access {a : Access} (ha : ∀ v, a ≠ .write .reg 0x0C#32 4 v) :
    (s.busyViol = true → (s.access a).busyViol = true) ∧ (s.busErr = true → (s.access a).busErr = true) := by
  unfold State.access
  cases s.phase with
  | idle =>
    rcases accessIdle_cases s a with ⟨w, he⟩ | he | he | ⟨space, off, n, v, rfl, hf, he⟩ <;> simp only [he]
    · exact ⟨id, id⟩
    · exact ⟨id, fun _ => rfl⟩
    · exact ⟨id, fun _ => rfl⟩
    · obtain ⟨h1, h2⟩ := sticky_writeValue (v := v) hf (by
        rintro ⟨rfl, rfl, rfl⟩
        exact ha v rfl)
      rw [h1, h2]
      exact ⟨id, id⟩
  | busy =>
    cases a with
    | read space off n =>
      obtain ⟨h1, h2⟩ := sticky_busyMalformed (s := s) space off n
      exact ⟨fun h => h1.trans h, h2⟩
    | write space off n v =>
      obtain ⟨_, h2⟩ := sticky_busyMalformed (s := s) space off n
      exact ⟨fun _ => rfl, h2⟩

end

/-- Settles O36; that no command clears a sticky bit is part of what every command leaves alone. -/
theorem stickyBitsClearOnlyByWritingOnes : Obligations.StickyBitsClearOnlyByWritingOnes := by
  unfold Obligations.StickyBitsClearOnlyByWritingOnes
  refine ⟨fun s v hs => access_write_reg hs .status v, fun s t hs => ?_, fun s a ha => sticky_access ha,
    fun s v hs => access_write_reg_busy hs .status v⟩
  have hhost := (executeLatched_completes hs).hostSide
  simp only [State.hostSide, Prod.mk.injEq] at hhost
  obtain ⟨_, _, _, _, ⟨hv, hb⟩, _⟩ := hhost
  exact ⟨hv, hb⟩

/-! ## STATUS (spec/10_state.md R33) -/

theorem getLsbD_bitAt (n : Nat) (b : Bool) {i : Nat} (hi : i < 32) : (bitAt n b).getLsbD i = (b && decide (n = i)) := by
  cases b
  · simp [bitAt]
  · simp only [bitAt, if_true, BitVec.getLsbD_ofNat, Nat.testBit_two_pow, hi, decide_true, Bool.true_and]

/-- The flags of STATUS, bits 10:0. -/
theorem getLsbD_status_low (s : State) {i : Nat} (hi : i < 16) :
    s.status.getLsbD i =
      ((decide (s.phase = .busy) && decide (0 = i)) || (s.hasTable && decide (1 = i)) ||
        (s.iterActive && decide (2 = i)) ||
        (decide (s.tstate = .disposing) && decide (3 = i)) || (decide (s.ref ≠ .none) && decide (4 = i)) ||
        (s.grew && decide (5 = i)) || (s.shrank && decide (6 = i)) || (s.shrinkFail && decide (7 = i)) ||
        (s.busyViol && decide (8 = i)) || (s.busErr && decide (9 = i)) ||
        (s.hasTable && s.tab.disposer && decide (10 = i))) := by
  have h32 : i < 32 := by omega
  simp only [State.status, BitVec.getLsbD_or, getLsbD_bitAt _ _ h32, BitVec.getLsbD_shiftLeft, hi, decide_true,
    Bool.not_true, Bool.and_false, Bool.false_and, Bool.or_false]

/-- ERR, bits 23:16, and the reserved bits above it. -/
theorem getLsbD_status_high (s : State) {i : Nat} (hi : 16 ≤ i) (h32 : i < 32) :
    s.status.getLsbD i = s.err.code.getLsbD (i - 16) := by
  have hne : ∀ n, n < 16 → decide (n = i) = false := fun n hn => by simp; omega
  have hlt : i - 16 < 32 := by omega
  have hge : ¬ i < 16 := by omega
  simp only [State.status, BitVec.getLsbD_or, getLsbD_bitAt _ _ h32, BitVec.getLsbD_shiftLeft, BitVec.getLsbD_setWidth,
    hne 0 (by decide), hne 1 (by decide), hne 2 (by decide), hne 3 (by decide), hne 4 (by decide), hne 5 (by decide),
    hne 6 (by decide), hne 7 (by decide), hne 8 (by decide), hne 9 (by decide), hne 10 (by decide), h32, hlt, hge,
    decide_true, decide_false, Bool.not_false, Bool.and_false, Bool.or_false, Bool.false_or, Bool.true_and]

theorem status_reserved_low (s : State) : s.status.extractLsb' 11 5 = 0#5 := by
  apply BitVec.eq_of_getLsbD_eq
  intro i hi
  have hne : ∀ n, n < 11 → decide (n = 11 + i) = false := fun n hn => by simp; omega
  rw [BitVec.getLsbD_extractLsb', getLsbD_status_low s (by omega)]
  simp [hne]

theorem status_err (s : State) : s.status.extractLsb' 16 8 = s.err.code := by
  apply BitVec.eq_of_getLsbD_eq
  intro i hi
  rw [BitVec.getLsbD_extractLsb', getLsbD_status_high s (by omega) (by omega)]
  simp [hi]

theorem status_reserved_high (s : State) : s.status.extractLsb' 24 8 = 0#8 := by
  apply BitVec.eq_of_getLsbD_eq
  intro i hi
  rw [BitVec.getLsbD_extractLsb', getLsbD_status_high s (by omega) (by omega), BitVec.getLsbD_of_ge _ _ (by omega)]
  simp

/-- Bits 10:0, one by one. -/
theorem status_flags (s : State) :
    s.status.getLsbD 0 = decide (s.phase = .busy) ∧ s.status.getLsbD 1 = decide (s.tstate ≠ .none) ∧
      s.status.getLsbD 2 = s.iterActive ∧ s.status.getLsbD 3 = decide (s.tstate = .disposing) ∧
      s.status.getLsbD 4 = decide (s.ref ≠ .none) ∧ s.status.getLsbD 5 = s.grew ∧ s.status.getLsbD 6 = s.shrank ∧
      s.status.getLsbD 7 = s.shrinkFail ∧ s.status.getLsbD 8 = s.busyViol ∧ s.status.getLsbD 9 = s.busErr ∧
      s.status.getLsbD 10 = (decide (s.tstate ≠ .none) && s.tab.disposer) := by
  refine ⟨?_, ?_, ?_, ?_, ?_, ?_, ?_, ?_, ?_, ?_, ?_⟩ <;> rw [getLsbD_status_low s (by decide)] <;>
    simp [State.hasTable]

/-- The error codes are the numbers from 0 to 15 (spec/60_exceptions.md R400). -/
theorem ErrCode.code_le (c : ErrCode) : c.code.toNat ≤ 0x0F := by cases c <;> decide

/-- Settles O37: STATUS bit by bit, and the accesses to the four registers. -/
theorem statusBitsShowTheState : Obligations.StatusBitsShowTheState := by
  unfold Obligations.StatusBitsShowTheState
  intro s
  obtain ⟨h0, h1, h2, h3, h4, h5, h6, h7, h8, h9, h10⟩ := status_flags s
  have herr := status_err s
  refine ⟨⟨h0, h1, h2, h3, h4, h5, h6, h7, h8, h9, h10, status_reserved_low s, herr, status_reserved_high s⟩,
    ⟨rfl, rfl, rfl, rfl, rfl, rfl, rfl, rfl, rfl, rfl, rfl, rfl, rfl, rfl, rfl, rfl, herr ▸ s.err.code_le⟩,
    access_read_anyPhase (r := .id) (by simp), access_read_anyPhase (r := .version) (by simp),
    access_read_anyPhase (r := .status) (by simp), fun hs => ⟨access_read_reg hs .result, fun v off hoff => ?_⟩⟩
  simp only [List.mem_cons, List.not_mem_nil, or_false] at hoff
  rcases hoff with rfl | rfl | rfl
  exacts [access_write_reg hs .id v, access_write_reg hs .version v, access_write_reg hs .result v]

/-- Settles O38, per phase. -/
theorem cmdWriteLatchesTheCommand : Obligations.CmdWriteLatchesTheCommand := by
  unfold Obligations.CmdWriteLatchesTheCommand
  intro s v
  refine ⟨fun hs => access_write_reg hs .cmd v, fun hs => access_write_reg_busy hs .cmd v, ?_⟩
  rcases phase_cases s with hs | hs
  · exact access_read_reg hs .cmd
  · exact access_read_reg_busy hs .cmd

/-! ## The mirrors and the REF registers (spec/10_state.md R41, R48) -/

/-- A register that ignores writes. -/
theorem access_write_readOnly {s : State} (hs : s.phase = .idle) {r : Reg} (hr : ∀ v, s.writeReg v r = s) (v : Word) :
    s.access (.write .reg r.offset 4 v) = s :=
  (access_write_reg hs r v).trans (hr v)

theorem mirror_of_table {s : State} (h : s.tstate ≠ .none) (v : Word) : s.mirror v = v := by
  simp [State.mirror, State.hasTable, h]

theorem mirror_of_none {s : State} (h : s.tstate = .none) (v : Word) : s.mirror v = 0#32 := by
  simp [State.mirror, State.hasTable, h]

/-- The mirror registers are read-only, each with the table field that it mirrors. -/
theorem mirror_register {s : State} {off : BitVec 32} {field : Word}
    (h : off = 0x34#32 ∧ field = s.tab.e.setWidth 32 ∨ off = 0x38#32 ∧ field = s.tab.occ ∨
      off = 0x3C#32 ∧ field = s.tab.itemSize ∨ off = 0x40#32 ∧ field = s.tab.slotSize) :
    ∃ r : Reg, off = r.offset ∧ s.readReg r = s.mirror field ∧ ∀ v, s.writeReg v r = s := by
  rcases h with ⟨rfl, rfl⟩ | ⟨rfl, rfl⟩ | ⟨rfl, rfl⟩ | ⟨rfl, rfl⟩
  exacts [⟨.capExp, rfl, rfl, fun _ => rfl⟩, ⟨.occ, rfl, rfl, fun _ => rfl⟩, ⟨.itemSize, rfl, rfl, fun _ => rfl⟩,
    ⟨.slotSize, rfl, rfl, fun _ => rfl⟩]

/-- Settles O39: after reset too, for reset leaves no table. -/
theorem mirrorsShowTheTable : Obligations.MirrorsShowTheTable := by
  unfold Obligations.MirrorsShowTheTable
  refine ⟨fun s off field hs hoff => ?_, fun off hoff => ?_⟩
  · obtain ⟨r, rfl, hread, hwrite⟩ := mirror_register hoff
    refine ⟨fun ht => ?_, fun ht => ?_, access_write_readOnly hs hwrite⟩
    · rw [access_read_reg hs, hread, mirror_of_table ht]
      rfl
    · rw [access_read_reg hs, hread, mirror_of_none ht]
      rfl
  · obtain ⟨field, hfield⟩ : ∃ field, off = 0x34#32 ∧ field = State.reset.tab.e.setWidth 32 ∨
        off = 0x38#32 ∧ field = State.reset.tab.occ ∨ off = 0x3C#32 ∧ field = State.reset.tab.itemSize ∨
        off = 0x40#32 ∧ field = State.reset.tab.slotSize := by
      simp only [List.mem_cons, List.not_mem_nil, or_false] at hoff
      rcases hoff with rfl | rfl | rfl | rfl <;> simp
    obtain ⟨r, rfl, hread, _⟩ := mirror_register hfield
    rw [readData_read_reg rfl, accessedReg_offset]
    exact hread.trans (mirror_of_none rfl field)

/-- The REF_KEY registers are the five at `0x48`, read-only, each a word of the key that the reference shows. -/
theorem refKey_register {j : Nat} (hj : j < 5) : ∃ r : Reg, BitVec.ofNat 32 (0x48 + 4 * j) = r.offset ∧
    (∀ s : State, s.readReg r = keyWord s.refKey j) ∧ ∀ (s : State) (v : Word), s.writeReg v r = s := by
  interval_cases j
  exacts [⟨.refKey0, rfl, fun _ => rfl, fun _ _ => rfl⟩, ⟨.refKey1, rfl, fun _ => rfl, fun _ _ => rfl⟩,
    ⟨.refKey2, rfl, fun _ => rfl, fun _ _ => rfl⟩, ⟨.refKey3, rfl, fun _ => rfl, fun _ _ => rfl⟩,
    ⟨.refKey4, rfl, fun _ => rfl, fun _ _ => rfl⟩]

/-- The six registers of R48 are mapped and read-only. -/
theorem refSpace_register {j : Nat} (hj : j < 6) : ∃ r : Reg, BitVec.ofNat 32 (0x44 + 4 * j) = r.offset ∧
    ∀ (s : State) (v : Word), s.writeReg v r = s := by
  cases j with
  | zero => exact ⟨.refIndex, rfl, fun _ _ => rfl⟩
  | succ j =>
    obtain ⟨r, hr, _, hw⟩ := refKey_register (j := j) (by omega)
    exact ⟨r, by rw [← hr, show 0x44 + 4 * (j + 1) = 0x48 + 4 * j by omega], hw⟩

/-- Byte `b` of word `j` of a key buffer is its byte `4j + b` (spec/10_state.md R39). -/
theorem keyWord_byte (k : KeyBuf) (j : Nat) {b : Nat} (hb : b < 4) :
    (keyWord k j).extractLsb' (8 * b) 8 = keyByte k (4 * j + b) := by
  apply BitVec.eq_of_getLsbD_eq
  intro i hi
  have hin : 8 * b + i < 32 := by omega
  simp only [keyWord, keyByte, BitVec.getLsbD_extractLsb', hi, hin, decide_true, Bool.true_and]
  rw [show 8 * (4 * j + b) + i = 32 * j + (8 * b + i) by omega]

/-- The key that the REF_KEY registers show, in each case of R48. -/
theorem refKey_eq {s : State} {key : KeyBuf} (h : (s.ref = .none ∨ s.tstate = .disposing) ∧ key = 0#160 ∨
    s.tstate ≠ .disposing ∧
      (s.ref = .removed ∧ key = s.tab.removedKey ∨ ∃ i, s.ref = .slot i ∧ key = (s.tab.slot i).key)) :
    s.refKey = key := by
  unfold State.refKey
  rcases h with ⟨hr | hd, rfl⟩ | ⟨hd, ⟨hr, rfl⟩ | ⟨i, hr, rfl⟩⟩
  · rw [hr]
    split_ifs <;> rfl
  · rw [if_pos hd]
  · rw [if_neg hd, hr]
  · rw [if_neg hd, hr]

/-- Settles O40: REF_INDEX, then the five words of the key, then the frames of the six registers. -/
theorem refRegistersShowTheNamedEntry : Obligations.RefRegistersShowTheNamedEntry := by
  unfold Obligations.RefRegistersShowTheNamedEntry
  have hindex : ∀ s : State, s.phase = .idle → (s.access (.read .reg 0x44#32 4)).env.readData = s.refIndex :=
    fun s hs => readData_read_reg hs Reg.refIndex.offset
  have hkey : ∀ s : State, s.phase = .idle → ∀ j, j < 5 →
      (s.access (.read .reg (BitVec.ofNat 32 (0x48 + 4 * j)) 4)).env.readData = keyWord s.refKey j := by
    intro s hs j hj
    obtain ⟨r, hr, hread, _⟩ := refKey_register hj
    rw [hr, access_read_reg hs, hread]
    rfl
  refine ⟨fun s hs => ⟨fun i hi => ?_, fun hi => ?_, fun hi => ?_, fun key h j b hj hb => ?_, fun j hj => ?_,
    fun j v hj => ?_⟩, hindex State.reset rfl, fun j hj => ?_⟩
  · rw [hindex s hs, State.refIndex, hi]
  · rw [hindex s hs, State.refIndex, hi]
  · rw [hindex s hs, State.refIndex, hi]
  · rw [hkey s hs j hj, refKey_eq h, keyWord_byte key j hb]
  · obtain ⟨r, hr, _⟩ := refSpace_register hj
    rw [hr, access_read_reg hs]
    rfl
  · obtain ⟨r, hr, hw⟩ := refSpace_register hj
    rw [hr]
    exact access_write_readOnly hs (hw s) v
  · rw [hkey State.reset rfl j hj, refKey_eq (key := 0#160) (.inl ⟨.inl rfl, rfl⟩), keyWord, BitVec.extractLsb'_zero]

end Sys2Proof.Machine
end

section
/-! SUPPORT. What host accesses and steps do not depend on: the secret (spec/10_state.md R46), and the table fields
while no table exists (R42). Both compare a state with the same state under another table. -/

namespace Sys2Proof.Machine

/-- The state with another table in place of its own. -/
def State.mapTable (f : Table → Table) (s : State) : State := { s with tab := f s.tab }

/-- Under the exchange `f` of tables the host sees the same of `s`, and its writes commute with the exchange. -/
structure HiddenFromHost (f : Table → Table) (s : State) : Prop where
  readReg : ∀ r, (s.mapTable f).readReg r = s.readReg r
  refuses : ∀ space off n, (s.mapTable f).refuses space off n = s.refuses space off n
  readValue : ∀ space off n, s.refuses space off n = false →
    (s.mapTable f).readValue space off n = s.readValue space off n
  writeValue : ∀ space off n v, s.refuses space off n = false →
    (s.mapTable f).writeValue space off n v = (s.writeValue space off n v).mapTable f

section
variable {f : Table → Table} {s : State}

theorem HiddenFromHost.accessIdle (h : HiddenFromHost f s) (a : Access) :
    (s.mapTable f).accessIdle a = (s.accessIdle a).mapTable f := by
  cases a with
  | read space off n =>
    cases hf : s.refuses space off n with
    | true => simp only [State.accessIdle, h.refuses, hf, if_true]; rfl
    | false => simp only [State.accessIdle, h.refuses, hf, h.readValue space off n hf]; rfl
  | write space off n v =>
    cases hf : s.refuses space off n with
    | true => simp only [State.accessIdle, h.refuses, hf, if_true]; rfl
    | false => simp only [State.accessIdle, h.refuses, hf, h.writeValue space off n v hf]; rfl

theorem HiddenFromHost.busyValue (h : HiddenFromHost f s) (space : Space) (off : BitVec 32) (n : Nat) :
    (s.mapTable f).busyValue space off n = s.busyValue space off n := by
  simp only [State.busyValue, h.readReg]

theorem HiddenFromHost.busyMalformed (h : HiddenFromHost f s) (space : Space) (off : BitVec 32) (n : Nat) :
    (s.mapTable f).busyMalformed space off n = (s.busyMalformed space off n).mapTable f := by
  simp only [State.busyMalformed, h.refuses]
  split_ifs <;> rfl

theorem HiddenFromHost.accessBusy (h : HiddenFromHost f s) (a : Access) :
    (s.mapTable f).accessBusy a = (s.accessBusy a).mapTable f := by
  cases a with
  | read space off n => simp only [State.accessBusy, h.busyMalformed, h.busyValue]; rfl
  | write space off n v => simp only [State.accessBusy, h.busyMalformed]; rfl

/-- A host access commutes with an exchange of tables that the host does not see. -/
theorem HiddenFromHost.access (h : HiddenFromHost f s) (a : Access) :
    (s.mapTable f).access a = (s.access a).mapTable f := by
  have hp : (s.mapTable f).phase = s.phase := rfl
  unfold State.access
  rw [hp]
  cases s.phase with
  | idle => exact h.accessIdle a
  | busy => exact h.accessBusy a

/-- A register write neither reads the table nor writes it. -/
theorem writeReg_mapTable (f : Table → Table) (s : State) (w : Word) (r : Reg) :
    (s.mapTable f).writeReg w r = (s.writeReg w r).mapTable f := by
  cases r <;> rfl

end

/-! ## The secret -/

/-- A table with another secret. -/
def Table.withSecret (sec : Secret) (t : Table) : Table := { t with secret := sec }

/-- No register, no aperture and no refusal reads the secret. -/
theorem secret_hidden (sec : Secret) (s : State) : HiddenFromHost (Table.withSecret sec) s where
  readReg r := by cases r <;> rfl
  refuses space off n := by cases space <;> rfl
  readValue space off n _ := by
    cases space with
    | reg =>
      simp only [State.readValue]
      cases accessedReg off n with
      | none => rfl
      | some r => cases r <;> rfl
    | stage => rfl
    | ref => rfl
    | reserved => rfl
  writeValue space off n v _ := by
    cases space with
    | reg =>
      simp only [State.writeValue]
      cases accessedReg off n with
      | none => rfl
      | some r => exact writeReg_mapTable _ s v r
    | stage => rfl
    | ref =>
      have hr : (s.mapTable (Table.withSecret sec)).refRegion = s.refRegion := rfl
      simp only [State.writeValue, hr]
      cases s.refRegion <;> rfl
    | reserved => rfl

/-- Settles O44: the secret is hidden from the host, and accesses commute with an exchange that is. -/
theorem secretIsNotReadable : Obligations.SecretIsNotReadable := by
  unfold Obligations.SecretIsNotReadable
  intro s sec a
  exact (secret_hidden sec s).access a

/-! ## The table fields while no table exists -/

section
variable {s : State}

/-- Without a table and a reference every register shows the same whatever the table fields are. -/
theorem readReg_without_table (ht : s.tstate = .none) (hr : s.ref = .none) (f : Table → Table) (r : Reg) :
    (s.mapTable f).readReg r = s.readReg r := by
  have hmirror : ∀ v w, (s.mapTable f).mirror v = s.mirror w := fun v w =>
    (mirror_of_none (s := s.mapTable f) ht v).trans (mirror_of_none ht w).symm
  have hstatus : (s.mapTable f).status = s.status := by
    simp [State.status, State.hasTable, State.mapTable, ht]
  have hkey : (s.mapTable f).refKey = s.refKey :=
    (refKey_eq (s := s.mapTable f) (.inl ⟨.inl hr, rfl⟩)).trans (refKey_eq (.inl ⟨.inl hr, rfl⟩)).symm
  cases r with
  | capExp | occ | itemSize | slotSize => exact hmirror _ _
  | status => exact hstatus
  | refKey0 | refKey1 | refKey2 | refKey3 | refKey4 => simp only [State.readReg, hkey]
  | id | version | cmd | result | arg0 | arg1 | keyLen | key0 | key1 | key2 | key3 | key4 | refIndex => rfl

/-- Without a table and a reference both apertures are closed, so an access is one to a register, or refused. -/
theorem refuses_without_table (ht : s.tstate = .none) (hr : s.ref = .none) {space : Space} (hs : space ≠ .reg)
    (off : BitVec 32) (n : Nat) : s.refuses space off n = true := by
  cases space with
  | reg => exact absurd rfl hs
  | stage => simp [State.refuses, State.stageOpen, ht]
  | ref => simp [State.refuses, State.refRegion, hr]
  | reserved => rfl

theorem absent_hidden (ht : s.tstate = .none) (hr : s.ref = .none) (f : Table → Table) : HiddenFromHost f s where
  readReg := readReg_without_table ht hr f
  refuses space off n := by
    by_cases hs : space = .reg
    · rw [hs]; rfl
    · exact (refuses_without_table (s := s.mapTable f) ht hr hs off n).trans
        (refuses_without_table ht hr hs off n).symm
  readValue space off n hf := by
    by_cases hs : space = .reg
    · subst hs
      simp only [State.readValue, readReg_without_table ht hr f]
    · rw [refuses_without_table ht hr hs] at hf
      cases hf
  writeValue space off n v hf := by
    by_cases hs : space = .reg
    · subst hs
      simp only [State.writeValue, writeReg_mapTable]
      cases accessedReg off n <;> rfl
    · rw [refuses_without_table ht hr hs] at hf
      cases hf

/-- What a step without a table answers, and what it answers under an exchange `f` of the table fields: the same next
state under the exchange, or the very same one, where the table fields were overwritten. -/
def SameUnder (f : Table → Table) (o o' : Host.Outcome State Fault Refusal) : Prop :=
  (∃ t, o = .next t ∧ t.tstate = .none ∧ (o' = .next (t.mapTable f) ∨ o' = .next t)) ∨
    ∃ t, o = .next t ∧ t.tstate = .ready ∧ o' = .next t

theorem sameUnder_of_mapTable {f : Table → Table} {t : State} (ht : t.tstate = .none) :
    SameUnder f (.next t) (.next (t.mapTable f)) := .inl ⟨t, rfl, ht, .inl rfl⟩

/-- A creation does not look at the old table fields: it fails the same way, or overwrites them. -/
theorem tableCreate_sameUnder (ht : s.tstate = .none) (f : Table → Table) (exp item : Nat) (z p : Bool) :
    SameUnder f (.next (s.tableCreate exp item z p)) (.next ((s.mapTable f).tableCreate exp item z p)) := by
  have hsecret : (s.mapTable f).newSecret z = s.newSecret z := rfl
  have hmem : (s.mapTable f).env.memBytes = s.env.memBytes := rfl
  have hdrawn : (s.mapTable f).secretDrawn z = (s.secretDrawn z).mapTable f := by cases z <;> rfl
  have htd : (s.secretDrawn z).tstate = .none := by cases z <;> exact ht
  simp only [State.tableCreate, hmem, hsecret, hdrawn]
  split_ifs
  · exact sameUnder_of_mapTable (t := s.raise .capExp) ht
  · exact sameUnder_of_mapTable (t := s.raise .itemSize) ht
  · exact sameUnder_of_mapTable (t := s.raise .alloc) ht
  · cases s.newSecret z with
    | none => exact sameUnder_of_mapTable (t := (s.secretDrawn z).raise .entropy) htd
    | some sec => exact .inr ⟨_, rfl, rfl, rfl⟩

/-- Without a table every command but a creation fails with ERR_STATE (spec/60_exceptions.md R401). -/
theorem exec_without_table (ht : s.tstate = .none) {i : Instr} (hi : ∀ z p, i ≠ .init z p ∧ i ≠ .initSize z p) :
    exec i s = .next (s.raise .state) := by
  cases i with
  | init z p => exact absurd rfl (hi z p).1
  | initSize z p => exact absurd rfl (hi z p).2
  | insert k d => simp [exec, execInsert, ht]
  | get k => simp [exec, execGet, ht]
  | remove k => simp [exec, execRemove, ht]
  | len => simp [exec, execLen, ht]
  | iterStart => simp [exec, execIterStart, ht]
  | iterNext => simp [exec, execIterNext, ht]
  | iterStop => simp [exec, execIterStop, ht]
  | free => simp [exec, execFree, ht]
  | disposeAck => simp [exec, execDisposeAck, ht]
  | peek => simp [exec, execPeek, ht]

theorem execInit_without_table (ht : s.tstate = .none) (z p : Bool) :
    exec (.init z p) s = .next (s.tableCreate s.latch.arg0.toNat s.latch.arg1.toNat z p) := by
  simp [exec, execInit, ht]

theorem execInitSize_without_table (ht : s.tstate = .none) (z p : Bool) :
    exec (.initSize z p) s = (expForSize s.latch.arg0.toNat).elim (.next (s.raise .capExp))
      fun x => .next (s.tableCreate x s.latch.arg1.toNat z p) := by
  simp only [exec, execInitSize, ht, ne_eq, not_true_eq_false, if_false]
  cases expForSize s.latch.arg0.toNat <;> rfl

theorem exec_sameUnder (ht : s.tstate = .none) (f : Table → Table) (i : Instr) :
    SameUnder f (exec i s) (exec i (s.mapTable f)) := by
  have ht' : (s.mapTable f).tstate = .none := ht
  by_cases hi : ∀ z p, i ≠ .init z p ∧ i ≠ .initSize z p
  · rw [exec_without_table ht hi, exec_without_table ht' hi]
    exact sameUnder_of_mapTable (t := s.raise .state) ht
  · cases i with
    | init z p =>
      rw [execInit_without_table ht, execInit_without_table ht']
      exact tableCreate_sameUnder ht f _ _ z p
    | initSize z p =>
      rw [execInitSize_without_table ht, execInitSize_without_table ht']
      show SameUnder f _ ((expForSize s.latch.arg0.toNat).elim _ _)
      cases expForSize s.latch.arg0.toNat with
      | none => exact sameUnder_of_mapTable (t := s.raise .capExp) ht
      | some x => exact tableCreate_sameUnder ht f x _ z p
    | insert | get | remove | len | iterStart | iterNext | iterStop | free | disposeAck | peek => simp at hi

theorem executeLatched_sameUnder (ht : s.tstate = .none) (f : Table → Table) :
    SameUnder f s.executeLatched (s.mapTable f).executeLatched := by
  have hl : (s.mapTable f).latch = s.latch := rfl
  simp only [State.executeLatched, hl]
  cases decode s.latch.word with
  | ok i => exact exec_sameUnder ht f i
  | error _ => exact sameUnder_of_mapTable (t := s.raise .illegalCmd) ht

theorem engineTurn_sameUnder (ht : s.tstate = .none) (f : Table → Table) :
    SameUnder f s.engineTurn (s.mapTable f).engineTurn := by
  rcases phase_cases s with hp | hp
  · rw [engineTurn_of_idle hp, engineTurn_of_idle (s := s.mapTable f) hp]
    exact sameUnder_of_mapTable ht
  · rw [engineTurn_of_busy hp, engineTurn_of_busy (s := s.mapTable f) hp]
    exact executeLatched_sameUnder ht f

/-- A host access creates no table and releases none. -/
theorem tstate_access (s : State) (a : Access) : (s.access a).tstate = s.tstate := by
  rcases phase_cases s with hp | hp <;> simp only [State.access, hp]
  · rcases accessIdle_cases s a with ⟨w, he⟩ | he | he | ⟨space, off, n, v, _, hf, he⟩ <;> rw [he]
    · rfl
    · rfl
    · rfl
    · rcases writeValue_cases s space off n v hf with
        ⟨r, _, _, hw⟩ | ⟨_, _, _, hw⟩ | ⟨i, _, _, _, hw⟩ | ⟨_, _, _, hw⟩ <;> rw [hw]
      exact congrArg Prod.fst (writeReg_tableSide s v r)
  · cases a with
    | read space off n => exact congrArg Prod.fst (busyMalformed_tableSide s space off n)
    | write space off n v => exact congrArg Prod.fst (busyMalformed_tableSide s space off n)

theorem step_sameUnder (ht : s.tstate = .none) (hr : s.ref = .none) (f : Table → Table) :
    SameUnder f (step s) (step (s.mapTable f)) := by
  have hev : (s.mapTable f).env.events = s.env.events := rfl
  have hpop : (s.mapTable f).popEvent = s.popEvent.mapTable f := rfl
  simp only [step, hev, hpop]
  cases s.env.events with
  | nil => exact engineTurn_sameUnder ht f
  | cons e es =>
    cases e with
    | engine => exact engineTurn_sameUnder (s := s.popEvent) ht f
    | access a =>
      have hhidden := (absent_hidden (s := s.popEvent) ht hr f).access a
      simp only [hhidden]
      exact sameUnder_of_mapTable ((tstate_access s.popEvent a).trans ht)
    | reset => exact .inl ⟨_, rfl, rfl, .inr rfl⟩

end

/-- Settles O45: without a table the fields are hidden from the host and from every command. -/
theorem absentTableIsNeverRead : Obligations.AbsentTableIsNeverRead := by
  unfold Obligations.AbsentTableIsNeverRead
  intro s u ht hr
  exact ⟨readReg_without_table ht hr fun _ => u, step_sameUnder ht hr fun _ => u⟩

end Sys2Proof.Machine
end

section
/-! SUPPORT. What a command leaves in the table (spec/42_table_commands.md, spec/43_map_commands.md), said once for all
commands, and the canonical form of slot RAM (log entry 8) along every step. -/

namespace Sys2Proof.Machine

/-! ## The table that a command leaves -/

/-- The tables that a command started on table `t` can leave: `t` itself, none, a new one, or `t` after the steps of
INSERT (spec/43_map_commands.md R300) or of REMOVE (R320). -/
inductive TableAfter (memBytes : Nat) (t : Table) : Table → Prop where
  | kept : TableAfter memBytes t t
  | released : TableAfter memBytes t Table.absent
  | created (exp item : Nat) (p : Bool) (sec : Secret) : TableAfter memBytes t (newTable exp item p sec)
  | grown {u : Table} {grew : Bool} : t.growArbiter memBytes = .proceed u grew → TableAfter memBytes t u
  | placed {u : Table} {grew : Bool} {c : Candidate} {b : Memory} : t.growArbiter memBytes = .proceed u grew →
      insertWalk u.geometry u.e.toNat u.array c = .placed b →
      TableAfter memBytes t { u with array := b, occ := u.occ + 1#32 }
  | replaced {u : Table} {grew : Bool} {c : Candidate} {b : Memory} : t.growArbiter memBytes = .proceed u grew →
      insertWalk u.geometry u.e.toNat u.array c = .replaced b → TableAfter memBytes t { u with array := b }
  | removed {i : Nat} : t.takenAt i → TableAfter memBytes t ((t.removeAt i).shrinkArbiter memBytes).table

section
variable {s t : State}

theorem tableCreate_tableAfter (s : State) (exp item : Nat) (z p : Bool) :
    TableAfter s.env.memBytes s.tab (s.tableCreate exp item z p).tab := by
  have hdrawn : (s.secretDrawn z).tab = s.tab := by cases z <;> rfl
  rcases tableCreate_cases s exp item z p with
    ⟨_, he⟩ | ⟨_, _, ⟨_, he⟩ | ⟨_, ⟨_, he⟩ | ⟨_, ⟨_, he⟩ | ⟨sec, _, he⟩⟩⟩⟩ <;> rw [he]
  · exact .kept
  · exact .kept
  · exact .kept
  · rw [State.raise_tab, hdrawn]
    exact .kept
  · exact .created exp item p sec

theorem insertInto_tableAfter {u : Table} {grew : Bool} (hg : s.tab.growArbiter s.env.memBytes = .proceed u grew)
    (k : KeyOperand) : TableAfter s.env.memBytes s.tab (s.insertInto u grew k).tab := by
  rcases insertInto_cases s u grew k with ⟨b, hw, he⟩ | ⟨b, hw, he⟩ | ⟨_, he⟩ <;> rw [he]
  · exact .placed hg hw
  · exact .replaced hg hw
  · exact .grown hg

theorem execInsert_tableAfter {k d : Bool} (hs : execInsert k d s = .next t) :
    TableAfter s.env.memBytes s.tab t.tab := by
  unfold execInsert at hs
  split at hs
  · rw [next_inj hs]
    exact .kept
  · split at hs
    · rw [next_inj hs]
      exact .kept
    · split at hs
      · rw [next_inj hs]
        exact .kept
      · split at hs
        · rw [next_inj hs]
          exact .kept
        · next hg =>
          rw [next_inj hs]
          exact insertInto_tableAfter (s := s.endReferences) hg _

theorem execRemove_tableAfter {k : Bool} (hs : execRemove k s = .next t) : TableAfter s.env.memBytes s.tab t.tab := by
  unfold execRemove at hs
  split at hs
  · rw [next_inj hs]
    exact .kept
  · split at hs
    · rw [next_inj hs]
      exact .kept
    · split at hs
      · rw [next_inj hs]
        exact .kept
      · next hfind =>
        rw [next_inj hs]
        exact .removed (takenAt_of_findSlot hfind)

theorem execGet_tab {k : Bool} (hs : execGet k s = .next t) : t.tab = s.tab := by
  unfold execGet at hs
  split at hs
  · rw [next_inj hs]; rfl
  · split at hs
    · rw [next_inj hs]; rfl
    · split at hs <;> rw [next_inj hs] <;> rfl

theorem present_tab (s : State) (lo : Nat) : (s.present lo).tab = s.tab := by
  rcases present_cases s lo with ⟨j, _, he⟩ | ⟨_, he⟩ <;> rw [he] <;> rfl

/-- Every command leaves one of these tables. -/
theorem exec_tableAfter {i : Instr} (hs : exec i s = .next t) : TableAfter s.env.memBytes s.tab t.tab := by
  have hkept : t.tab = s.tab → TableAfter s.env.memBytes s.tab t.tab := fun h => h ▸ .kept
  cases i with
  | init z p =>
    simp only [exec, execInit] at hs
    split_ifs at hs <;> cases hs
    exacts [.kept, tableCreate_tableAfter s _ _ z p]
  | initSize z p =>
    simp only [exec, execInitSize] at hs
    split_ifs at hs
    · cases hs
      exact .kept
    · split at hs <;> cases hs
      exacts [.kept, tableCreate_tableAfter s _ _ z p]
  | insert k d => exact execInsert_tableAfter hs
  | get k => exact hkept (execGet_tab hs)
  | remove k => exact execRemove_tableAfter hs
  | len =>
    simp only [exec, execLen] at hs
    split_ifs at hs <;> cases hs <;> exact .kept
  | iterStart =>
    simp only [exec, execIterStart] at hs
    split_ifs at hs <;> cases hs
    exacts [.kept, hkept (present_tab s _)]
  | iterNext =>
    simp only [exec, execIterNext] at hs
    split_ifs at hs <;> cases hs
    exacts [.kept, hkept (present_tab s _)]
  | iterStop =>
    simp only [exec, execIterStop] at hs
    split_ifs at hs <;> cases hs <;> exact .kept
  | free =>
    simp only [exec, execFree] at hs
    split_ifs at hs
    · cases hs
      exact .kept
    · split at hs <;> cases hs
      exact .kept
    · cases hs
      exact .released
  | disposeAck =>
    simp only [exec, execDisposeAck] at hs
    split_ifs at hs
    · cases hs
      exact .kept
    · split at hs <;> cases hs
      exacts [.kept, .released]
  | peek =>
    simp only [exec, execPeek] at hs
    split_ifs at hs <;> cases hs <;> exact .kept

end

/-! ## The canonical form -/

/-- The slot RAM of a table is in canonical form. -/
def Table.canonical (t : Table) : Prop := t.array.wf = true ∧ t.scratch.wf = true

section
variable {t u : Table} {memBytes : Nat}

theorem canonical_resize (h : t.canonical) {eNew : Nat} (hr : t.resize memBytes eNew = .ok u) : u.canonical := by
  rcases resize_cases t memBytes eNew with ⟨he, _⟩ | ⟨_, ⟨he, _⟩ | ⟨b, he, hb⟩⟩ <;> rw [he] at hr <;> cases hr
  exact ⟨reinsert_keeps (P := fun m => m.wf = true) (fun _ _ _ hm _ => wf_setSlot hm _ _ _) rfl hb, h.2⟩

theorem canonical_growArbiter (h : t.canonical) {grew : Bool} (hg : t.growArbiter memBytes = .proceed u grew) :
    u.canonical := by
  rcases growArbiter_proceed hg with ⟨_, rfl⟩ | ⟨_, hr⟩
  · exact h
  · exact canonical_resize h hr

theorem canonical_shrinkArbiter (h : t.canonical) : (t.shrinkArbiter memBytes).table.canonical := by
  rcases shrinkArbiter_table t memBytes with he | hr
  · rwa [he]
  · exact canonical_resize h hr

theorem canonical_removeAt (h : t.canonical) {i : Nat} (hi : i < t.cap) : (t.removeAt i).canonical :=
  ⟨wf_backwardShift h.1 i hi, wf_putItem (wf_putKey h.2 _ _ _) _ _ _⟩

/-- Whatever table a command leaves, it is in canonical form: an allocation lists no byte (R95), and the commands write
slots alone. -/
theorem TableAfter.canonical (hu : TableAfter memBytes t u) (h : t.canonical) : u.canonical := by
  cases hu with
  | kept => exact h
  | released => exact ⟨rfl, rfl⟩
  | created exp item p sec => exact ⟨rfl, rfl⟩
  | grown hg => exact canonical_growArbiter h hg
  | placed hg hw =>
    obtain ⟨ha, hsc⟩ := canonical_growArbiter h hg
    exact ⟨wf_insertWalk ha (.inl hw), hsc⟩
  | replaced hg hw =>
    obtain ⟨ha, hsc⟩ := canonical_growArbiter h hg
    exact ⟨wf_insertWalk ha (.inr hw), hsc⟩
  | removed hi => exact canonical_shrinkArbiter (canonical_removeAt h hi.1)

end

section
variable {s t : State}

theorem executeLatched_canonical (h : s.tab.canonical) (hs : s.executeLatched = .next t) : t.tab.canonical := by
  rcases executeLatched_cases s with ⟨i, _, hx⟩ | ⟨_, _, hx⟩ <;> rw [hx] at hs
  · exact (exec_tableAfter hs).canonical h
  · rw [next_inj hs]
    exact h

theorem writeReg_tab (s : State) (w : Word) (r : Reg) : (s.writeReg w r).tab = s.tab := by cases r <;> rfl

theorem busyMalformed_tab (s : State) (space : Space) (off : BitVec 32) (n : Nat) :
    (s.busyMalformed space off n).tab = s.tab := by
  unfold State.busyMalformed
  split_ifs <;> rfl

/-- A host access leaves the table, or writes bytes of one of its two blocks. -/
theorem access_canonical (h : s.tab.canonical) (a : Access) : (s.access a).tab.canonical := by
  obtain ⟨harray, hscratch⟩ := h
  rcases phase_cases s with hp | hp <;> simp only [State.access, hp]
  · rcases accessIdle_cases s a with ⟨w, he⟩ | he | he | ⟨space, off, n, v, _, hf, he⟩ <;> rw [he]
    · exact ⟨harray, hscratch⟩
    · exact ⟨harray, hscratch⟩
    · exact ⟨harray, hscratch⟩
    · rcases writeValue_cases s space off n v hf with
        ⟨r, _, _, hw⟩ | ⟨_, _, _, hw⟩ | ⟨i, _, _, _, hw⟩ | ⟨_, _, _, hw⟩ <;> rw [hw]
      · rw [writeReg_tab]
        exact ⟨harray, hscratch⟩
      · exact ⟨harray, Memory.wf_writeLE hscratch _ _ _⟩
      · exact ⟨Memory.wf_writeLE harray _ _ _, hscratch⟩
      · exact ⟨harray, Memory.wf_writeLE hscratch _ _ _⟩
  · cases a with
    | read space off n =>
      have htab : (s.accessBusy (.read space off n)).tab = s.tab := busyMalformed_tab s space off n
      exact htab ▸ ⟨harray, hscratch⟩
    | write space off n v =>
      have htab : (s.accessBusy (.write space off n v)).tab = s.tab := busyMalformed_tab s space off n
      exact htab ▸ ⟨harray, hscratch⟩

end

/-- Settles O54, by what a step can be: idle, a command, a host access, or reset. -/
theorem stepKeepsMemoryCanonical : Obligations.StepKeepsMemoryCanonical := by
  unfold Obligations.StepKeepsMemoryCanonical
  intro s t h hs
  have hcan : s.tab.canonical := h
  show t.tab.canonical
  obtain ⟨u, hu, hcases⟩ := step_cases s
  have hu' : u.tab.canonical := by rcases hu with rfl | rfl <;> exact hcan
  rcases hcases with ⟨_, he⟩ | ⟨_, he⟩ | ⟨a, he⟩ | he <;> rw [he] at hs
  · exact next_inj hs ▸ hu'
  · exact executeLatched_canonical hu' hs
  · exact next_inj hs ▸ access_canonical hu' a
  · exact next_inj hs ▸ ⟨rfl, rfl⟩

end Sys2Proof.Machine
end

section
/-! SUPPORT. Host accesses to the address spaces (spec/20_memory.md R80 to R88): which ones are refused, what a refused
or a dropped one does, and the bytes that the item apertures move. -/

namespace Sys2Proof.Machine

/-- 24 bytes and the item, rounded up to a multiple of 8 (R90). -/
theorem slotBytes_eq (item : Nat) : slotBytes item = (24 + item + 7) / 8 * 8 := rfl

/-- Settles O10: rounding up reaches the least multiple of 8 from `24 + item` on. -/
theorem slotSizeIsTheLeastMultipleOfEight : Obligations.SlotSizeIsTheLeastMultipleOfEight := by
  unfold Obligations.SlotSizeIsTheLeastMultipleOfEight
  refine ⟨fun item => ?_, fun item => ?_⟩ <;> rw [slotBytes_eq]
  · refine ⟨Nat.dvd_mul_left _ _, by omega, fun n hdvd hn => ?_⟩
    obtain ⟨m, rfl⟩ := hdvd
    omega
  · omega

/-! ## Which accesses are refused (R80, R82 to R86) -/

section
variable {s : State} {space : Space} {off : BitVec 32} {n : Nat}

theorem insideItem_iff : s.insideItem off n = true ↔ n ∈ [1, 2, 4] ∧ off.toNat + n ≤ s.tab.itemSize.toNat := by
  simp [State.insideItem, or_assoc]

theorem refuses_reg_iff : s.refuses .reg off n = false ↔ n = 4 ∧ ∃ m, m < 23 ∧ off.toNat = 4 * m := by
  rw [← accessedReg_isSome]
  cases h : accessedReg off n <;> simp [State.refuses, h]

theorem refuses_stage_iff : s.refuses .stage off n = false ↔
    s.tstate = .ready ∧ n ∈ [1, 2, 4] ∧ off.toNat + n ≤ s.tab.itemSize.toNat := by
  rw [← insideItem_iff]
  simp [State.refuses, State.stageOpen]

theorem refRegion_eq_closed : s.refRegion = .closed ↔ s.ref = .none := by
  unfold State.refRegion
  cases s.ref <;> simp

theorem refuses_ref_iff : s.refuses .ref off n = false ↔
    s.ref ≠ .none ∧ n ∈ [1, 2, 4] ∧ off.toNat + n ≤ s.tab.itemSize.toNat := by
  rw [← insideItem_iff, ne_eq, ← refRegion_eq_closed]
  simp [State.refuses]

theorem refuses_reserved : s.refuses .reserved off n = true := rfl

/-- The accesses that are not refused. -/
theorem refuses_eq_false_iff : s.refuses space off n = false ↔
    space = .reg ∧ n = 4 ∧ (∃ m, m < 23 ∧ off.toNat = 4 * m) ∨
    space = .stage ∧ s.tstate = .ready ∧ n ∈ [1, 2, 4] ∧ off.toNat + n ≤ s.tab.itemSize.toNat ∨
    space = .ref ∧ s.ref ≠ .none ∧ n ∈ [1, 2, 4] ∧ off.toNat + n ≤ s.tab.itemSize.toNat := by
  cases space with
  | reg => rw [refuses_reg_iff]; simp
  | stage => rw [refuses_stage_iff]; simp
  | ref => rw [refuses_ref_iff]; simp
  | reserved => simp [refuses_reserved]

/-! ## What an access does, by phase and by refusal -/

theorem access_read_refused (hs : s.phase = .idle) (hf : s.refuses space off n = true) :
    s.access (.read space off n) = s.refuse.returns 0#32 := by
  simp only [State.access, hs, State.accessIdle, hf, if_true]

theorem access_write_refused (hs : s.phase = .idle) (hf : s.refuses space off n = true) (v : Word) :
    s.access (.write space off n v) = s.refuse := by
  simp only [State.access, hs, State.accessIdle, hf, if_true]

theorem access_read_idle (hs : s.phase = .idle) (hf : s.refuses space off n = false) :
    s.access (.read space off n) = s.returns (s.readValue space off n) := by
  simp only [State.access, hs, State.accessIdle, hf, Bool.false_eq_true, if_false]

theorem access_write_idle (hs : s.phase = .idle) (hf : s.refuses space off n = false) (v : Word) :
    s.access (.write space off n v) = s.writeValue space off n v := by
  simp only [State.access, hs, State.accessIdle, hf, Bool.false_eq_true, if_false]

theorem access_read_busy (hs : s.phase = .busy) :
    s.access (.read space off n) = (s.busyMalformed space off n).returns (s.busyValue space off n) := by
  simp only [State.access, hs, State.accessBusy]

theorem access_write_busy (hs : s.phase = .busy) (v : Word) :
    s.access (.write space off n v) = { s.busyMalformed space off n with busyViol := true } := by
  simp only [State.access, hs, State.accessBusy]

theorem busyMalformed_of_not_refused (hf : s.refuses space off n = false) : s.busyMalformed space off n = s := by
  simp only [State.busyMalformed, hf, Bool.false_eq_true, if_false]

theorem busyMalformed_of_refused (hf : s.refuses space off n = true) : s.busyMalformed space off n =
    { s with busErr := s.busErr || Config.busErrWhileBusy s.env.draws
             env := { s.env with draws := s.env.draws + 1 } } := by
  simp only [State.busyMalformed, hf, if_true]

/-- What a refused read returns while BUSY: no register is reached. -/
theorem busyValue_of_refused (hf : s.refuses space off n = true) : s.busyValue space off n = 0#32 := by
  cases space with
  | reg =>
    have hr : accessedReg off n = none := Option.isNone_iff_eq_none.mp hf
    simp only [State.busyValue, hr]
  | stage | ref | reserved => rfl

/-- What any other read returns while BUSY (R88): ID, VERSION and STATUS, else 0. -/
theorem busyValue_of_not_refused (hf : s.refuses space off n = false) : s.busyValue space off n =
    if space = .reg ∧ off = 0x00#32 then 0x48545045#32
    else if space = .reg ∧ off = 0x04#32 then 0x00000001#32
    else if space = .reg ∧ off = 0x0C#32 then s.status else 0#32 := by
  cases space with
  | reg =>
    obtain ⟨r, hr⟩ := Option.isSome_iff_exists.mp ((accessedReg_isSome off n).mpr (refuses_reg_iff.mp hf))
    obtain ⟨rfl, rfl⟩ := accessedReg_some hr
    cases r <;> rfl
  | stage | ref => rfl
  | reserved => cases hf

end

/-- Settles O34: each of the listed accesses is refused, by the account of the ones that are not. -/
theorem refusedAccessOnlySetsBusErr : Obligations.RefusedAccessOnlySetsBusErr := by
  unfold Obligations.RefusedAccessOnlySetsBusErr
  intro s space off n v hs h
  have hf : s.refuses space off n = true := by
    by_contra hc
    rw [Bool.not_eq_true] at hc
    rcases h with ⟨rfl, h⟩ | rfl | ⟨rfl, h⟩ | ⟨rfl, h⟩ | ⟨rfl | rfl, h⟩
    · obtain ⟨hn, m, hm, hoff⟩ := refuses_reg_iff.mp hc
      omega
    · cases hc
    · exact h (refuses_stage_iff.mp hc).1
    · exact (refuses_ref_iff.mp hc).1 h
    · obtain ⟨_, hn, hoff⟩ := refuses_stage_iff.mp hc
      exact h.elim (fun h => h hn) (fun h => by omega)
    · obtain ⟨_, hn, hoff⟩ := refuses_ref_iff.mp hc
      exact h.elim (fun h => h hn) (fun h => by omega)
  exact ⟨access_read_refused hs hf, access_write_refused hs hf v⟩

/-- Settles O35, by whether the access is refused. -/
theorem busyAccessIsDropped : Obligations.BusyAccessIsDropped := by
  unfold Obligations.BusyAccessIsDropped
  intro s space off n v hs
  rw [access_read_busy hs, access_write_busy hs]
  refine ⟨refuses_eq_false_iff, fun hf => ?_, fun hf => ?_⟩
  · rw [busyMalformed_of_not_refused hf, busyValue_of_not_refused hf]
    exact ⟨rfl, rfl⟩
  · rw [busyMalformed_of_refused hf, busyValue_of_refused hf]
    exact ⟨rfl, rfl⟩

/-! ## Little-endian words in slot RAM (R87) -/

section
variable {m : Memory} {n : Nat}

theorem two_pow_eight_mul (n : Nat) : 2 ^ (8 * n) = 256 ^ n := pow_mul 2 8 n

/-- The bytes after a write of the low bytes of a word: byte `k` of the word at offset `k`, every other as before. -/
theorem Memory.read_writeLE_word (h : m.wf = true) (x n : Nat) (v : Word) (a : Nat) :
    (m.writeLE x n v.toNat).read a =
      if x ≤ a ∧ a < x + n then v.extractLsb' (8 * (a - x)) 8 else m.read a := by
  split_ifs with ha
  · obtain ⟨k, rfl⟩ := Nat.exists_eq_add_of_le ha.1
    have hk : k < n := by omega
    have hpow : (256 : Nat) ^ n = 256 ^ k * 256 ^ (n - k) := by rw [← pow_add]; congr 1; omega
    apply BitVec.eq_of_toNat_eq
    rw [← Memory.readLE_byte _ x hk, Memory.readLE_writeLE h, hpow, Nat.mod_mul_right_div_self,
      Nat.mod_mod_of_dvd _ (dvd_pow_self 256 (by omega)), Nat.add_sub_cancel_left, BitVec.extractLsb'_toNat,
      Nat.shiftRight_eq_div_pow, two_pow_eight_mul]
  · exact Memory.read_writeLE_outside h _ _ _ _ (by omega)

/-- A read of at most 4 bytes fits the word it is returned in. -/
theorem toNat_readLE_word (m : Memory) (x : Nat) (hn : n ≤ 4) :
    (BitVec.ofNat 32 (m.readLE x n)).toNat = m.readLE x n := by
  have hlt : m.readLE x n < 256 ^ 4 := (m.readLE_lt x n).trans_le (Nat.pow_le_pow_right (by decide) hn)
  rw [BitVec.toNat_ofNat]
  exact Nat.mod_eq_of_lt hlt

/-- Byte `b` of that word is the byte at offset `b`. -/
theorem readLE_word_byte (m : Memory) (x : Nat) (hn : n ≤ 4) {b : Nat} (hb : b < n) :
    (BitVec.ofNat 32 (m.readLE x n)).extractLsb' (8 * b) 8 = m.read (x + b) := by
  apply BitVec.eq_of_toNat_eq
  rw [← m.readLE_byte x hb, BitVec.extractLsb'_toNat, toNat_readLE_word m x hn, Nat.shiftRight_eq_div_pow,
    two_pow_eight_mul]

theorem readLE_word_lt (m : Memory) (x : Nat) (hn : n ≤ 4) :
    (BitVec.ofNat 32 (m.readLE x n)).toNat < 2 ^ (8 * n) := by
  rw [toNat_readLE_word m x hn, two_pow_eight_mul]
  exact m.readLE_lt x n

/-- A word read after a write of the same bytes. -/
theorem readLE_word_writeLE (h : m.wf = true) (x : Nat) (hn : n ≤ 4) (v : Word) :
    (BitVec.ofNat 32 ((m.writeLE x n v.toNat).readLE x n)).toNat = v.toNat % 2 ^ (8 * n) := by
  rw [toNat_readLE_word _ x hn, Memory.readLE_writeLE h, two_pow_eight_mul]

theorem le_four_of_width (hn : n ∈ [1, 2, 4]) : n ≤ 4 := by
  simp only [List.mem_cons, List.not_mem_nil, or_false] at hn
  omega

end

/-! ## The item apertures while IDLE (R84, R85) -/

section
variable {s : State} {off : BitVec 32} {n i : Nat}

theorem stageBase_eq (s : State) : s.stageBase = 24 := by
  rw [State.stageBase, Geometry.itemBase_eq, Geometry.slotBase, stageSlot, Nat.zero_mul]

theorem itemBase_slot (s : State) (i : Nat) : s.tab.geometry.itemBase i = i * s.tab.slotSize.toNat + 24 := rfl

theorem itemBase_removed (s : State) : s.tab.geometry.itemBase removedSlot = s.tab.slotSize.toNat + 24 := by
  rw [itemBase_slot, removedSlot, Nat.one_mul]

theorem access_read_stage (hs : s.phase = .idle) (hf : s.refuses .stage off n = false) :
    s.access (.read .stage off n) = s.returns (BitVec.ofNat 32 (s.tab.scratch.readLE (24 + off.toNat) n)) := by
  rw [access_read_idle hs hf, State.readValue, stageBase_eq]

theorem access_write_stage (hs : s.phase = .idle) (hf : s.refuses .stage off n = false) (v : Word) :
    s.access (.write .stage off n v) =
      { s with tab := { s.tab with scratch := s.tab.scratch.writeLE (24 + off.toNat) n v.toNat } } := by
  rw [access_write_idle hs hf, State.writeValue, stageBase_eq]

theorem access_read_slot (hs : s.phase = .idle) (hr : s.ref = .slot i) (hf : s.refuses .ref off n = false) :
    s.access (.read .ref off n) =
      s.returns (BitVec.ofNat 32 (s.tab.array.readLE (i * s.tab.slotSize.toNat + 24 + off.toNat) n)) := by
  rw [access_read_idle hs hf]
  simp only [State.readValue, State.refRegion, hr, itemBase_slot]

theorem access_write_slot (hs : s.phase = .idle) (hr : s.ref = .slot i) (hf : s.refuses .ref off n = false) (v : Word) :
    s.access (.write .ref off n v) = { s with tab := { s.tab with
      array := s.tab.array.writeLE (i * s.tab.slotSize.toNat + 24 + off.toNat) n v.toNat } } := by
  rw [access_write_idle hs hf]
  simp only [State.writeValue, State.refRegion, hr, itemBase_slot]

theorem access_read_removed (hs : s.phase = .idle) (hr : s.ref = .removed) (hf : s.refuses .ref off n = false) :
    s.access (.read .ref off n) =
      s.returns (BitVec.ofNat 32 (s.tab.scratch.readLE (s.tab.slotSize.toNat + 24 + off.toNat) n)) := by
  rw [access_read_idle hs hf]
  simp only [State.readValue, State.refRegion, hr, itemBase_removed]

theorem access_write_removed (hs : s.phase = .idle) (hr : s.ref = .removed) (hf : s.refuses .ref off n = false)
    (v : Word) : s.access (.write .ref off n v) = { s with tab := { s.tab with
      scratch := s.tab.scratch.writeLE (s.tab.slotSize.toNat + 24 + off.toNat) n v.toNat } } := by
  rw [access_write_idle hs hf]
  simp only [State.writeValue, State.refRegion, hr, itemBase_removed]

end

/-- A write inside the item of slot `i` leaves every other slot. -/
theorem getSlot_writeItem_other {g : Geometry} (hg : g.fits) {m : Memory} (hm : m.wf = true) {i j x n w : Nat}
    (hx : x + n ≤ g.itemSize) (hij : j ≠ i) : getSlot g (m.writeLE (g.itemBase i + x) n w) j = getSlot g m j := by
  refine getSlot_congr hg (Memory.wf_writeLE hm _ _ _) hm j fun y hy hy' =>
    Memory.read_writeLE_outside hm _ _ _ _ ?_
  simp only [Geometry.fits, Config.metaBytes, Config.keyBytes] at hg
  rw [Geometry.itemBase_eq]
  rcases Nat.lt_or_gt_of_ne hij with hlt | hlt
  · have := g.slotBase_lt hlt
    omega
  · have := g.slotBase_lt hlt
    omega

/-- Settles O41: the STAGE item begins 24 bytes into the scratch. -/
theorem stageApertureStoresLittleEndian : Obligations.StageApertureStoresLittleEndian := by
  unfold Obligations.StageApertureStoresLittleEndian
  intro s off n v hs ht hn hoff hwf
  have hf : s.refuses .stage off n = false := refuses_stage_iff.mpr ⟨ht, hn, hoff⟩
  have hn4 := le_four_of_width hn
  rw [access_write_stage hs hf, access_read_stage hs hf]
  refine ⟨Memory.read_writeLE_word hwf _ n v, rfl, ?_, fun b hb => readLE_word_byte _ _ hn4 hb,
    readLE_word_lt _ _ hn4, rfl⟩
  rw [access_read_stage]
  exacts [readLE_word_writeLE hwf _ hn4 v, hs, hf]

/-- Settles O42: the write lies inside the item of slot `i`, after its metadata and key. -/
theorem refWriteChangesOnlyTheItem : Obligations.RefWriteChangesOnlyTheItem := by
  unfold Obligations.RefWriteChangesOnlyTheItem
  intro s i off n v hs hr hn hoff hwf hsize
  have hf : s.refuses .ref off n = false := refuses_ref_iff.mpr ⟨by simp [hr], hn, hoff⟩
  have hn4 := le_four_of_width hn
  have hfits : s.tab.geometry.fits := fits_of_slotBytes hsize
  rw [access_write_slot hs hr hf, access_read_slot hs hr hf]
  refine ⟨Memory.read_writeLE_word hwf _ n v, rfl, fun j => ?_, fun b hb => readLE_word_byte _ _ hn4 hb,
    readLE_word_lt _ _ hn4, rfl, ?_⟩
  · obtain ⟨htaken, hpsl, hth, hkey⟩ := getSlot_writeItem_header hfits hwf (i := i) (w := v.toNat) hoff j
    exact ⟨htaken, hpsl, hth, hkey, getSlot_writeItem_other hfits hwf hoff⟩
  · rw [access_read_slot (i := i)]
    exacts [readLE_word_writeLE hwf _ hn4 v, hs, hr, hf]

/-- Settles O43: the REMOVED item is that of the second scratch slot. -/
theorem removedRefWriteChangesOnlyTheBuffer : Obligations.RemovedRefWriteChangesOnlyTheBuffer := by
  unfold Obligations.RemovedRefWriteChangesOnlyTheBuffer
  intro s off n v hs hr hn hoff hwf
  have hf : s.refuses .ref off n = false := refuses_ref_iff.mpr ⟨by simp [hr], hn, hoff⟩
  have hn4 := le_four_of_width hn
  have hitem : s.tab.removedItem.readLE off.toNat n =
      s.tab.scratch.readLE (s.tab.slotSize.toNat + 24 + off.toNat) n := by
    have hinside : off.toNat + n ≤ s.tab.geometry.itemSize := hoff
    rw [Table.removedItem, slotItem, Memory.readLE_extract _ hinside, itemBase_removed]
  rw [access_write_removed hs hr hf, access_read_removed hs hr hf]
  refine ⟨Memory.read_writeLE_word hwf _ n v, rfl, fun b hb => readLE_word_byte _ _ hn4 hb, ?_, rfl, ?_⟩
  · rw [hitem]
    exact toNat_readLE_word _ _ hn4
  · rw [access_read_removed]
    exacts [readLE_word_writeLE hwf _ hn4 v, hs, hr, hf]

end Sys2Proof.Machine
end

section
/-! SUPPORT. Decoding and encoding of command words (spec/30_encoding.md R120 to R129): the table of R123 as the twelve
opcodes of R122 with the flags each admits, the row a word selects, and the key operand of R127. -/

namespace Sys2Proof.Machine

/-! ## The flag bits of a word (spec/30_encoding.md R121) -/

theorem getLsbD_ofBool_shiftLeft (b : Bool) {n : Nat} (hn : n < 32) (i : Nat) :
    (((BitVec.ofBool b).setWidth 32 : Word) <<< n).getLsbD i = (decide (i = n) && b) := by
  rw [BitVec.getLsbD_shiftLeft, BitVec.getLsbD_setWidth, BitVec.getLsbD_ofBool]
  grind

theorem getLsbD_flagBits (k d z p : Bool) (i : Nat) : (flagBits k d z p).getLsbD i =
    (decide (i = 8) && k || decide (i = 9) && d || decide (i = 10) && z || decide (i = 11) && p) := by
  simp only [flagBits, BitVec.getLsbD_or]
  rw [getLsbD_ofBool_shiftLeft k (by decide), getLsbD_ofBool_shiftLeft d (by decide),
    getLsbD_ofBool_shiftLeft z (by decide), getLsbD_ofBool_shiftLeft p (by decide)]

theorem getLsbD_flagBits_outside (k d z p : Bool) {i : Nat} (h : i < 8 ∨ 12 ≤ i) :
    (flagBits k d z p).getLsbD i = false := by
  rw [getLsbD_flagBits]
  grind

/-- The bits that a word has among some flags spell the flags it has there. -/
theorem flagBits_and_flags (w : Word) (k d z p : Bool) :
    flagBits (k && flagK w) (d && flagD w) (z && flagZ w) (p && flagP w) = w &&& flagBits k d z p := by
  apply BitVec.eq_of_getLsbD_eq
  intro i hi
  rw [BitVec.getLsbD_and, getLsbD_flagBits, getLsbD_flagBits]
  simp only [flagK, flagD, flagZ, flagP]
  grind

/-- Past some flags a word is just an opcode: it has that opcode, and no bit above it but those flags. -/
theorem and_not_flagBits_eq_iff (w : Word) (o : BitVec 5) (k d z p : Bool) :
    w &&& ~~~flagBits k d z p = o.setWidth 32 ↔
      (rawOf w).opc = o ∧ ∀ i, 5 ≤ i → i < 32 → w.getLsbD i = true → (flagBits k d z p).getLsbD i = true := by
  have hbits : w &&& ~~~flagBits k d z p = o.setWidth 32 ↔
      ∀ i < 32, (w.getLsbD i && !(flagBits k d z p).getLsbD i) = o.getLsbD i := by
    rw [BitVec.eq_of_getLsbD_eq_iff]
    simp +contextual
  have hopc : (rawOf w).opc = o ↔ ∀ i < 5, w.getLsbD i = o.getLsbD i := by
    rw [BitVec.eq_of_getLsbD_eq_iff]
    simp +contextual [rawOf]
  have hflags : ∀ i < 5, (flagBits k d z p).getLsbD i = false := fun i h =>
    getLsbD_flagBits_outside k d z p (.inl (by omega))
  have hhigh : ∀ i, 5 ≤ i → o.getLsbD i = false := fun i h => BitVec.getLsbD_of_ge o i h
  rw [hbits, hopc]
  constructor
  · refine fun h => ⟨fun i hi => ?_, fun i hi hi' hw => ?_⟩
    · simpa [hflags i hi] using h i (by omega)
    · simpa [hhigh i hi, hw] using h i hi'
  · rintro ⟨hlow, hsub⟩ i hi
    by_cases h5 : i < 5
    · simp [hflags i h5, hlow i h5]
    · simpa [hhigh i (by omega)] using hsub i (by omega) hi

theorem reservedClear_rawOf_iff (w : Word) :
    (rawOf w).reservedClear = true ↔ w.extractLsb' 5 3 = 0#3 ∧ w.extractLsb' 12 20 = 0#20 := by
  unfold RawCommand.reservedClear
  rw [Bool.and_eq_true, decide_eq_true_iff, decide_eq_true_iff]
  rfl

/-- The bits above the opcode are among some flags: the reserved bits are 0, and each flag set is one of them. -/
theorem bits_among_flagBits_iff (w : Word) (k d z p : Bool) :
    (∀ i, 5 ≤ i → i < 32 → w.getLsbD i = true → (flagBits k d z p).getLsbD i = true) ↔
      (rawOf w).reservedClear = true ∧ (flagK w = true → k = true) ∧ (flagD w = true → d = true) ∧
        (flagZ w = true → z = true) ∧ (flagP w = true → p = true) := by
  have hres : (rawOf w).reservedClear = true ↔
      (∀ i < 3, w.getLsbD (5 + i) = false) ∧ ∀ i < 20, w.getLsbD (12 + i) = false := by
    rw [reservedClear_rawOf_iff, BitVec.eq_of_getLsbD_eq_iff, BitVec.eq_of_getLsbD_eq_iff]
    simp +contextual
  have hout : ∀ i, i < 8 ∨ 12 ≤ i → ¬(flagBits k d z p).getLsbD i = true := fun i h => by
    simp [getLsbD_flagBits_outside k d z p h]
  rw [hres]
  simp only [flagK, flagD, flagZ, flagP]
  constructor
  · intro h
    have hclear : ∀ i, 5 ≤ i → i < 32 → (i < 8 ∨ 12 ≤ i) → w.getLsbD i = false := fun i h5 h32 hi =>
      Bool.eq_false_iff.mpr fun hw => hout i hi (h i h5 h32 hw)
    simp only [getLsbD_flagBits] at h
    exact ⟨⟨fun i hi => hclear _ (by omega) (by omega) (by omega),
        fun i hi => hclear _ (by omega) (by omega) (by omega)⟩,
      by simpa using h 8, by simpa using h 9, by simpa using h 10, by simpa using h 11⟩
  · rintro ⟨⟨hlow, hhigh⟩, hk, hd, hz, hp⟩ i h5 h32 hw
    obtain h | h | h : i < 8 ∨ 12 ≤ i ∨ (8 ≤ i ∧ i < 12) := by omega
    · have := hlow (i - 5) (by omega)
      rw [Nat.add_sub_cancel' h5, hw] at this
      cases this
    · have := hhigh (i - 12) (by omega)
      rw [Nat.add_sub_cancel' h, hw] at this
      cases this
    · obtain ⟨h8, h12⟩ := h
      rw [getLsbD_flagBits]
      interval_cases i
      · simp [hk hw]
      · simp [hd hw]
      · simp [hz hw]
      · simp [hp hw]

/-! ## The table of R123 -/

/-- The opcodes of R122. -/
def opcodes : List (BitVec 5) := [1#5, 2#5, 3#5, 4#5, 5#5, 6#5, 7#5, 8#5, 9#5, 10#5, 11#5, 12#5]

/-- The flags an opcode admits (R123), at their bits. -/
def admittedFlags (o : BitVec 5) : Word :=
  flagBits (decide (o.toNat ∈ [3, 4, 5])) (decide (o.toNat = 3)) (decide (o.toNat ∈ [1, 2]))
    (decide (o.toNat ∈ [1, 2]))

/-- Row by row, the match is the opcode and the mask all but the flags the opcode admits. -/
theorem commandRows_eq : commandRows.map (fun r => (r.matchWord, r.mask)) =
    opcodes.map fun o => (o.setWidth 32, ~~~admittedFlags o) := by
  decide

theorem mem_opcodes_iff (o : BitVec 5) : o ∈ opcodes ↔ 1 ≤ o.toNat ∧ o.toNat ≤ 12 := by
  revert o
  decide

/-- A row of the table asks for its opcode and admits the flags of that opcode. -/
theorem exists_opcode_of_row {r : CommandRow} (hr : r ∈ commandRows) :
    ∃ o ∈ opcodes, r.matchWord = o.setWidth 32 ∧ r.mask = ~~~admittedFlags o := by
  have h : (r.matchWord, r.mask) ∈ commandRows.map fun r => (r.matchWord, r.mask) := List.mem_map_of_mem hr
  rw [commandRows_eq] at h
  obtain ⟨o, ho, heq⟩ := List.mem_map.mp h
  obtain ⟨hm, hmask⟩ := Prod.mk.inj heq
  exact ⟨o, ho, hm.symm, hmask.symm⟩

theorem exists_row_of_opcode {o : BitVec 5} (ho : o ∈ opcodes) :
    ∃ r ∈ commandRows, r.matchWord = o.setWidth 32 ∧ r.mask = ~~~admittedFlags o := by
  have h : ((o.setWidth 32 : Word), ~~~admittedFlags o) ∈ opcodes.map fun o => (o.setWidth 32, ~~~admittedFlags o) :=
    List.mem_map_of_mem ho
  rw [← commandRows_eq] at h
  obtain ⟨r, hr, heq⟩ := List.mem_map.mp h
  exact ⟨r, hr, Prod.mk.inj heq⟩

/-- No two rows have the same match. -/
theorem row_eq_of_matchWord_eq {r r' : CommandRow} (hr : r ∈ commandRows) (hr' : r' ∈ commandRows)
    (h : r.matchWord = r'.matchWord) : r = r' :=
  List.inj_on_of_nodup_map (show (commandRows.map CommandRow.matchWord).Nodup by decide) hr hr' h

/-- The match of a selected row is the opcode of the word. -/
theorem matchWord_eq_opc {w : Word} {r : CommandRow} (hr : r ∈ commandRows) (h : w &&& r.mask = r.matchWord) :
    r.matchWord = (rawOf w).opc.setWidth 32 := by
  obtain ⟨o, _, hm, hmask⟩ := exists_opcode_of_row hr
  rw [hm, hmask] at h
  rw [hm, ((and_not_flagBits_eq_iff _ _ _ _ _ _).mp h).1]

/-- At most one row matches (R124). -/
theorem row_unique {w : Word} {r r' : CommandRow} (hr : r ∈ commandRows) (hr' : r' ∈ commandRows)
    (h : w &&& r.mask = r.matchWord) (h' : w &&& r'.mask = r'.matchWord) : r = r' :=
  row_eq_of_matchWord_eq hr hr' ((matchWord_eq_opc hr h).trans (matchWord_eq_opc hr' h').symm)

theorem rawCommand_wellFormed_iff (r : RawCommand) : r.wellFormed = true ↔
    (1 ≤ r.opc.toNat ∧ r.opc.toNat ≤ 12) ∧ r.reservedClear = true ∧
      (r.k = true → r.opc.toNat ∈ [3, 4, 5]) ∧ (r.d = true → r.opc.toNat = 3) ∧
      (r.z = true → r.opc.toNat ∈ [1, 2]) ∧ (r.p = true → r.opc.toNat ∈ [1, 2]) := by
  simp only [RawCommand.wellFormed, RawCommand.opcodeAssigned, RawCommand.flagsAdmitted, Bool.and_eq_true,
    Bool.or_eq_true, Bool.not_eq_true', decide_eq_true_eq, List.mem_cons, List.not_mem_nil, or_false]
  grind

/-- The words that select a row are those of an assigned opcode, reserved bits 0 and admitted flags (R125). -/
theorem exists_row_iff_wellFormed (w : Word) :
    (∃ r ∈ commandRows, w &&& r.mask = r.matchWord) ↔ (rawOf w).wellFormed = true := by
  have hopc : (∃ r ∈ commandRows, w &&& r.mask = r.matchWord) ↔
      (rawOf w).opc ∈ opcodes ∧ w &&& ~~~admittedFlags (rawOf w).opc = (rawOf w).opc.setWidth 32 := by
    constructor
    · rintro ⟨r, hr, h⟩
      obtain ⟨o, ho, hm, hmask⟩ := exists_opcode_of_row hr
      rw [hm, hmask] at h
      obtain rfl := ((and_not_flagBits_eq_iff _ _ _ _ _ _).mp h).1
      exact ⟨ho, h⟩
    · rintro ⟨ho, h⟩
      obtain ⟨r, hr, hm, hmask⟩ := exists_row_of_opcode ho
      exact ⟨r, hr, by rw [hm, hmask, h]⟩
  rw [hopc, mem_opcodes_iff, admittedFlags, and_not_flagBits_eq_iff, bits_among_flagBits_iff, rawCommand_wellFormed_iff]
  simp only [decide_eq_true_eq, true_and]
  rfl

/-! ## Decoding (R124) -/

/-- A word decodes by the row it selects. -/
theorem decode_of_row {w : Word} {r : CommandRow} (hr : r ∈ commandRows) (h : w &&& r.mask = r.matchWord) :
    decode w = .ok (r.instr w) := by
  unfold decode
  cases hf : commandRows.find? (fun r => r.matches w) with
  | none => exact absurd (beq_iff_eq.mpr h) (List.find?_eq_none.mp hf r hr)
  | some r' =>
    have h' : r'.matches w = true := List.find?_some (p := (CommandRow.matches · w)) hf
    rw [row_unique (List.mem_of_find?_eq_some hf) hr (beq_iff_eq.mp h') h]

/-- A word that selects no row is refused. -/
theorem decode_of_no_row {w : Word} (h : ∀ r ∈ commandRows, w &&& r.mask ≠ r.matchWord) :
    decode w = .error (illegalReason w) := by
  have hf : commandRows.find? (fun r => r.matches w) = none :=
    List.find?_eq_none.mpr fun r hr hm => h r hr (beq_iff_eq.mp hm)
  unfold decode
  rw [hf]

/-- Everything decoding can answer. -/
theorem decode_cases (w : Word) :
    (∃ r ∈ commandRows, w &&& r.mask = r.matchWord ∧ decode w = .ok (r.instr w)) ∨
    ((∀ r ∈ commandRows, w &&& r.mask ≠ r.matchWord) ∧ decode w = .error (illegalReason w)) := by
  by_cases h : ∃ r ∈ commandRows, w &&& r.mask = r.matchWord
  · obtain ⟨r, hr, hm⟩ := h
    exact .inl ⟨r, hr, hm, decode_of_row hr hm⟩
  · push Not at h
    exact .inr ⟨h, decode_of_no_row h⟩

/-- The words that are refused are those that are not well-formed (R125). -/
theorem decode_error_iff (w : Word) : (∃ reason, decode w = .error reason) ↔ ¬(rawOf w).wellFormed = true := by
  rw [← exists_row_iff_wellFormed]
  obtain ⟨r, hr, hm, hd⟩ | ⟨h, hd⟩ := decode_cases w
  · simp only [hd, reduceCtorEq, exists_false, false_iff, not_not]
    exact ⟨r, hr, hm⟩
  · simp only [hd, Except.error.injEq, exists_eq', true_iff]
    push Not
    exact h

/-! ## Encoding (R129) -/

/-- Every instruction encodes to a word of its row. -/
theorem encode_matchesRow : ∀ i : Instr, Laws.MatchesRow.Statement i
  | .init z p => Laws.MatchesRow.init z p
  | .initSize z p => Laws.MatchesRow.initSize z p
  | .insert k d => Laws.MatchesRow.insert k d
  | .get k => Laws.MatchesRow.get k
  | .remove k => Laws.MatchesRow.remove k
  | .len => Laws.MatchesRow.len
  | .iterStart => Laws.MatchesRow.iterStart
  | .iterNext => Laws.MatchesRow.iterNext
  | .iterStop => Laws.MatchesRow.iterStop
  | .free => Laws.MatchesRow.free
  | .disposeAck => Laws.MatchesRow.disposeAck
  | .peek => Laws.MatchesRow.peek

theorem decode_encode (i : Instr) : decode (encode i) = .ok i := by
  obtain ⟨_, r, hr, hm, hi⟩ := encode_matchesRow i
  rw [decode_of_row hr (beq_iff_eq.mp hm), hi]

/-- The instruction a row reads from a word is spelled by the row's match and the word's bits off the mask. -/
theorem encode_instr {r : CommandRow} (hr : r ∈ commandRows) (w : Word) :
    encode (r.instr w) = r.matchWord ||| w &&& ~~~r.mask := by
  have hflags := flagBits_and_flags w
  simp only [commandRows, List.mem_cons, List.not_mem_nil, or_false] at hr
  rcases hr with rfl | rfl | rfl | rfl | rfl | rfl | rfl | rfl | rfl | rfl | rfl | rfl
  · exact congrArg (1#32 ||| ·) (hflags false false true true)
  · exact congrArg (2#32 ||| ·) (hflags false false true true)
  · exact congrArg (3#32 ||| ·) (hflags true true false false)
  · exact congrArg (4#32 ||| ·) (hflags true false false false)
  · exact congrArg (5#32 ||| ·) (hflags true false false false)
  all_goals simp [encode]

theorem encode_of_decode {w : Word} {i : Instr} (h : decode w = .ok i) : encode i = w := by
  obtain ⟨r, hr, hm, hd⟩ | ⟨_, hd⟩ := decode_cases w
  · obtain rfl : r.instr w = i := by rw [h] at hd; exact (Except.ok.inj hd).symm
    rw [encode_instr hr, ← hm, ← BitVec.and_or_distrib_left, BitVec.or_not_self, BitVec.and_allOnes]
  · rw [h] at hd
    cases hd

/-- Settles O2: an instruction's encoding selects its row, and a row's instruction spells back every bit of the word. -/
theorem decodeAndEncodeAgree : Obligations.DecodeAndEncodeAgree := by
  unfold Obligations.DecodeAndEncodeAgree
  exact fun w i => ⟨encode_of_decode, fun h => h ▸ decode_encode i⟩

/-! ## Illegal words (R124, R125) -/

theorem executeLatched_of_decode_error {s : State} {reason : IllegalReason} (h : decode s.latch.word = .error reason) :
    s.executeLatched = .next (s.raise .illegalCmd) := by
  obtain ⟨i, hi, _⟩ | ⟨_, _, he⟩ := executeLatched_cases s
  · rw [h] at hi
    cases hi
  · exact he

/-- Settles O3, from the rules of decoding by a row and without one. -/
theorem decodingSelectsTheOneMatchingRow : Obligations.DecodingSelectsTheOneMatchingRow := by
  unfold Obligations.DecodingSelectsTheOneMatchingRow
  refine ⟨fun w r => decode_of_row, fun w r r' hr hr' h h' => ?_, fun s h => ?_, fun w => ?_⟩
  · rw [row_unique hr hr' h h']
  · exact executeLatched_of_decode_error (decode_of_no_row h)
  · obtain ⟨r, hr, hm, _⟩ | ⟨_, hd⟩ := decode_cases w
    · exact .inl ⟨r, hr, hm⟩
    · exact .inr ⟨_, hd⟩

/-- Settles O4: the disjuncts are the failures of the three checks that make a word well-formed. -/
theorem illegalWordsAreTheReservedOnes : Obligations.IllegalWordsAreTheReservedOnes := by
  unfold Obligations.IllegalWordsAreTheReservedOnes
  refine ⟨fun w => ?_, ⟨_, show decode 0#32 = .error .reservedOpcode by decide⟩,
    fun s reason h => executeLatched_of_decode_error h⟩
  rw [decode_error_iff, rawCommand_wellFormed_iff, reservedClear_rawOf_iff]
  simp only [rawOf, flagK, flagD, flagZ, flagP]
  generalize (w.extractLsb' 0 5).toNat = n
  have hopc : ¬(1 ≤ n ∧ n ≤ 12) ↔ n = 0 ∨ n ≥ 13 := by omega
  rw [not_and_or, hopc]
  simp only [not_and_or, Classical.not_imp, or_and_right, or_assoc, ne_eq]

/-- Settles O1: the words are fixed, so the decoder's answers are computed. -/
theorem specWordsDecode : Obligations.SpecWordsDecode := by
  unfold Obligations.SpecWordsDecode
  decide

/-! ## The key operand (R127) -/

theorem keyPrefix_congr {key key' : KeyBuf} {n : Nat} (h : ∀ j, j < n → keyByte key j = keyByte key' j) :
    keyPrefix key n = keyPrefix key' n :=
  List.map_congr_left fun j hj => h j (List.mem_range.mp hj)

/-- KeyCheck sees a key buffer through its first `n` bytes alone. -/
theorem keyCheck_congr {key key' : KeyBuf} {n : Nat} (k : Bool) (h : keyPrefix key n = keyPrefix key' n) :
    keyCheck k n key = keyCheck k n key' := by
  unfold keyCheck
  rw [h]

/-- Settles O20: the operand is computed from the check's answer, which rests on the key's first bytes. -/
theorem keyBytesPastTheLengthAreIgnored : Obligations.KeyBytesPastTheLengthAreIgnored := by
  unfold Obligations.KeyBytesPastTheLengthAreIgnored
  intro s k key h
  have hcheck : keyCheck k s.latch.keyLen.toNat key = keyCheck k s.latch.keyLen.toNat s.latch.key :=
    keyCheck_congr k (keyPrefix_congr h)
  unfold State.getKey
  rw [hcheck]
  rfl

end Sys2Proof.Machine
end

section
/-! SUPPORT. The metadata codec (spec/40_metadata_codec.md R160 to R167): the fields of a word as digits of its number,
every word as `pack` of its fields, and each setter as `pack` with one field exchanged. -/

namespace Sys2Proof.Machine

/-! ## The reads as numbers (R161 to R163) -/

theorem getTaken_eq_decide (w : Word) : getTaken w = decide (w.toNat % 2 = 1) :=
  Nat.testBit_zero _

theorem toNat_getPsl (w : Word) : (getPsl w).toNat = w.toNat / 2 % 2048 := by
  rw [getPsl, BitVec.extractLsb'_toNat, Nat.shiftRight_eq_div_pow]

/-- No bit lies above the truncated hash, so nothing is cut off. -/
theorem toNat_getTh (w : Word) : (getTh w).toNat = w.toNat / 4096 := by
  rw [getTh, BitVec.extractLsb'_toNat, Nat.shiftRight_eq_div_pow]
  exact Nat.mod_eq_of_lt (Nat.div_lt_of_lt_mul w.isLt)

/-- The widths 1, 11 and 20 sum to 32 (R160): the fields are the digits of the word's number. -/
theorem toNat_eq_fields (w : Word) :
    w.toNat = (if getTaken w then 1 else 0) + 2 * (getPsl w).toNat + 4096 * (getTh w).toNat := by
  rw [getTaken_eq_decide, toNat_getPsl, toNat_getTh]
  simp only [decide_eq_true_eq]
  split_ifs <;> omega

/-! ## `pack` (R167) -/

theorem toNat_pack (t : Bool) (p h : Nat) :
    (pack t p h).toNat = (if t then 1 else 0) + 2 * (p % 2048) + 4096 * (h % 1048576) := by
  rw [toNat_eq_fields, getTaken_pack, getPsl_pack, getTh_pack, BitVec.toNat_ofNat, BitVec.toNat_ofNat]

theorem pack_fields (w : Word) : pack (getTaken w) (getPsl w).toNat (getTh w).toNat = w := by
  apply eq_of_fields <;> simp

/-! ## The setters on packed words (R164 to R166)

The mask of a setter clears one field of a packed word and keeps the other two. -/

theorem pack_and_takenMask (t : Bool) (p h : Nat) : pack t p h &&& 0xFFFFFFFE#32 = pack false p h := by
  have hcut : (BitVec.ofBool t).setWidth 32 &&& 0xFFFFFFFE#32 = 0#32 := by cases t <;> rfl
  simp [pack, BitVec.and_or_distrib_right, BitVec.shiftLeft_and_distrib, BitVec.and_assoc, hcut]

theorem pack_and_pslMask (t : Bool) (p h : Nat) : pack t p h &&& 0xFFFFF001#32 = pack t 0 h := by
  have hkeep : (BitVec.ofBool t).setWidth 32 &&& 0xFFFFF001#32 = (BitVec.ofBool t).setWidth 32 := by cases t <;> rfl
  simp [pack, BitVec.and_or_distrib_right, BitVec.shiftLeft_and_distrib, BitVec.and_assoc, hkeep]

theorem pack_and_thMask (t : Bool) (p h : Nat) : pack t p h &&& 0x00000FFF#32 = pack t p 0 := by
  have hkeep : (BitVec.ofBool t).setWidth 32 &&& 0x00000FFF#32 = (BitVec.ofBool t).setWidth 32 := by cases t <;> rfl
  simp [pack, BitVec.and_or_distrib_right, BitVec.shiftLeft_and_distrib, BitVec.and_assoc, hkeep]

theorem setTaken_pack (t t' : Bool) (p h : Nat) : setTaken (pack t p h) t' = pack t' p h := by
  rw [setTaken, pack_and_takenMask, BitVec.or_comm]
  simp [pack, BitVec.or_assoc]

theorem setPsl_pack (t : Bool) (p p' h : Nat) : setPsl (pack t p h) p' = pack t p' h := by
  have hzero : (0#32 &&& 0x7FF#32) <<< 1 = 0#32 := rfl
  rw [setPsl, pack_and_pslMask, pack, pack, hzero, BitVec.or_zero]
  ac_rfl

theorem setTh_pack (t : Bool) (p h h' : Nat) : setTh (pack t p h) h' = pack t p h' := by
  rw [setTh, pack_and_thMask]
  simp [pack]

/-! ## The setters on every word -/

theorem setTaken_eq_pack (w : Word) (t : Bool) : setTaken w t = pack t (getPsl w).toNat (getTh w).toNat := by
  conv_lhs => rw [← pack_fields w]
  exact setTaken_pack ..

theorem setPsl_eq_pack (w : Word) (p : Nat) : setPsl w p = pack (getTaken w) p (getTh w).toNat := by
  conv_lhs => rw [← pack_fields w]
  exact setPsl_pack ..

theorem setTh_eq_pack (w : Word) (h : Nat) : setTh w h = pack (getTaken w) (getPsl w).toNat h := by
  conv_lhs => rw [← pack_fields w]
  exact setTh_pack ..

/-- Settles O9: the reads are digits, and each setter is `pack` with one field exchanged; the examples are computed. -/
theorem codecFieldsAreIndependent : Obligations.CodecFieldsAreIndependent := by
  unfold Obligations.CodecFieldsAreIndependent
  refine ⟨fun w => ⟨?_, toNat_getPsl w, toNat_getTh w⟩, fun w t => ?_, fun w p => ?_, fun w h => ?_,
    toNat_pack, pack_fields, by decide, by decide⟩
  · rw [getTaken_eq_decide, decide_eq_true_eq]
  · simp [setTaken_eq_pack]
  · simp [setPsl_eq_pack]
  · simp [setTh_eq_pack]

end Sys2Proof.Machine
end

section
/-! SUPPORT. The load-factor predicates (spec/40_metadata_codec.md R173, R174): each as a comparison of integers, and
as a comparison of the count with the rounded threshold. -/

namespace Sys2Proof.Machine

theorem growNeeded_iff (occ e : Nat) : growNeeded occ e = true ↔ 10 * occ ≥ 9 * 2 ^ e := decide_eq_true_iff

theorem sparse_iff (occ e : Nat) : sparse occ e = true ↔ 10 * occ ≤ 4 * 2 ^ e := decide_eq_true_iff

/-- The least count that needs growth is `0.9 · 2^e`, rounded up. -/
theorem growNeeded_iff_ceil (occ e : Nat) : growNeeded occ e = true ↔ occ ≥ (9 * 2 ^ e + 9) / 10 := by
  rw [growNeeded_iff]
  omega

/-- The largest sparse count is `0.4 · 2^e`, rounded down. -/
theorem sparse_iff_floor (occ e : Nat) : sparse occ e = true ↔ occ ≤ 4 * 2 ^ e / 10 := by
  rw [sparse_iff, Nat.le_div_iff_mul_le (by decide), Nat.mul_comm]

theorem sparse_iff_half (occ e : Nat) : sparse occ e = true ↔ 5 * occ ≤ 2 ^ (e + 1) := by
  rw [sparse_iff, pow_succ]
  omega

/-- The prime 5 divides neither 9 nor a power of 2. -/
theorem not_ten_dvd_nine_mul_two_pow (e : Nat) : ¬ 10 ∣ 9 * 2 ^ e := by
  intro h
  have h5 : 5 ∣ 9 * 2 ^ e := (by decide : 5 ∣ 10).trans h
  rcases Nat.prime_five.dvd_mul.mp h5 with h9 | hpow
  · exact absurd h9 (by decide)
  · exact absurd (Nat.prime_five.dvd_of_dvd_pow hpow) (by decide)

/-- Settles O12, from the two predicates as comparisons; the listed thresholds are computed. -/
theorem loadFactorThresholds : Obligations.LoadFactorThresholds := by
  unfold Obligations.LoadFactorThresholds
  exact ⟨growNeeded_iff, not_ten_dvd_nine_mul_two_pow, growNeeded_iff_ceil, sparse_iff, sparse_iff_half,
    sparse_iff_floor, by decide⟩

end Sys2Proof.Machine
end

section
/-! SUPPORT. The insertion walk on any array (spec/41_probe_engine.md R202 to R206): what one iteration does, and what a
walk does that has an empty slot ahead of it. -/

namespace Sys2Proof.Machine

/-! ## Indices -/

theorem nextIndex_add_mod (i m e : Nat) : (nextIndex i e + m) % 2 ^ e = (i + (m + 1)) % 2 ^ e := by
  rw [nextIndex_eq, Nat.mod_add_mod, Nat.add_assoc, Nat.add_comm 1 m]

/-- A distance above 0 and below `2^e` leads to another slot. -/
theorem index_ne {i m e : Nat} (hi : i < 2 ^ e) (h0 : 0 < m) (hm : m < 2 ^ e) : (i + m) % 2 ^ e ≠ i := fun heq => by
  have hmod : i + m ≡ i + 0 [MOD 2 ^ e] := heq.trans (Nat.mod_eq_of_lt hi).symm
  exact h0.ne' ((Nat.ModEq.add_left_cancel' i hmod).eq_of_lt_of_lt hm (Nat.two_pow_pos e))

section
variable {g : Geometry} {e bound : Nat} {b : Memory} {i d r : Nat} {c : Candidate}

/-! ## One iteration (R202), case by case -/

theorem insertLoop_place (hf : (getSlot g b i).taken = false) :
    insertLoop g e (bound + 1) b i d c = .placed (setSlot g b i (c.toSlot d)) := by
  rw [insertLoop_succ, if_pos hf]

theorem insertLoop_replace (ht : (getSlot g b i).taken = true) (hth : (getSlot g b i).th = c.th)
    (hk : (getSlot g b i).key = c.key) :
    insertLoop g e (bound + 1) b i d c = .replaced (setSlot g b i (c.toSlot d)) := by
  have hslot : ({ getSlot g b i with item := c.item, psl := BitVec.ofNat 11 d } : Slot) = c.toSlot d := by
    rw [Candidate.toSlot, ← hth, ← hk, ← ht]
  rw [insertLoop_succ, if_neg (by simp [ht]), if_pos ⟨hth, hk⟩, hslot]

theorem insertLoop_pass (ht : (getSlot g b i).taken = true)
    (hn : (getSlot g b i).th ≠ c.th ∨ (getSlot g b i).key ≠ c.key) (hp : d ≤ (getSlot g b i).psl.toNat)
    (hd : d ≠ 2047) : insertLoop g e (bound + 1) b i d c = insertLoop g e bound b (nextIndex i e) (d + 1) c := by
  rw [insertLoop_succ, if_neg (by simp [ht]), if_neg (not_and_or.mpr hn), if_neg (by omega),
    if_neg (show d ≠ Config.maxPsl from hd)]

theorem insertLoop_steal (ht : (getSlot g b i).taken = true)
    (hn : (getSlot g b i).th ≠ c.th ∨ (getSlot g b i).key ≠ c.key) (hp : (getSlot g b i).psl.toNat < d)
    (hm : (getSlot g b i).psl.toNat ≠ 2047) :
    insertLoop g e (bound + 1) b i d c = insertLoop g e bound (setSlot g b i (c.toSlot d)) (nextIndex i e)
      ((getSlot g b i).psl.toNat + 1) (getSlot g b i).candidate := by
  rw [insertLoop_succ, if_neg (by simp [ht]), if_neg (not_and_or.mpr hn), if_pos hp,
    if_neg (show _ ≠ Config.maxPsl from hm)]

theorem insertLoop_overflow (ht : (getSlot g b i).taken = true)
    (hn : (getSlot g b i).th ≠ c.th ∨ (getSlot g b i).key ≠ c.key) (hp : (getSlot g b i).psl.toNat = 2047)
    (hd : d = 2047) : insertLoop g e (bound + 1) b i d c = .overflow := by
  rw [insertLoop_succ, if_neg (by simp [ht]), if_neg (not_and_or.mpr hn), if_neg (by omega),
    if_pos (show d = Config.maxPsl from hd)]

/-- What an iteration at slot `i` and distance `d` meets: an empty slot, a matching one, one to pass, one to steal, or
the end of the walk. -/
inductive Iteration (g : Geometry) (b : Memory) (i d : Nat) (c : Candidate) : Prop where
  | place (hf : (getSlot g b i).taken = false)
  | replace (ht : (getSlot g b i).taken = true) (hth : (getSlot g b i).th = c.th) (hk : (getSlot g b i).key = c.key)
  | pass (ht : (getSlot g b i).taken = true) (hn : (getSlot g b i).th ≠ c.th ∨ (getSlot g b i).key ≠ c.key)
      (hp : d ≤ (getSlot g b i).psl.toNat) (hd : d ≠ 2047)
  | steal (ht : (getSlot g b i).taken = true) (hn : (getSlot g b i).th ≠ c.th ∨ (getSlot g b i).key ≠ c.key)
      (hp : (getSlot g b i).psl.toNat < d) (hm : (getSlot g b i).psl.toNat ≠ 2047)
  | overflow (ht : (getSlot g b i).taken = true) (hn : (getSlot g b i).th ≠ c.th ∨ (getSlot g b i).key ≠ c.key)
      (hp : (getSlot g b i).psl.toNat = 2047) (hd : d = 2047)

/-- While the psl field holds the distance, these are all. -/
theorem iteration_of_le (g : Geometry) (b : Memory) (i : Nat) (c : Candidate) (hd : d ≤ 2047) :
    Iteration g b i d c := by
  have hpsl := (getSlot g b i).psl.isLt
  cases ht : (getSlot g b i).taken with
  | false => exact .place ht
  | true =>
    by_cases hm : (getSlot g b i).th = c.th ∧ (getSlot g b i).key = c.key
    · exact .replace ht hm.1 hm.2
    · have hn := not_and_or.mp hm
      by_cases hp : (getSlot g b i).psl.toNat < d
      · exact .steal ht hn hp (by omega)
      · by_cases hd' : d = 2047
        · exact .overflow ht hn (by omega) hd'
        · exact .pass ht hn (by omega) hd'

/-! ## Up to the first event (R202 to R205) -/

/-- The walk past `n` slots that keep their entries. -/
theorem insertLoop_passes {h n : Nat} (hn : n ≤ 2047)
    (hpass : ∀ m, m < n → (getSlot g b ((h + m) % 2 ^ e)).taken = true ∧
      ((getSlot g b ((h + m) % 2 ^ e)).th ≠ c.th ∨ (getSlot g b ((h + m) % 2 ^ e)).key ≠ c.key) ∧
      m ≤ (getSlot g b ((h + m) % 2 ^ e)).psl.toNat) :
    insertLoop g e (bound + n) b (h % 2 ^ e) 0 c = insertLoop g e bound b ((h + n) % 2 ^ e) n c := by
  induction n generalizing bound with
  | zero => rfl
  | succ n ih =>
    obtain ⟨ht, hne, hp⟩ := hpass n (by omega)
    rw [show bound + (n + 1) = bound + 1 + n by omega, ih (by omega) fun m hm => hpass m (by omega),
      insertLoop_pass ht hne hp (by omega), nextIndex_add]

end

/-- Settles O49: the walk passes the slots before its first event, and the iteration there is one of R202's cases. -/
theorem insertWalkStopsOrStealsAtTheFirstEvent : Obligations.InsertWalkStopsOrStealsAtTheFirstEvent := by
  unfold Obligations.InsertWalkStopsOrStealsAtTheFirstEvent
  rintro g e n i a c hn rfl hpass
  have hbound : n + 1 ≤ insertBound e := by
    have : 2 ^ 22 ≤ insertBound e := Nat.pow_le_pow_right (by decide) (by omega)
    omega
  simp only [insertWalk]
  generalize insertBound e = bound at hbound ⊢
  have hwalk : insertLoop g e bound a (home c.th e) 0 c =
      insertLoop g e (bound - n - 1 + 1) a ((home c.th e + n) % 2 ^ e) n c := by
    rw [← insertLoop_passes hn hpass, Nat.mod_eq_of_lt (home_lt _ _), show bound - n - 1 + 1 + n = bound by omega]
  rw [hwalk]
  refine ⟨insertLoop_place, insertLoop_replace, fun ht hne =>
    ⟨fun hp => ?_, fun hn hp => insertLoop_overflow ht hne hp hn⟩⟩
  rw [insertLoop_steal ht hne hp (by omega), nextIndex_eq]
  rfl

section
variable {g : Geometry} {e bound : Nat} {b : Memory} {i d r : Nat} {c : Candidate}

/-! ## A walk with an empty slot ahead (R206) -/

/-- The slot at distance `r` from slot `i` is empty. -/
structure EmptyAhead (g : Geometry) (e : Nat) (b : Memory) (i r : Nat) : Prop where
  wf : b.wf = true
  index : i < 2 ^ e
  inside : r < 2 ^ e
  empty : (getSlot g b ((i + r) % 2 ^ e)).taken = false

theorem EmptyAhead.here (h : EmptyAhead g e b i 0) : (getSlot g b i).taken = false := by
  have := h.empty
  rwa [Nat.add_zero, Nat.mod_eq_of_lt h.index] at this

/-- At a taken slot, the empty one is still ahead. -/
theorem EmptyAhead.succ (h : EmptyAhead g e b i r) (ht : (getSlot g b i).taken = true) : ∃ r', r = r' + 1 := by
  cases r with
  | zero => rw [h.here] at ht; cases ht
  | succ r' => exact ⟨r', rfl⟩

theorem EmptyAhead.pass (h : EmptyAhead g e b i (r + 1)) : EmptyAhead g e b (nextIndex i e) r where
  wf := h.wf
  index := nextIndex_lt i e
  inside := by have := h.inside; omega
  empty := by rw [nextIndex_add_mod]; exact h.empty

/-- A write of the slot passed leaves the empty one. -/
theorem EmptyAhead.write (h : EmptyAhead g e b i (r + 1)) (hg : g.fits) (s : Slot) :
    EmptyAhead g e (setSlot g b i s) (nextIndex i e) r where
  wf := wf_setSlot h.wf g i s
  index := nextIndex_lt i e
  inside := h.pass.inside
  empty := by
    have hne := (index_ne h.index (Nat.succ_pos r) h.inside).symm
    rw [nextIndex_add_mod, getSlot_setSlot_other hg h.wf hne]
    exact h.empty

/-- What ends a walk after `m` iterations with OVERFLOW (R204): at distance 2047, a taken slot that does not match and
has psl 2047. -/
def OverflowsAfter (g : Geometry) (e m : Nat) (a : Memory) (h d : Nat) (c : Candidate) : Prop :=
  ∃ b i k, WalkReaches g e m a h d c b i 2047 k ∧ (getSlot g b i).taken = true ∧
    ((getSlot g b i).th ≠ k.th ∨ (getSlot g b i).key ≠ k.key) ∧ (getSlot g b i).psl.toNat = 2047

theorem OverflowsAfter.pass {m : Nat} (ho : OverflowsAfter g e m b (nextIndex i e) (d + 1) c)
    (ht : (getSlot g b i).taken = true) (hn : (getSlot g b i).th ≠ c.th ∨ (getSlot g b i).key ≠ c.key)
    (hp : d ≤ (getSlot g b i).psl.toNat) (hd : d ≠ 2047) :
    OverflowsAfter g e (m + 1) b i d c := by
  obtain ⟨b', j, k, hreach, hend⟩ := ho
  rw [nextIndex_eq] at hreach
  exact ⟨b', j, k, .pass m b b' i d j 2047 c k ht hn hp hd hreach, hend⟩

theorem OverflowsAfter.steal {m : Nat} (ho : OverflowsAfter g e m (setSlot g b i (c.toSlot d)) (nextIndex i e)
      ((getSlot g b i).psl.toNat + 1) (getSlot g b i).candidate)
    (ht : (getSlot g b i).taken = true) (hn : (getSlot g b i).th ≠ c.th ∨ (getSlot g b i).key ≠ c.key)
    (hp : (getSlot g b i).psl.toNat < d) (hm : (getSlot g b i).psl.toNat ≠ 2047) :
    OverflowsAfter g e (m + 1) b i d c := by
  obtain ⟨b', j, k, hreach, hend⟩ := ho
  rw [nextIndex_eq] at hreach
  exact ⟨b', j, k, .steal m b b' i d j 2047 c k ht hn hp hm hreach, hend⟩

/-- A theft sets the distance back, so the distance never passes the iterations made. -/
theorem distance_le_of_walkReaches {m j f : Nat} {b' : Memory} {k : Candidate}
    (h : WalkReaches g e m b i d c b' j f k) : f ≤ d + m := by
  induction h with
  | here => omega
  | pass => omega
  | steal => omega

/-- The walk ends by the rule before its bound, at the latest at the empty slot. -/
theorem insertLoop_ends (hg : g.fits) (h : EmptyAhead g e b i r) (hd : d ≤ 2047) (hr : r < bound) :
    (∃ b', insertLoop g e bound b i d c = .placed b') ∨ (∃ b', insertLoop g e bound b i d c = .replaced b') ∨
      (insertLoop g e bound b i d c = .overflow ∧ ∃ m, m < r ∧ OverflowsAfter g e m b i d c) := by
  induction bound generalizing b i d r c with
  | zero => omega
  | succ bound ih =>
    cases iteration_of_le g b i c hd with
    | place hf =>
      exact .inl ⟨_, insertLoop_place hf⟩
    | replace ht hth hk =>
      exact .inr (.inl ⟨_, insertLoop_replace ht hth hk⟩)
    | pass ht hn hp hd' =>
      obtain ⟨r, rfl⟩ := h.succ ht
      rw [insertLoop_pass ht hn hp hd']
      exact (ih h.pass (by omega) (by omega)).imp_right fun h => h.imp_right fun ⟨ho, m, hm, hover⟩ =>
        ⟨ho, m + 1, by omega, hover.pass ht hn hp hd'⟩
    | steal ht hn hp hm =>
      obtain ⟨r, rfl⟩ := h.succ ht
      rw [insertLoop_steal ht hn hp hm]
      exact (ih (h.write hg _) (by omega) (by omega)).imp_right fun h => h.imp_right fun ⟨ho, m, hlt, hover⟩ =>
        ⟨ho, m + 1, by omega, hover.steal ht hn hp hm⟩
    | overflow ht hn hp hd' =>
      obtain ⟨r, rfl⟩ := h.succ ht
      subst hd'
      exact .inr (.inr ⟨insertLoop_overflow ht hn hp rfl, 0, by omega, b, i, c, .here b i 2047 c, ht, hn, hp⟩)

/-- So a bound past the empty slot is never what ends the walk. -/
theorem insertLoop_bound (hg : g.fits) (h : EmptyAhead g e b i r) (hd : d ≤ 2047) (hr : r < bound) (n : Nat) :
    insertLoop g e (bound + n) b i d c = insertLoop g e bound b i d c := by
  induction bound generalizing b i d r c with
  | zero => omega
  | succ bound ih =>
    rw [Nat.succ_add]
    cases iteration_of_le g b i c hd with
    | place hf =>
      rw [insertLoop_place hf, insertLoop_place hf]
    | replace ht hth hk =>
      rw [insertLoop_replace ht hth hk, insertLoop_replace ht hth hk]
    | pass ht hn hp hd' =>
      obtain ⟨r, rfl⟩ := h.succ ht
      rw [insertLoop_pass ht hn hp hd', insertLoop_pass ht hn hp hd', ih h.pass (by omega) (by omega)]
    | steal ht hn hp hm =>
      obtain ⟨r, rfl⟩ := h.succ ht
      rw [insertLoop_steal ht hn hp hm, insertLoop_steal ht hn hp hm, ih (h.write hg _) (by omega) (by omega)]
    | overflow ht hn hp hd' =>
      rw [insertLoop_overflow ht hn hp hd', insertLoop_overflow ht hn hp hd']

/-- It writes only the slots up to the empty one. -/
theorem insertLoop_read_outside (hg : g.fits) (h : EmptyAhead g e b i r) (hd : d ≤ 2047) {b' : Memory}
    (hw : insertLoop g e bound b i d c = .placed b' ∨ insertLoop g e bound b i d c = .replaced b') {x : Nat}
    (hx : ∀ m, m ≤ r → x < (i + m) % 2 ^ e * g.slotSize ∨ (i + m) % 2 ^ e * g.slotSize + g.slotSize ≤ x) :
    b'.read x = b.read x := by
  induction bound generalizing b i d r c with
  | zero => simp [insertLoop] at hw
  | succ bound ih =>
    have hset : (setSlot g b i (c.toSlot d)).read x = b.read x := read_setSlot_outside hg h.wf i _ x (by
      have := hx 0 (Nat.zero_le r)
      rwa [Nat.add_zero, Nat.mod_eq_of_lt h.index] at this)
    have hnext : ∀ r', r = r' + 1 → ∀ m, m ≤ r' → x < (nextIndex i e + m) % 2 ^ e * g.slotSize ∨
        (nextIndex i e + m) % 2 ^ e * g.slotSize + g.slotSize ≤ x := fun r' hr m hm => by
      rw [nextIndex_add_mod]
      exact hx (m + 1) (by omega)
    cases iteration_of_le g b i c hd with
    | place hf =>
      rw [insertLoop_place hf] at hw
      rcases hw with hw | hw <;> cases hw
      exact hset
    | replace ht hth hk =>
      rw [insertLoop_replace ht hth hk] at hw
      rcases hw with hw | hw <;> cases hw
      exact hset
    | pass ht hn hp hd' =>
      obtain ⟨r, rfl⟩ := h.succ ht
      rw [insertLoop_pass ht hn hp hd'] at hw
      exact ih h.pass (by omega) hw (hnext r rfl)
    | steal ht hn hp hm =>
      obtain ⟨r, rfl⟩ := h.succ ht
      rw [insertLoop_steal ht hn hp hm] at hw
      exact (ih (h.write hg _) (by omega) hw (hnext r rfl)).trans hset
    | overflow ht hn hp hd' =>
      rw [insertLoop_overflow ht hn hp hd'] at hw
      rcases hw with hw | hw <;> cases hw

end

/-- Settles O48: the empty slot stands at a distance below `2^e` from the home index. -/
theorem insertWalkReturnsWithinTheCapacity : Obligations.InsertWalkReturnsWithinTheCapacity := by
  unfold Obligations.InsertWalkReturnsWithinTheCapacity
  rintro g e a c hg ha ⟨j, hj, hf⟩
  obtain ⟨r, hr, rfl⟩ := exists_distance (home_lt c.th e) hj
  have hahead : EmptyAhead g e a (home c.th e) r := ⟨ha, home_lt _ _, hr, hf⟩
  have hends := insertLoop_ends (c := c) hg hahead (Nat.zero_le 2047) hr
  have hdist : ∀ m, OverflowsAfter g e m a (home c.th e) 0 c → 2047 ≤ m := fun m ⟨_, _, _, hreach, _⟩ => by
    have := distance_le_of_walkReaches hreach
    omega
  refine ⟨insertLoop_bound hg hahead (Nat.zero_le 2047) hr, ?_, fun he => ?_⟩
  · refine hends.imp_right fun h => h.imp_right fun ⟨ho, m, hm, hover⟩ => ⟨ho, m, ?_⟩
    obtain ⟨b, i, k, hend⟩ := hover
    exact ⟨b, i, k, hdist m ⟨b, i, k, hend⟩, by omega, hend⟩
  · rcases hends with h | h | ⟨_, m, hm, hover⟩
    · exact .inl h
    · exact .inr h
    · have h2048 : 2 ^ e ≤ 2 ^ 11 := Nat.pow_le_pow_right (by decide) he
      have := hdist m hover
      omega

/-- Settles O50: the first empty slot is one that stands ahead of the walk. -/
theorem insertWalkWritesOnlyTheProbedRun : Obligations.InsertWalkWritesOnlyTheProbedRun := by
  unfold Obligations.InsertWalkWritesOnlyTheProbedRun
  intro g e n a b c hg ha hn hf _ hw x hx
  exact insertLoop_read_outside hg ⟨ha, home_lt _ _, hn, hf⟩ (Nat.zero_le 2047) hw hx

/-! ## The count of taken slots, for a candidate with any item -/

/-- The bytes of an item that a slot has room for, in canonical form. -/
def Geometry.clipItem (g : Geometry) (v : Memory) : Memory := Memory.blit [] 0 g.itemSize v

/-- A candidate with no more of its item than a slot stores. -/
def Candidate.clip (g : Geometry) (c : Candidate) : Candidate := { c with item := g.clipItem c.item }

section
variable {g : Geometry} {e bound : Nat} {b : Memory} {i d : Nat} {c : Candidate}

theorem Candidate.clip_sane (g : Geometry) (c : Candidate) (d : Nat) : ((c.clip g).toSlot d).Sane g where
  wf := Memory.wf_blit Memory.wf_nil 0 g.itemSize c.item
  inside x hx := by
    rcases Memory.mem_blit hx with hx | hx
    · cases hx
    · omega

/-- A slot write stores just those bytes. -/
theorem putItem_clipItem (hb : b.wf = true) (i : Nat) (v : Memory) :
    putItem g b i (g.clipItem v) = putItem g b i v := by
  refine Memory.ext (wf_putItem hb g i _) (wf_putItem hb g i _) fun x => ?_
  rw [putItem, putItem, Memory.read_blit hb, Memory.read_blit hb]
  split_ifs with hx
  · rw [Geometry.clipItem, Memory.read_blit Memory.wf_nil, if_pos (by omega), Nat.sub_zero]
  · rfl

theorem setSlot_clip (hb : b.wf = true) (i d : Nat) (c : Candidate) :
    setSlot g b i ((c.clip g).toSlot d) = setSlot g b i (c.toSlot d) :=
  putItem_clipItem (wf_putKey (Memory.wf_writeLE hb _ _ _) g i _) i c.item

/-- So the walk does the same with them. -/
theorem insertLoop_clip (hb : b.wf = true) (hd : d ≤ 2047) :
    insertLoop g e bound b i d (c.clip g) = insertLoop g e bound b i d c := by
  induction bound generalizing i d with
  | zero => rfl
  | succ bound ih =>
    have hset := setSlot_clip (g := g) hb i d c
    cases iteration_of_le g b i c hd with
    | place hf =>
      rw [insertLoop_place hf, insertLoop_place hf, hset]
    | replace ht hth hk =>
      rw [insertLoop_replace ht hth hk, insertLoop_replace (c := c.clip g) ht hth hk, hset]
    | pass ht hn hp hd' =>
      rw [insertLoop_pass ht hn hp hd', insertLoop_pass (c := c.clip g) ht hn hp hd', ih (by omega)]
    | steal ht hn hp hm =>
      rw [insertLoop_steal ht hn hp hm, insertLoop_steal (c := c.clip g) ht hn hp hm, hset]
    | overflow ht hn hp hd' =>
      rw [insertLoop_overflow ht hn hp hd', insertLoop_overflow (c := c.clip g) ht hn hp hd']

theorem insertWalk_clip (hb : b.wf = true) : insertWalk g e b (c.clip g) = insertWalk g e b c :=
  insertLoop_clip hb (Nat.zero_le 2047)

end

/-- Settles O51, from the count of a walk with an item of canonical form that fits. -/
theorem insertWalkAddsOneTakenSlot : Obligations.InsertWalkAddsOneTakenSlot := by
  unfold Obligations.InsertWalkAddsOneTakenSlot
  intro g e a b c hg ha
  rw [← insertWalk_clip ha]
  exact ⟨countTaken_insertWalk_placed hg ha (c.clip_sane g 0), countTaken_insertWalk_replaced hg ha (c.clip_sane g 0)⟩

end Sys2Proof.Machine
end

section
/-! SUPPORT. The lookup walk (spec/41_probe_engine.md R207, R208): it finds only matching slots, in a good array it
finds every entry, and so a good table's map is the set of entries its array holds. -/

namespace Sys2Proof.Machine

/-- Settles O46: the lookup loop answers a slot only past its three checks. -/
theorem findReturnsAMatchingSlot : Obligations.FindReturnsAMatchingSlot := by
  unfold Obligations.FindReturnsAMatchingSlot
  intro g e a k i h
  exact findSlot_some h

section
variable {g : Geometry} {e : Nat} {P : BitVec 20 → KeyBuf → Prop} {a : Memory} {i : Nat}

/-- The walk from a distance `d` on the way to the entry of slot `i`: by INV6 no slot before it is empty or richer than
the walk, and by INV3 none matches. -/
theorem findLoop_complete (ha : GoodArray g e P a) (hi : i < 2 ^ e) (ht : (getSlot g a i).taken = true) {bound d : Nat}
    (hd : d ≤ (getSlot g a i).psl.toNat) (hb : (getSlot g a i).psl.toNat < d + bound) :
    findLoop g e a ⟨(getSlot g a i).key, (getSlot g a i).th⟩ bound ((home (getSlot g a i).th e + d) % 2 ^ e) d =
      some i := by
  obtain ⟨_, hplace⟩ := ha.distance i hi ht
  induction bound generalizing d with
  | zero => omega
  | succ bound ih =>
    obtain ⟨hdt, hdp⟩ := ha.run_back (s := home (getSlot g a i).th e) (by rw [hplace, ht]) (by rw [hplace]) hd
    rw [findLoop_succ, if_neg (by simp [hdt]), if_neg (by omega)]
    split_ifs with hm
    · rw [ha.distinct _ i (Nat.mod_lt _ (Nat.two_pow_pos e)) hi hdt ht hm.2]
    · have hne : d ≠ (getSlot g a i).psl.toNat := by
        rintro rfl
        rw [hplace] at hm
        exact hm ⟨rfl, rfl⟩
      rw [nextIndex_add]
      exact ih (by omega) (by omega)

/-- A psl fits its field, so the lookup walk reaches every entry of a good array (R208). -/
theorem findSlot_complete (ha : GoodArray g e P a) (hi : i < 2 ^ e) (ht : (getSlot g a i).taken = true) :
    findSlot g e a ⟨(getSlot g a i).key, (getSlot g a i).th⟩ = some i := by
  have hpsl := (getSlot g a i).psl.isLt
  have h := findLoop_complete ha hi ht (bound := Config.maxPsl + 2) (Nat.zero_le _)
    (by simp only [Config.maxPsl]; omega)
  rwa [Nat.add_zero (home _ _), Nat.mod_eq_of_lt (home_lt _ _)] at h

end

/-- Settles O47, for INV3 to INV6 make the table's array a good one. -/
theorem findIsCompleteInAGoodTable : Obligations.FindIsCompleteInAGoodTable := by
  unfold Obligations.FindIsCompleteInAGoodTable
  intro t v i h ⟨hi, ht⟩
  exact findSlot_complete h.arrayGood hi ht

/-- In a good table a key operand is mapped to an item just when the array holds that entry. -/
theorem Table.Inv.lookup_eq_some_iff {t : Table} {v : Env} (h : t.Inv v) (k : KeyOperand) (m : Memory) :
    t.lookup k = some m ↔ Holds t.geometry t.e.toNat t.array ⟨k.th, k.key, m⟩ := by
  rw [Table.lookup, Option.map_eq_some_iff]
  constructor
  · rintro ⟨i, hf, rfl⟩
    obtain ⟨hi, ht, hth, hk⟩ := findSlot_some hf
    refine ⟨i, hi, ht, ?_⟩
    rw [← hth, ← hk]
    rfl
  · rintro ⟨i, hi, ht, hc⟩
    obtain ⟨kkey, kth⟩ := k
    obtain ⟨rfl, rfl, rfl⟩ := Candidate.mk.inj hc
    exact ⟨i, findSlot_complete h.arrayGood hi ht, rfl⟩

/-- Good tables whose arrays hold the same entries stand for the same map. -/
theorem lookup_congr {t u : Table} {v w : Env} (ht : t.Inv v) (hu : u.Inv w)
    (h : ∀ x, Holds u.geometry u.e.toNat u.array x ↔ Holds t.geometry t.e.toNat t.array x) (k : KeyOperand) :
    u.lookup k = t.lookup k :=
  Option.ext fun m => by rw [hu.lookup_eq_some_iff, ht.lookup_eq_some_iff, h]

end Sys2Proof.Machine
end

section
/-! SUPPORT. The backward shift on any array (spec/41_probe_engine.md R209, R210): what it leaves in every slot and
every byte. -/

namespace Sys2Proof.Machine

section
variable {g : Geometry} {e bound i n : Nat} {a : Memory}

/-- The `n` slots after slot `i` are taken with a psl above 0, and the one after them is not. -/
structure RunAfter (g : Geometry) (e : Nat) (a : Memory) (i n : Nat) : Prop where
  wf : a.wf = true
  index : i < 2 ^ e
  inside : n + 1 < 2 ^ e
  run : ∀ m, m < n → (getSlot g a ((i + (m + 1)) % 2 ^ e)).taken = true ∧
    0 < (getSlot g a ((i + (m + 1)) % 2 ^ e)).psl.toNat
  stop : ¬((getSlot g a ((i + (n + 1)) % 2 ^ e)).taken = true ∧ 0 < (getSlot g a ((i + (n + 1)) % 2 ^ e)).psl.toNat)

/-- An entry as it is after it moved back by one slot: its psl is one lower. -/
def Slot.movedBack (s : Slot) : Slot := { s with psl := s.psl - 1#11 }

/-- What the shift of a run leaves: each entry one slot back, the last slot empty, every other byte as before. -/
structure ShiftedBack (g : Geometry) (e : Nat) (a : Memory) (i n : Nat) (b : Memory) : Prop where
  wf : b.wf = true
  moved : ∀ m, m < n → getSlot g b ((i + m) % 2 ^ e) = (getSlot g a ((i + (m + 1)) % 2 ^ e)).movedBack
  emptied : getSlot g b ((i + n) % 2 ^ e) = Slot.empty
  outside : ∀ x, (∀ m, m ≤ n → x < (i + m) % 2 ^ e * g.slotSize ∨ (i + m) % 2 ^ e * g.slotSize + g.slotSize ≤ x) →
    b.read x = a.read x

/-- One shift, with the psl lowered in its field. -/
theorem getSlot_shiftOne_same (hg : g.fits) (hm : a.wf = true) (i j : Nat)
    (hp : 0 < (getSlot g a j).psl.toNat) : getSlot g (shiftOne g a i j) i = (getSlot g a j).movedBack := by
  have hpsl : BitVec.ofNat 11 ((getSlot g a j).psl.toNat - 1) = (getSlot g a j).psl - 1#11 := by bv_omega
  rw [getSlot_shiftOne hg hm, if_pos rfl, hpsl, Slot.movedBack]

theorem RunAfter.index_ne (h : RunAfter g e a i n) {m : Nat} (hm : m ≤ n) : (i + (m + 1)) % 2 ^ e ≠ i := by
  have hinside := h.inside
  exact Machine.index_ne h.index (Nat.succ_pos m) (by omega)

/-- A shift leaves the rest of the run, one slot further on. -/
theorem RunAfter.shiftOne (h : RunAfter g e a i (n + 1)) (hg : g.fits) :
    RunAfter g e (shiftOne g a i (nextIndex i e)) (nextIndex i e) n := by
  have hsame : ∀ m, m ≤ n → getSlot g (Machine.shiftOne g a i (nextIndex i e)) ((i + (m + 1 + 1)) % 2 ^ e) =
      getSlot g a ((i + (m + 1 + 1)) % 2 ^ e) := fun m hm => by
    rw [getSlot_shiftOne hg h.wf, if_neg (h.index_ne (by omega))]
  have hinside := h.inside
  refine ⟨wf_shiftOne h.wf i _, nextIndex_lt i e, by omega, fun m hm => ?_, ?_⟩
  · rw [nextIndex_add_mod, hsame m (by omega)]
    exact h.run (m + 1) (by omega)
  · rw [nextIndex_add_mod, hsame n le_rfl]
    exact h.stop

/-- Every slot outside the run stays, for its bytes do. -/
theorem ShiftedBack.other {b : Memory} (h : ShiftedBack g e a i n b) (hg : g.fits) (ha : a.wf = true) {j : Nat}
    (hj : ∀ m, m ≤ n → j ≠ (i + m) % 2 ^ e) : getSlot g b j = getSlot g a j := by
  refine getSlot_congr hg h.wf ha j fun y hy hy' => h.outside y fun m hm => ?_
  rcases Nat.lt_or_gt_of_ne (hj m hm) with hlt | hgt
  · exact .inl (hy'.trans_le (g.slotBase_lt hlt))
  · exact .inr ((g.slotBase_lt hgt).trans hy)

/-- A shift before the shift of the rest of the run. -/
theorem ShiftedBack.ofShiftOne {b : Memory} (h : RunAfter g e a i (n + 1)) (hg : g.fits)
    (hs : ShiftedBack g e (shiftOne g a i (nextIndex i e)) (nextIndex i e) n b) : ShiftedBack g e a i (n + 1) b := by
  have hi : (i + 0) % 2 ^ e = i := Nat.mod_eq_of_lt h.index
  refine ⟨hs.wf, fun m hm => ?_, ?_, fun x hx => ?_⟩
  · cases m with
    | zero =>
      rw [hi, hs.other hg (wf_shiftOne h.wf i _) fun m hm => ?_, nextIndex_eq,
        getSlot_shiftOne_same hg h.wf i _ (h.run 0 hm).2]
      rw [nextIndex_add_mod]
      exact (h.index_ne (by omega)).symm
    | succ m =>
      rw [← nextIndex_add_mod, hs.moved m (by omega), nextIndex_add_mod, getSlot_shiftOne hg h.wf,
        if_neg (h.index_ne (by omega))]
  · rw [← nextIndex_add_mod]
    exact hs.emptied
  · have hxi := hx 0 (Nat.zero_le _)
    rw [hi] at hxi
    refine (hs.outside x fun m hm => ?_).trans (read_setSlot_outside hg h.wf i _ x hxi)
    rw [nextIndex_add_mod]
    exact hx (m + 1) (by omega)

/-- The loop shifts the whole run, its bound set aside. -/
theorem shiftLoop_run (hg : g.fits) (h : RunAfter g e a i n) (hb : n < bound) :
    ShiftedBack g e a i n (shiftLoop g e bound a i (nextIndex i e)) := by
  induction bound generalizing a i n with
  | zero => omega
  | succ bound ih =>
    rw [shiftLoop_succ]
    cases n with
    | zero =>
      have hi : (i + 0) % 2 ^ e = i := Nat.mod_eq_of_lt h.index
      rw [if_neg (by rw [nextIndex_eq]; exact h.stop)]
      refine ⟨wf_setSlot h.wf g i _, fun m hm => absurd hm (Nat.not_lt_zero m), ?_, fun x hx => ?_⟩
      · rw [hi, getSlot_setSlot_same h.wf i (Slot.empty_sane g)]
      · have hxi := hx 0 le_rfl
        rw [hi] at hxi
        exact read_setSlot_outside hg h.wf i _ x hxi
    | succ n =>
      have hrun := h.run 0 (by omega)
      rw [← nextIndex_eq] at hrun
      rw [if_pos hrun]
      exact .ofShiftOne h hg (ih (h.shiftOne hg) (by omega))

end

/-- Settles O52, from what the shift of a run leaves in every slot and every byte. -/
theorem backwardShiftMovesTheRunBack : Obligations.BackwardShiftMovesTheRunBack := by
  unfold Obligations.BackwardShiftMovesTheRunBack
  intro g e i n a hg ha hi hn hrun hstop
  have hindex : ∀ m, i + 1 + m = i + (m + 1) := fun m => by omega
  simp only [hindex] at hrun hstop ⊢
  have hbound : n < shiftBound e :=
    (show n < 2 ^ e by omega).trans_le (Nat.pow_le_pow_right (by decide) (by omega))
  have hs : ShiftedBack g e a i n (backwardShift g e a i) := shiftLoop_run hg ⟨ha, hi, hn, hrun, fun ⟨ht, hp⟩ => by
    rcases hstop with hf | hz
    · rw [hf] at ht
      cases ht
    · omega⟩ hbound
  refine ⟨hs.moved, ?_, fun j _ hj => hs.other hg ha hj, hs.outside⟩
  rw [hs.emptied]
  rfl

end Sys2Proof.Machine
end

section
/-! SUPPORT. Resize and the load-factor arbiters (spec/41_probe_engine.md R211 to R218): where the shrink loop stops,
when a resize fails, that one which succeeds keeps the map, and what INSERT does at the threshold. -/

namespace Sys2Proof.Machine

/-! ## The shrink loop (R217) -/

/-- Every exponent the shrink loop leaves behind is sparse. -/
theorem sparse_of_shrinkExp_lt {occ e f : Nat} (h : shrinkExp occ e < f) (hf : f ≤ e) : sparse occ f = true := by
  induction e with
  | zero => omega
  | succ e ih =>
    simp only [shrinkExp] at h
    split_ifs at h with hc
    · rcases Nat.eq_or_lt_of_le hf with rfl | hlt
      · exact hc.2
      · exact ih h (by omega)
    · omega

/-- It stops at 4 or at an exponent that is not sparse. -/
theorem shrinkExp_stops {occ e : Nat} (he : 4 ≤ e) : shrinkExp occ e = 4 ∨ sparse occ (shrinkExp occ e) = false := by
  induction e with
  | zero => omega
  | succ e ih =>
    simp only [shrinkExp]
    split_ifs with hc
    · exact ih (Nat.le_of_lt_succ hc.1)
    · rcases Nat.eq_or_lt_of_le he with h4 | h4
      · exact .inl h4.symm
      · exact .inr (by simpa using fun hs => hc ⟨h4, hs⟩)

/-- Above 4 a sparse exponent is left. -/
theorem shrinkExp_lt {occ e : Nat} (he : 4 < e) (hs : sparse occ e = true) : shrinkExp occ e < e := by
  obtain ⟨e, rfl⟩ : ∃ e', e = e' + 1 := ⟨e - 1, by omega⟩
  have hle := (shrinkExp_bounds (occ := occ) (show Config.minExp ≤ e from Nat.le_of_lt_succ he)).2.1
  rw [shrinkExp, if_pos ⟨he, hs⟩]
  omega

/-- Settles O14, from where the shrink loop stops and what it leaves behind. -/
theorem shrinkLoopStopsAtTheFirstDenseExponent : Obligations.ShrinkLoopStopsAtTheFirstDenseExponent := by
  unfold Obligations.ShrinkLoopStopsAtTheFirstDenseExponent
  intro occ e he hs
  exact ⟨(shrinkExp_bounds he.le).1, shrinkExp_lt he hs, shrinkExp_stops he.le, fun _ => sparse_of_shrinkExp_lt⟩

/-- What a shrink that succeeds leaves (R217). -/
theorem shrinkArbiter_shrank {t : Table} {memBytes : Nat} (h : (t.shrinkArbiter memBytes).shrank = true) :
    4 < t.e.toNat ∧ sparse t.occ.toNat t.e.toNat = true ∧ (t.shrinkArbiter memBytes).table.occ = t.occ ∧
      (t.shrinkArbiter memBytes).table.e.toNat = shrinkExp t.occ.toNat t.e.toNat := by
  rcases shrinkArbiter_cases t memBytes with ⟨_, he⟩ | ⟨⟨h4, hs⟩, ⟨u, hr, he⟩ | ⟨_, he⟩ | ⟨_, he⟩⟩ <;> rw [he] at h ⊢
  · cases h
  · refine ⟨h4, hs, ?_⟩
    have hlt := shrinkExp_lt h4 hs
    have h32 := t.e.isLt
    rcases resize_cases t memBytes (shrinkExp t.occ.toNat t.e.toNat) with ⟨hr', _⟩ | ⟨_, ⟨hr', _⟩ | ⟨b, hr', _⟩⟩ <;>
      rw [hr'] at hr <;> cases hr
    exact ⟨rfl, by rw [BitVec.toNat_ofNat]; omega⟩
  · cases h
  · cases h

/-- Settles O13: the exponent above the new one was left behind, so it was sparse. -/
theorem shrinkIsNotFollowedByGrow : Obligations.ShrinkIsNotFollowedByGrow := by
  unfold Obligations.ShrinkIsNotFollowedByGrow
  rintro t u memBytes h rfl
  obtain ⟨h4, hs, hocc, he⟩ := shrinkArbiter_shrank h
  have hlt := shrinkExp_lt h4 hs
  have hsparse : sparse t.occ.toNat (shrinkExp t.occ.toNat t.e.toNat + 1) = true :=
    sparse_of_shrinkExp_lt (Nat.lt_succ_self _) hlt
  have hload : 10 * t.occ.toNat ≤ 8 * 2 ^ shrinkExp t.occ.toNat t.e.toNat := by
    have := (sparse_iff _ _).mp hsparse
    rw [pow_succ] at this
    omega
  have hpos := Nat.two_pow_pos (shrinkExp t.occ.toNat t.e.toNat)
  rw [hocc, he]
  exact ⟨hlt, hsparse, hload, Bool.eq_false_iff.mpr fun hg => by have := (growNeeded_iff _ _).mp hg; omega⟩

/-! ## Resize (R211 to R215) -/

section
variable {t u : Table} {memBytes eNew : Nat}

/-- A resize fails for memory when both footprints together do not fit (spec/20_memory.md R93, R94). -/
theorem resize_eq_failAlloc_iff : t.resize memBytes eNew = .failAlloc ↔
    footprint t.cap t.slotSize.toNat + footprint (2 ^ eNew) t.slotSize.toNat > memBytes := by
  rcases resize_cases t memBytes eNew with ⟨he, hm⟩ | ⟨hm, ⟨he, _⟩ | ⟨b, he, _⟩⟩ <;> rw [he]
  · exact ⟨fun _ => hm, fun _ => rfl⟩
  · exact ⟨fun h => (by cases h), fun h => absurd hm (Nat.not_le.mpr h)⟩
  · exact ⟨fun h => (by cases h), fun h => absurd hm (Nat.not_le.mpr h)⟩

theorem resize_eq_failPsl_iff : t.resize memBytes eNew = .failPsl ↔
    footprint t.cap t.slotSize.toNat + footprint (2 ^ eNew) t.slotSize.toNat ≤ memBytes ∧
      reinsert t.geometry t.array eNew (2 ^ t.e.toNat) 0 [] = none := by
  rcases resize_cases t memBytes eNew with ⟨he, hm⟩ | ⟨hm, ⟨he, hr⟩ | ⟨b, he, hr⟩⟩ <;> rw [he]
  · exact ⟨fun h => (by cases h), fun h => absurd h.1 (Nat.not_le.mpr hm)⟩
  · exact ⟨fun _ => ⟨hm, hr⟩, fun _ => rfl⟩
  · exact ⟨fun h => (by cases h), fun h => absurd (hr.symm.trans h.2) (by simp)⟩

theorem resize_eq_ok_iff : t.resize memBytes eNew = .ok u ↔
    footprint t.cap t.slotSize.toNat + footprint (2 ^ eNew) t.slotSize.toNat ≤ memBytes ∧
      ∃ b, reinsert t.geometry t.array eNew (2 ^ t.e.toNat) 0 [] = some b ∧
        u = { t with e := BitVec.ofNat 5 eNew, array := b } := by
  rcases resize_cases t memBytes eNew with ⟨he, hm⟩ | ⟨hm, ⟨he, hr⟩ | ⟨b, he, hr⟩⟩ <;> rw [he]
  · exact ⟨fun h => (by cases h), fun h => absurd h.1 (Nat.not_le.mpr hm)⟩
  · exact ⟨fun h => (by cases h), fun ⟨_, b, h, _⟩ => absurd (hr.symm.trans h) (by simp)⟩
  · constructor
    · rintro h
      cases h
      exact ⟨hm, b, hr, rfl⟩
    · rintro ⟨_, b', h, rfl⟩
      cases hr.symm.trans h
      rfl

/-- A resize that succeeds on a good table, with room for the entries, holds just the entries it held. -/
theorem Table.Inv.holds_resize {v : Env} (h : t.Inv v) (h1 : 4 ≤ eNew) (h2 : eNew ≤ 20) (hocc : t.occ.toNat < 2 ^ eNew)
    (hr : t.resize memBytes eNew = .ok u) (x : Candidate) :
    Holds u.geometry u.e.toNat u.array x ↔ Holds t.geometry t.e.toNat t.array x := by
  obtain ⟨_, b, hb, rfl⟩ := resize_eq_ok_iff.mp hr
  have hcount := h.counted
  rw [Table.counted, Table.takenCount_zero] at hcount
  obtain ⟨_, hholds, _⟩ := reinsert_keeps_good h.shaped.fits (le_trans (by decide) h1) HashEntry.th_unique h.arrayGood
    (le_refl (2 ^ t.e.toNat)) (hcount ▸ hocc) hb
  show Holds t.geometry (BitVec.ofNat 5 eNew).toNat b x ↔ _
  rw [exponent_toNat h2]
  exact hholds x

end

/-- Settles O53: the conditions are those of the reinsertion, slot by slot; on a good table the entries stay, and with
them the map. -/
theorem resizeKeepsTheMap : Obligations.ResizeKeepsTheMap := by
  unfold Obligations.ResizeKeepsTheMap
  refine ⟨fun t memBytes eNew => ⟨resize_eq_failAlloc_iff, ?_, fun u => resize_eq_ok_iff, rfl, fun i b hb => ?_⟩,
    fun t u v eNew hinv h4 h20 hocc hr => ?_⟩
  · exact resize_eq_failPsl_iff.trans (and_congr_right fun _ => reinsert_eq_none _ _ _ _ _)
  · refine ⟨fun hf => ?_, fun b' ht hw => ?_⟩
    · rw [Table.slot] at hf
      rw [reinsert_succ, hb, Option.bind_some, if_neg (by simp [hf])]
    · have hwalk : insertWalk t.geometry eNew b (getSlot t.geometry t.array i).candidate = .placed b' ∨
          insertWalk t.geometry eNew b (getSlot t.geometry t.array i).candidate = .replaced b' := hw
      rw [Table.slot] at ht
      rw [reinsert_succ, hb, Option.bind_some, if_pos ht]
      rcases hwalk with hwalk | hwalk <;> rw [hwalk]
  · have hu := hinv.resize h4 h20 hocc hr
    refine ⟨?_, ?_, hu, lookup_congr hinv hu (hinv.holds_resize h4 h20 hocc hr)⟩ <;>
      obtain ⟨_, b, _, rfl⟩ := resize_eq_ok_iff.mp hr
    · exact exponent_toNat h20
    · rfl

/-! ## INSERT past its checks (spec/43_map_commands.md R300) -/

section
variable {s : State} {key : KeyOperand}

/-- A pre-check that fails is the failure of INSERT. -/
theorem execInsert_of_fail (hs : s.tstate = .ready) (hk : s.getKey true = .ok key) {c : ErrCode}
    (hg : s.tab.growArbiter s.env.memBytes = .fail c) :
    exec (.insert true true) s = .next (s.endReferences.raise c) := by
  simp [exec, execInsert, hs, hk, hg]

/-- INSERT walks into the table its pre-check left. -/
theorem execInsert_of_proceed (hs : s.tstate = .ready) (hk : s.getKey true = .ok key) {t : Table} {grew : Bool}
    (hg : s.tab.growArbiter s.env.memBytes = .proceed t grew) :
    exec (.insert true true) s = .next (s.endReferences.insertInto t grew key) := by
  simp [exec, execInsert, hs, hk, hg]

end

/-- Settles O23: at the threshold the grow arbiter answers ERR_FULL or what the resize gives. -/
theorem insertGrowsFirst : Obligations.InsertGrowsFirst := by
  unfold Obligations.InsertGrowsFirst
  intro s key hs hk hload
  have hgrow := (growNeeded_iff _ _).mpr hload
  rcases growArbiter_cases s.tab s.env.memBytes with ⟨hno, _⟩ | ⟨_, ⟨he, hfull⟩ | ⟨hne, hr⟩⟩
  · rw [hgrow] at hno
    cases hno
  · have h20 : s.tab.e.toNat = 20 := he
    rw [execInsert_of_fail hs hk hfull]
    exact ⟨fun _ => rfl, fun h => absurd h (by omega)⟩
  · refine ⟨fun h => absurd h hne, fun _ => ?_⟩
    rcases hr with ⟨g, hr, ha⟩ | ⟨hr, ha⟩ | ⟨hr, ha⟩
    · rw [hr, execInsert_of_proceed hs hk ha]
      rcases insertInto_cases s.endReferences g true key with ⟨b, hw, hi⟩ | ⟨b, hw, hi⟩ | ⟨hw, hi⟩ <;>
        simp only [hw, hi] <;> rfl
    · rw [hr, execInsert_of_fail hs hk ha]
      rfl
    · rw [hr, execInsert_of_fail hs hk ha]
      rfl

end Sys2Proof.Machine
end

section
/-! SUPPORT. The table commands (spec/42_table_commands.md R250 to R272): the exponent for a size, what a creation does on
each of its paths, the queries, and the dispose handshake with its count of taken slots. -/

namespace Sys2Proof.Machine

/-! ## The exponent for a size (R252) -/

theorem expForSize_eq_some_iff {n e : Nat} :
    expForSize n = some e ↔ 4 ≤ e ∧ e ≤ 20 ∧ n ≤ 2 ^ e ∧ ∀ f, 4 ≤ f → f < e → 2 ^ f < n := by
  rcases expSearch_cases n 17 4 with ⟨f, he, h4, h20, hfit, hleast⟩ | ⟨he, hnone⟩ <;>
    rw [show expForSize n = _ from he]
  · constructor
    · rintro ⟨⟩
      exact ⟨h4, by omega, hfit, hleast⟩
    · rintro ⟨h4', _, hfit', hleast'⟩
      rcases Nat.lt_trichotomy f e with hlt | rfl | hlt
      · exact absurd hfit (Nat.not_le.mpr (hleast' f h4 hlt))
      · rfl
      · exact absurd hfit' (Nat.not_le.mpr (hleast e h4' hlt))
  · constructor
    · rintro ⟨⟩
    · rintro ⟨h4, h20, hfit, _⟩
      exact absurd hfit (Nat.not_le.mpr (hnone e h4 (by omega)))

/-- If any exponent fits then 20 does, for it gives the largest capacity. -/
theorem expForSize_eq_none_iff {n : Nat} : expForSize n = none ↔ n > 2 ^ 20 := by
  rcases expSearch_cases n 17 4 with ⟨f, he, _, h20, hfit, _⟩ | ⟨he, hnone⟩ <;> rw [show expForSize n = _ from he]
  · have hle : n ≤ 2 ^ 20 := hfit.trans (Nat.pow_le_pow_right (by decide) (by omega))
    exact ⟨fun h => (by cases h), fun h => absurd hle (Nat.not_le.mpr h)⟩
  · exact ⟨fun _ => hnone 20 (by decide) (by decide), fun _ => rfl⟩

/-- Settles O11, from what the search over the exponents 4 to 20 finds. -/
theorem expForSizeIsTheSmallestFit : Obligations.ExpForSizeIsTheSmallestFit := by
  unfold Obligations.ExpForSizeIsTheSmallestFit
  exact ⟨fun _ _ => expForSize_eq_some_iff, fun _ => expForSize_eq_none_iff⟩

/-! ## Creation (R250, R254, R256) -/

/-- The slot size fits its register just when the item size is at most `0xFFFFFFE0` (R254). -/
theorem slotBytes_le_maxSlotSize_iff (item : Nat) : slotBytes item ≤ Config.maxSlotSize ↔ item ≤ 0xFFFFFFE0 :=
  slotSizeIsTheLeastMultipleOfEight.2 item

/-- Only a request to the port can leave a creation without a secret. -/
theorem newSecret_eq_none_iff (s : State) (z : Bool) : s.newSecret z = none ↔ z = false ∧ s.env.entropyAnswer = none := by
  cases z <;> simp [State.newSecret]

section
variable {s : State} {exp : Nat} {z p : Bool}

/-- A creation whose four checks pass makes a table. -/
theorem tableCreate_of_checks {item : Nat} {sec : Secret} (h4 : 4 ≤ exp) (h20 : exp ≤ 20) (hitem : item ≤ 0xFFFFFFE0)
    (hmem : (2 ^ exp + 2) * slotBytes item ≤ s.env.memBytes) (hsec : s.newSecret z = some sec) :
    s.tableCreate exp item z p = { s.secretDrawn z with
      tstate := .ready, tab := newTable exp item p sec, ref := .none, iterActive := false }.finish
        (BitVec.ofNat 32 exp) := by
  have hsize := (slotBytes_le_maxSlotSize_iff item).mpr hitem
  rcases tableCreate_cases s exp item z p with
    ⟨h | h, _⟩ | ⟨_, _, ⟨h, _⟩ | ⟨_, ⟨h, _⟩ | ⟨_, ⟨h, _⟩ | ⟨sec', h, he⟩⟩⟩⟩
  · exact absurd h4 (Nat.not_le.mpr h)
  · exact absurd h20 (Nat.not_le.mpr h)
  · exact absurd hsize (Nat.not_le.mpr h)
  · exact absurd hmem (Nat.not_le.mpr h)
  · exact absurd (hsec.symm.trans h) (by simp)
  · cases hsec.symm.trans h
    exact he

/-- The next state of a creation from ARG1 whose checks pass, field by field. -/
theorem tableCreate_fields {sec : Secret} (h4 : 4 ≤ exp) (h20 : exp ≤ 20) (hitem : s.latch.arg1.toNat ≤ 0xFFFFFFE0)
    (hmem : (2 ^ exp + 2) * slotBytes s.latch.arg1.toNat ≤ s.env.memBytes)
    (hsec : z = false → s.env.entropyAnswer = some sec) :
    s.tableCreate exp s.latch.arg1.toNat z p = { s with
      phase := .idle, err := .ok, result := BitVec.ofNat 32 exp, grew := false, shrank := false, shrinkFail := false
      tstate := .ready, ref := .none, iterActive := false
      tab := { e := BitVec.ofNat 5 exp, occ := 0#32, itemSize := s.latch.arg1,
               slotSize := BitVec.ofNat 32 (slotBytes s.latch.arg1.toNat), disposer := p,
               secret := if z then 0#128 else sec, array := [], scratch := [] }
      env := if z then s.env else { s.env with entropy := s.env.entropy.tail, draws := s.env.draws + 1 } } := by
  have hsec' : s.newSecret z = some (if z then 0#128 else sec) := by
    cases z with
    | true => rfl
    | false => exact hsec rfl
  have harg : BitVec.ofNat 32 s.latch.arg1.toNat = s.latch.arg1 := by simp
  rw [tableCreate_of_checks h4 h20 hitem hmem hsec', newTable, harg]
  cases z <;> rfl

end

/-- Settles O16: the exponent is ARG0. -/
theorem initCreatesATable : Obligations.InitCreatesATable := by
  unfold Obligations.InitCreatesATable
  intro s z p sec hs h4 h20 hitem hmem hsec
  have harg : BitVec.ofNat 32 s.latch.arg0.toNat = s.latch.arg0 := by simp
  rw [execInit_without_table hs, tableCreate_fields h4 h20 hitem hmem hsec, harg]

/-- Settles O17: the exponent is the least one that holds ARG0 elements. -/
theorem initSizeCreatesTheLeastTable : Obligations.InitSizeCreatesTheLeastTable := by
  unfold Obligations.InitSizeCreatesTheLeastTable
  intro s z p sec e hs h4 h20 hfit hleast hitem hmem hsec
  have hexp : expForSize s.latch.arg0.toNat = some e := expForSize_eq_some_iff.mpr ⟨h4, h20, hfit, hleast⟩
  rw [execInitSize_without_table hs, hexp, Option.elim_some, tableCreate_fields h4 h20 hitem hmem hsec]

/-! ## A creation that fails (R250, R258) -/

/-- Both creation commands are one: without an exponent they fail, with one they create. -/
theorem exec_creation {s t : State} {i : Instr} {z p : Bool} {exp : Option Nat} (hs : s.tstate = .none)
    (hi : i = .init z p ∧ exp = some s.latch.arg0.toNat ∨ i = .initSize z p ∧ exp = expForSize s.latch.arg0.toNat)
    (ht : exec i s = .next t) :
    exp = none ∧ t = s.raise .capExp ∨ ∃ x, exp = some x ∧ t = s.tableCreate x s.latch.arg1.toNat z p := by
  rcases hi with ⟨rfl, rfl⟩ | ⟨rfl, rfl⟩
  · rw [execInit_without_table hs] at ht
    exact .inr ⟨_, rfl, next_inj ht⟩
  · rw [execInitSize_without_table hs] at ht
    cases hx : expForSize s.latch.arg0.toNat with
    | none =>
      rw [hx] at ht
      exact .inl ⟨rfl, next_inj ht⟩
    | some x =>
      rw [hx] at ht
      exact .inr ⟨x, rfl, next_inj ht⟩

/-- The paths of a creation, each with the check that decides it, in the order of R250. -/
theorem tableCreate_paths (s : State) (x item : Nat) (z p : Bool) :
    ((x < 4 ∨ x > 20) ∧ s.tableCreate x item z p = s.raise .capExp) ∨
    ((4 ≤ x ∧ x ≤ 20) ∧ item > 0xFFFFFFE0 ∧ s.tableCreate x item z p = s.raise .itemSize) ∨
    ((4 ≤ x ∧ x ≤ 20) ∧ item ≤ 0xFFFFFFE0 ∧ (2 ^ x + 2) * slotBytes item > s.env.memBytes ∧
      s.tableCreate x item z p = s.raise .alloc) ∨
    ((4 ≤ x ∧ x ≤ 20) ∧ item ≤ 0xFFFFFFE0 ∧ (2 ^ x + 2) * slotBytes item ≤ s.env.memBytes ∧
      (z = false ∧ s.env.entropyAnswer = none) ∧ s.tableCreate x item z p = (s.secretDrawn z).raise .entropy) ∨
    ((4 ≤ x ∧ x ≤ 20) ∧ item ≤ 0xFFFFFFE0 ∧ (2 ^ x + 2) * slotBytes item ≤ s.env.memBytes ∧
      ¬(z = false ∧ s.env.entropyAnswer = none) ∧ (s.tableCreate x item z p).err = .ok ∧
      (s.tableCreate x item z p).env = (s.secretDrawn z).env) := by
  have hsize := slotBytes_le_maxSlotSize_iff item
  rcases tableCreate_cases s x item z p with
    ⟨hx, he⟩ | ⟨h4, h20, ⟨h, he⟩ | ⟨hitem, ⟨hmem, he⟩ | ⟨hmem, ⟨hsec, he⟩ | ⟨sec, hsec, he⟩⟩⟩⟩
  · exact .inl ⟨hx, he⟩
  · exact .inr (.inl ⟨⟨h4, h20⟩, Nat.not_le.mp fun hle => absurd (hsize.mpr hle) (Nat.not_le.mpr h), he⟩)
  · exact .inr (.inr (.inl ⟨⟨h4, h20⟩, hsize.mp hitem, hmem, he⟩))
  · exact .inr (.inr (.inr (.inl ⟨⟨h4, h20⟩, hsize.mp hitem, hmem, (newSecret_eq_none_iff s z).mp hsec, he⟩)))
  · refine .inr (.inr (.inr (.inr ⟨⟨h4, h20⟩, hsize.mp hitem, hmem, fun hn => ?_, ?_⟩)))
    · exact absurd (hsec.symm.trans ((newSecret_eq_none_iff s z).mpr hn)) (by simp)
    · rw [he]
      exact ⟨rfl, rfl⟩

/-- Settles O18: the exponent is missing, or the creation ends on one of its paths; each path's conditions decide the
checks before it. -/
theorem failedCreationChangesNothing : Obligations.FailedCreationChangesNothing := by
  unfold Obligations.FailedCreationChangesNothing
  intro s t i z p exp hs hi ht
  rcases exec_creation hs hi ht with ⟨rfl, rfl⟩ | ⟨x, rfl, rfl⟩
  · exact ⟨fun _ => rfl, .inl rfl, by simp⟩
  simp only [Option.some.injEq, exists_eq_left', reduceCtorEq, false_or]
  rcases tableCreate_paths s x s.latch.arg1.toNat z p with
    ⟨hx, he⟩ | ⟨hx, hitem, he⟩ | ⟨hx, hitem, hmem, he⟩ | ⟨hx, hitem, hmem, hsec, he⟩ |
      ⟨hx, hitem, hmem, hsec, herr, henv⟩
  · rw [he, State.raise_err]
    exact ⟨fun _ => rfl, .inl rfl, by grind⟩
  · rw [he, State.raise_err]
    exact ⟨fun _ => rfl, .inl rfl, by grind⟩
  · rw [he, State.raise_err]
    exact ⟨fun _ => rfl, .inl rfl, by grind⟩
  · rw [he, State.raise_err]
    exact ⟨fun _ => (by rw [hsec.1]; rfl), .inr (by rw [hsec.1]; rfl), by grind⟩
  · rw [herr, henv]
    refine ⟨fun h => absurd rfl h, ?_, by grind⟩
    cases z
    exacts [.inr rfl, .inl rfl]

/-! ## The queries (R260, R262) -/

/-- A metadata word is the packing of its slot's fields. -/
theorem slotMeta_eq_pack (t : Table) (i : Nat) :
    slotMeta t.geometry t.array i = pack (t.slot i).taken (t.slot i).psl.toNat (t.slot i).th.toNat :=
  (pack_fields _).symm

section
variable {s : State}

theorem execLen_of_ready (hs : s.tstate = .ready) : exec .len s = .next (s.finish s.tab.occ) := by
  simp [exec, execLen, hs]

theorem execPeek_of_lt (hs : s.tstate = .ready) (h : s.latch.arg0.toNat < s.tab.cap) :
    exec .peek s = .next (s.finish (slotMeta s.tab.geometry s.tab.array s.latch.arg0.toNat)) := by
  simp [exec, execPeek, hs, h]

theorem execPeek_of_ge (hs : s.tstate = .ready) (h : s.tab.cap ≤ s.latch.arg0.toNat) :
    exec .peek s = .next (s.raise .range) := by
  simp [exec, execPeek, hs, h]

end

/-- Settles O26, by whether ARG0 names a slot. -/
theorem lenAndPeekOnlyReport : Obligations.LenAndPeekOnlyReport := by
  unfold Obligations.LenAndPeekOnlyReport
  refine fun s hs => ⟨execLen_of_ready hs, fun hlt => ?_, fun hge => execPeek_of_ge hs hge⟩
  rw [execPeek_of_lt hs hlt, slotMeta_eq_pack]
  rfl

/-! ## The lowest taken slot (R265, R270) -/

section
variable {t : Table} {lo j : Nat}

theorem firstTaken_eq_some (hlo : lo ≤ j) (hj : j < 2 ^ t.e.toNat) (ht : (t.slot j).taken = true)
    (hleast : ∀ l, lo ≤ l → l < j → (t.slot l).taken = false) : t.firstTaken lo = some j := by
  rcases firstTaken_cases t lo with ⟨k, hk, hlok, _, htk, hleastk⟩ | ⟨_, hnone⟩
  · rcases Nat.lt_trichotomy k j with hlt | rfl | hlt
    · exact absurd htk (by simp [hleast k hlok hlt])
    · exact hk
    · exact absurd ht (by simp [hleastk j hlo hlt])
  · exact absurd ht (by simp [hnone j hlo hj])

theorem firstTaken_eq_none (h : ∀ l, lo ≤ l → l < 2 ^ t.e.toNat → (t.slot l).taken = false) :
    t.firstTaken lo = none := by
  rcases firstTaken_cases t lo with ⟨k, _, hlok, hk, htk, _⟩ | ⟨hnone, _⟩
  · exact absurd htk (by simp [h k hlok hk])
  · exact hnone

end

/-! ## FREE and DISPOSE_ACK (R265, R270, R272) -/

section
variable {s : State} {j : Nat}

theorem execFree_of_nothing_to_dispose (hs : s.tstate = .ready) (h : s.tab.disposer = false ∨ s.tab.occ.toNat = 0) :
    exec .free s = .next (s.release.finish 0#32) := by
  have hno : ¬(s.tab.disposer = true ∧ s.tab.occ.toNat > 0) := by
    rintro ⟨hd, hocc⟩
    rcases h with h | h
    · simp [hd] at h
    · omega
  simp only [exec, execFree, hs, ne_eq, not_true_eq_false, if_false, if_neg hno]

theorem execFree_of_firstTaken (hs : s.tstate = .ready) (hd : s.tab.disposer = true) (hocc : s.tab.occ.toNat > 0)
    (hj : s.tab.firstTaken 0 = some j) : exec .free s =
      .next ({ s with iterActive := false, disp := j, tstate := .disposing, ref := .slot j }.finish s.tab.occ) := by
  simp [exec, execFree, hs, hd, hocc, hj]

theorem execDisposeAck_of_firstTaken (hs : s.tstate = .disposing) (hj : s.tab.firstTaken (s.disp + 1) = some j) :
    exec .disposeAck s =
      .next ({ s with disp := j, ref := .slot j }.finish (BitVec.ofNat 32 (s.tab.takenCount j))) := by
  simp [exec, execDisposeAck, hs, hj]

theorem execDisposeAck_of_none (hs : s.tstate = .disposing) (hn : s.tab.firstTaken (s.disp + 1) = none) :
    exec .disposeAck s = .next (s.release.finish 0#32) := by
  simp [exec, execDisposeAck, hs, hn]

end

/-- Settles O28: the slot presented is the one the search from 0 finds. -/
theorem freeReleasesOrStartsDisposal : Obligations.FreeReleasesOrStartsDisposal := by
  unfold Obligations.FreeReleasesOrStartsDisposal
  refine fun s hs => ⟨fun h => execFree_of_nothing_to_dispose hs h, fun j hd hocc hj ht hleast => ?_⟩
  exact execFree_of_firstTaken hs hd hocc (firstTaken_eq_some (Nat.zero_le j) hj ht fun l _ => hleast l)

/-- Settles O29, by what the search past the dispose cursor finds. -/
theorem disposeAckPresentsTheNextOrReleases : Obligations.DisposeAckPresentsTheNextOrReleases := by
  unfold Obligations.DisposeAckPresentsTheNextOrReleases
  exact fun s hs => ⟨fun j hlt hj ht hleast => execDisposeAck_of_firstTaken hs (firstTaken_eq_some hlt hj ht hleast),
    fun hnone => execDisposeAck_of_none hs (firstTaken_eq_none hnone)⟩

/-! ## The count of taken slots from an index on (R270) -/

theorem countTaken_eq_zero {g : Geometry} {m : Memory} {n i : Nat}
    (h : ∀ l, i ≤ l → l < i + n → (getSlot g m l).taken = false) : countTaken g m n i = 0 := by
  induction n generalizing i with
  | zero => rfl
  | succ n ih =>
    rw [countTaken, h i le_rfl (by omega), ih fun l hl hlt => h l (by omega) (by omega)]
    rfl

theorem countTaken_le (g : Geometry) (m : Memory) (n i : Nat) : countTaken g m n i ≤ n := by
  induction n generalizing i with
  | zero => exact le_rfl
  | succ n ih =>
    have := ih (i + 1)
    rw [countTaken]
    split_ifs <;> omega

section
variable {t : Table} {lo j : Nat}

/-- A run without taken slots adds nothing to the count. -/
theorem takenCount_skip (hlo : lo ≤ j) (hj : j ≤ t.cap) (h : ∀ l, lo ≤ l → l < j → (t.slot l).taken = false) :
    t.takenCount lo = t.takenCount j := by
  have hcut : t.cap - lo = (j - lo) + (t.cap - j) := by omega
  have hrun : countTaken t.geometry t.array (j - lo) lo = 0 := countTaken_eq_zero fun l hl hlt => h l hl (by omega)
  rw [Table.takenCount, hcut, countTaken_add, hrun, Nat.zero_add, Nat.add_sub_cancel' hlo, Table.takenCount]

/-- A taken slot counts once. -/
theorem takenCount_of_takenAt (h : t.takenAt j) : t.takenCount j = t.takenCount (j + 1) + 1 := by
  obtain ⟨hlt, htaken⟩ := h
  have hcut : t.cap - j = (t.cap - (j + 1)) + 1 := by omega
  rw [Table.takenCount, hcut, countTaken, if_pos (show (getSlot _ _ _).taken = true from htaken), Nat.add_comm,
    Table.takenCount]

theorem takenCount_of_firstTaken_none (h : t.firstTaken lo = none) : t.takenCount lo = 0 := by
  rcases firstTaken_cases t lo with ⟨j, hj, _⟩ | ⟨_, hnone⟩
  · exact absurd (h.symm.trans hj) (by simp)
  · exact countTaken_eq_zero fun l hl hlt => hnone l hl (by omega)

theorem takenCount_of_firstTaken (h : t.firstTaken lo = some j) : lo ≤ j ∧ t.takenCount j = t.takenCount lo := by
  rcases firstTaken_cases t lo with ⟨k, hk, hlo, hlt, _, hleast⟩ | ⟨hn, _⟩
  · cases h.symm.trans hk
    exact ⟨hlo, (takenCount_skip hlo hlt.le hleast).symm⟩
  · exact absurd (h.symm.trans hn) (by simp)

/-- The count fits RESULT, for the exponent has 5 bits. -/
theorem takenCount_lt (t : Table) (lo : Nat) : t.takenCount lo < 2 ^ 32 := by
  have hcount : t.takenCount lo ≤ t.cap - lo := countTaken_le _ _ _ _
  have hcap : t.cap ≤ 2 ^ 31 := Nat.pow_le_pow_right (by decide) (Nat.le_of_lt_succ t.e.isLt)
  omega

end

/-- Settles O30: the slot of the cursor is counted once, and none is taken between it and the slot presented next. -/
theorem eachAcknowledgementCountsDown : Obligations.EachAcknowledgementCountsDown := by
  unfold Obligations.EachAcknowledgementCountsDown
  intro s n hs hcursor hcount
  have hrest : s.tab.takenCount (s.disp + 1) = n :=
    Nat.succ_injective ((takenCount_of_takenAt hcursor).symm.trans hcount)
  cases hfirst : s.tab.firstTaken (s.disp + 1) with
  | none =>
    have hn : n = 0 := hrest.symm.trans (takenCount_of_firstTaken_none hfirst)
    exact ⟨_, execDisposeAck_of_none hs hfirst, hn.symm, fun _ => ⟨rfl, rfl⟩, fun hpos => by omega⟩
  | some j =>
    obtain ⟨hlt, hj⟩ := takenCount_of_firstTaken hfirst
    have htaken := takenAt_of_firstTaken hfirst
    have hcountj : s.tab.takenCount j = n := hj.trans hrest
    have hpos : 0 < n := by rw [← hcountj, takenCount_of_takenAt htaken]; exact Nat.succ_pos _
    have hresult : (BitVec.ofNat 32 (s.tab.takenCount j)).toNat = n := by
      rw [BitVec.toNat_ofNat, Nat.mod_eq_of_lt (takenCount_lt _ _), hcountj]
    exact ⟨_, execDisposeAck_of_firstTaken hs hfirst, hresult, fun h => absurd h hpos.ne',
      fun _ => ⟨hs, rfl, hlt, rfl, htaken, hcountj⟩⟩

end Sys2Proof.Machine
end

section
/-! SUPPORT. The key operand (spec/43_map_commands.md R298, spec/40_metadata_codec.md R169): the bytes of a key's normal
form, and the three answers of GetKey. -/

namespace Sys2Proof.Machine

/-- The digits of a byte string's number are its bytes, and 0 past its end. -/
theorem leValue_byte (bs : List Byte) (j : Nat) : leValue bs / 256 ^ j % 256 = (bs.getD j 0#8).toNat := by
  induction bs generalizing j with
  | nil => simp [leValue]
  | cons b bs ih =>
    have hb := b.isLt
    cases j with
    | zero =>
      simp only [leValue, pow_zero, Nat.div_one, List.getD_cons_zero]
      omega
    | succ j =>
      have hrest : (b.toNat + 256 * leValue bs) / 256 = leValue bs := by omega
      rw [leValue, pow_succ', ← Nat.div_div_eq_div_mul, hrest, ih, List.getD_cons_succ]

theorem keyByte_toNat (key : KeyBuf) (j : Nat) : (keyByte key j).toNat = key.toNat / 256 ^ j % 256 := by
  rw [keyByte, BitVec.extractLsb'_toNat, Nat.shiftRight_eq_div_pow, two_pow_eight_mul]

/-- The normal form is the key's bytes and then zeros (R169). -/
theorem keyByte_normalKey {k : List Byte} (hk : k.length ≤ 20) (j : Nat) :
    keyByte (normalKey k) j = k.getD j 0#8 := by
  have hlt : leValue k < 2 ^ 160 := (leValue_lt k).trans_le ((Nat.pow_le_pow_right (by decide) hk).trans (by decide))
  apply BitVec.eq_of_toNat_eq
  rw [keyByte_toNat, normalKey, BitVec.toNat_ofNat, Nat.mod_eq_of_lt hlt, leValue_byte]

theorem keyPrefix_getD (key : KeyBuf) (len j : Nat) :
    (keyPrefix key len).getD j 0#8 = if j < len then keyByte key j else 0#8 := by
  split_ifs with h <;> simp [keyPrefix, List.getD_eq_getElem?_getD, h]

theorem zero_mem_keyPrefix_iff (key : KeyBuf) (len : Nat) :
    0#8 ∈ keyPrefix key len ↔ ∃ j, j < len ∧ keyByte key j = 0#8 := by
  simp only [keyPrefix, List.mem_map, List.mem_range]

/-- Settles O19, from the three answers of GetKey: which one it is, the length and the key's bytes decide. -/
theorem keyOperandIsChecked : Obligations.KeyOperandIsChecked := by
  unfold Obligations.KeyOperandIsChecked
  intro s
  refine ⟨rfl, fun hbad => ?_, fun hpos hmax hne => ?_⟩
  · rcases getKey_cases s true with ⟨hk, _⟩ | ⟨_, _, he⟩ | ⟨_, hpos, hmax, hzero, _⟩
    · cases hk
    · exact he
    · rw [zero_mem_keyPrefix_iff] at hzero
      rcases hbad with hempty | hlong | hbyte
      · omega
      · exact absurd hmax (Nat.not_le.mpr hlong)
      · exact absurd hbyte hzero
  · rcases getKey_cases s true with ⟨hk, _⟩ | ⟨_, hbad, _⟩ | ⟨_, _, _, _, he⟩
    · cases hk
    · rw [zero_mem_keyPrefix_iff] at hbad
      rcases hbad with hempty | hlong | ⟨j, hj, hbyte⟩
      · omega
      · exact absurd hmax (Nat.not_le.mpr hlong)
      · exact absurd hbyte (hne j hj)
    · refine ⟨_, he, fun j _ => ?_, rfl⟩
      rw [keyByte_normalKey (by rw [keyPrefix_length]; omega), keyPrefix_getD]

end Sys2Proof.Machine
end

section
/-! SUPPORT. The map commands on a READY table (spec/43_map_commands.md R298 to R325), one equation per outcome. -/

namespace Sys2Proof.Machine

/-! ## The outcomes of GET and REMOVE, and the operand errors -/

section
variable {s : State} {k : Bool} {c : ErrCode} {key : KeyOperand} {i : Nat}

theorem execInsert_of_keyError (hs : s.tstate = .ready) (hk : s.getKey k = .error c) (d : Bool) :
    exec (.insert k d) s = .next (s.endReferences.raise c) := by
  simp [exec, execInsert, hs, hk]

theorem execInsert_of_noData (hs : s.tstate = .ready) (hk : s.getKey k = .ok key) :
    exec (.insert k false) s = .next (s.endReferences.raise .dataAbsent) := by
  simp [exec, execInsert, hs, hk]

theorem execGet_of_keyError (hs : s.tstate = .ready) (hk : s.getKey k = .error c) :
    exec (.get k) s = .next ({ s with ref := .none }.raise c) := by
  simp [exec, execGet, hs, hk]

theorem execGet_of_absent (hs : s.tstate = .ready) (hk : s.getKey true = .ok key)
    (hf : findSlot s.tab.geometry s.tab.e.toNat s.tab.array key = none) :
    exec (.get true) s = .next ({ s with ref := .none }.raise .notFound) := by
  simp [exec, execGet, hs, hk, hf]

theorem execGet_of_found (hs : s.tstate = .ready) (hk : s.getKey true = .ok key)
    (hf : findSlot s.tab.geometry s.tab.e.toNat s.tab.array key = some i) :
    exec (.get true) s = .next ({ s with ref := .slot i }.finish (BitVec.ofNat 32 i)) := by
  simp [exec, execGet, hs, hk, hf]

theorem execRemove_of_keyError (hs : s.tstate = .ready) (hk : s.getKey k = .error c) :
    exec (.remove k) s = .next (s.endReferences.raise c) := by
  simp [exec, execRemove, hs, hk]

theorem execRemove_of_absent (hs : s.tstate = .ready) (hk : s.getKey true = .ok key)
    (hf : findSlot s.tab.geometry s.tab.e.toNat s.tab.array key = none) :
    exec (.remove true) s = .next (s.endReferences.raise .notFound) := by
  simp [exec, execRemove, hs, hk, hf]

/-- What REMOVE leaves once the shrink arbiter has answered `r` (R320). -/
def State.afterRemoval (s : State) (i : Nat) (r : ShrinkResult) : State :=
  { s.endReferences with tab := r.table, ref := .removed }.complete
    { result := removeResult i r.code, shrank := r.shrank, shrinkFail := r.failed }

theorem execRemove_of_found (hs : s.tstate = .ready) (hk : s.getKey true = .ok key)
    (hf : findSlot s.tab.geometry s.tab.e.toNat s.tab.array key = some i) :
    exec (.remove true) s = .next (s.afterRemoval i ((s.tab.removeAt i).shrinkArbiter s.env.memBytes)) := by
  simp [exec, execRemove, hs, hk, hf, State.afterRemoval]

end

/-! ## REMOVE's RESULT (R320): the error of the shrink in bits 31:24 -/

theorem removeResult_ok (i : Nat) : removeResult i .ok = BitVec.ofNat 32 i := BitVec.or_zero

theorem removeResult_resizeAlloc (i : Nat) : removeResult i .resizeAlloc = BitVec.ofNat 32 i ||| 0x0C000000#32 :=
  congrArg (BitVec.ofNat 32 i ||| ·) (by decide)

theorem removeResult_resizePsl (i : Nat) : removeResult i .resizePsl = BitVec.ofNat 32 i ||| 0x0D000000#32 :=
  congrArg (BitVec.ofNat 32 i ||| ·) (by decide)

/-! ## What the commands do, outcome by outcome -/

/-- Settles O21: each of the three commands checks its operands first. -/
theorem operandErrorsComeBeforeAnyMutation : Obligations.OperandErrorsComeBeforeAnyMutation := by
  unfold Obligations.OperandErrorsComeBeforeAnyMutation
  intro s hs
  exact ⟨fun k c hk => ⟨execInsert_of_keyError hs hk, execGet_of_keyError hs hk, execRemove_of_keyError hs hk⟩,
    fun k key hk => execInsert_of_noData hs hk⟩

/-- Settles O22: below the threshold the grow arbiter proceeds with the table as it is, and the walk decides. -/
theorem insertPlacesOrReplaces : Obligations.InsertPlacesOrReplaces := by
  unfold Obligations.InsertPlacesOrReplaces
  intro s key b hs hk hload
  have hfew : growNeeded s.tab.occ.toNat s.tab.e.toNat = false :=
    Bool.eq_false_iff.mpr fun h => absurd ((growNeeded_iff _ _).mp h) (Nat.not_le.mpr hload)
  have hproceed : s.tab.growArbiter s.env.memBytes = .proceed s.tab false := by
    rcases growArbiter_cases s.tab s.env.memBytes with ⟨_, h⟩ | ⟨h, _⟩
    · exact h
    · rw [hfew] at h
      cases h
  rw [execInsert_of_proceed hs hk hproceed]
  refine ⟨fun hw => ?_, fun hw => ?_, fun hw => ?_⟩ <;> simp only [State.insertInto, hw] <;> rfl

/-- Settles O24: GET answers what the lookup walk answers. -/
theorem getFindsOrReportsNotFound : Obligations.GetFindsOrReportsNotFound := by
  unfold Obligations.GetFindsOrReportsNotFound
  intro s key hs hk
  exact ⟨fun i hf => execGet_of_found hs hk hf, execGet_of_absent hs hk⟩

/-- Settles O25, from the answers of the shrink arbiter on the table with the entry taken out. -/
theorem removeRemovesThenShrinks : Obligations.RemoveRemovesThenShrinks := by
  unfold Obligations.RemoveRemovesThenShrinks
  intro s key hs hk
  refine ⟨execRemove_of_absent hs hk, fun i u hf hu => ?_⟩
  obtain rfl : s.tab.removeAt i = u := hu.symm
  rw [execRemove_of_found hs hk hf, ← sparse_iff]
  rcases shrinkArbiter_cases (s.tab.removeAt i) s.env.memBytes with ⟨hno, ha⟩ | ⟨hyes, hr⟩
  · refine ⟨fun _ => ?_, fun h => absurd h hno⟩
    rw [ha, State.afterRemoval, removeResult_ok]
    rfl
  · refine ⟨fun h => absurd hyes h, fun _ => ?_⟩
    rcases hr with ⟨g, hr, ha⟩ | ⟨hr, ha⟩ | ⟨hr, ha⟩ <;> rw [hr, ha, State.afterRemoval]
    · rw [removeResult_ok]
      rfl
    · rw [removeResult_resizeAlloc]
      rfl
    · rw [removeResult_resizePsl]
      rfl

end Sys2Proof.Machine
end

section
/-! SUPPORT. The map commands as operations on the map that a table stands for (spec/43_map_commands.md R300 to
R330). -/

namespace Sys2Proof.Machine

/-! ## The map after an operation -/

section
variable {t u : Table} {v : Env}

/-- The item a table holds for a key is that of the slot the lookup walk finds. -/
theorem Table.lookup_of_findSlot {k : KeyOperand} {i : Nat} (hf : findSlot t.geometry t.e.toNat t.array k = some i) :
    t.lookup k = some (t.slot i).item := by
  rw [Table.lookup, hf, Option.map_some]

/-- Good tables agree on a key when their arrays hold the same entries of that key. -/
theorem lookup_congr_of_key (ht : t.Inv v) (hu : u.Inv v) {k : KeyOperand} (h : ∀ x : Candidate, x.key = k.key →
    (Holds u.geometry u.e.toNat u.array x ↔ Holds t.geometry t.e.toNat t.array x)) : u.lookup k = t.lookup k :=
  Option.ext fun m => by rw [hu.lookup_eq_some_iff, ht.lookup_eq_some_iff, h _ rfl]

/-- In a good table a key operand is mapped as soon as an entry has its key, for by INV5 the truncated hash agrees. -/
theorem Table.Inv.lookup_ne_none (h : t.Inv v) {k : KeyOperand} (hk : HashEntry v t.secret k.th k.key) {x : Candidate}
    (hx : Holds t.geometry t.e.toNat t.array x) (hkey : x.key = k.key) : t.lookup k ≠ none := by
  obtain ⟨i, hi, ht, rfl⟩ := hx
  have hth : (getSlot t.geometry t.array i).th = k.th :=
    HashEntry.th_unique _ _ _ (hkey ▸ h.arrayGood.entry i hi ht) hk
  have hsome := (h.lookup_eq_some_iff k (getSlot t.geometry t.array i).item).mpr
    ⟨i, hi, ht, by rw [← hth, ← hkey]; rfl⟩
  rw [hsome]
  simp

/-- The grow arbiter keeps the map, the count, the secret and STAGE, whether it resizes or not. -/
theorem Table.Inv.grow_keeps (h : t.Inv v) {grew : Bool} (hg : t.growArbiter v.memBytes = .proceed u grew) :
    (∀ k, u.lookup k = t.lookup k) ∧ u.occ = t.occ ∧ u.secret = t.secret ∧ u.stage = t.stage := by
  have hinv := (h.grow hg).1
  obtain ⟨hmin, hmax, hlt⟩ := h.bounds
  rcases growArbiter_proceed hg with ⟨_, rfl⟩ | ⟨hm, hr⟩
  · exact ⟨fun _ => rfl, rfl, rfl, rfl⟩
  · obtain ⟨hgeom, hocc, hsecret, hscratch, _⟩ := resize_frame hr
    have hroom : t.occ.toNat < 2 ^ (t.e.toNat + 1) := hlt.trans (Nat.pow_lt_pow_right (by decide) (Nat.lt_succ_self _))
    have h20 : t.e.toNat + 1 ≤ 20 := Nat.lt_of_le_of_ne hmax hm
    refine ⟨lookup_congr h hinv (h.holds_resize (Nat.le_succ_of_le hmin) h20 hroom hr), hocc, hsecret, ?_⟩
    rw [Table.stage, Table.stage, hgeom, hscratch]

/-- The shrink arbiter keeps the map, the count and REMOVED, whether it resizes or not. -/
theorem Table.Inv.shrink_keeps (h : t.Inv v) :
    (∀ k, (t.shrinkArbiter v.memBytes).table.lookup k = t.lookup k) ∧
      (t.shrinkArbiter v.memBytes).table.occ = t.occ ∧
      (t.shrinkArbiter v.memBytes).table.removedKey = t.removedKey ∧
      (t.shrinkArbiter v.memBytes).table.removedItem = t.removedItem := by
  obtain ⟨hmin, hmax, hlt⟩ := h.bounds
  obtain ⟨h1, h2, h3⟩ := shrinkExp_bounds (occ := t.occ.toNat) hmin
  rcases shrinkArbiter_table t v.memBytes with he | hr
  · rw [he]
    exact ⟨fun _ => rfl, rfl, rfl, rfl⟩
  · obtain ⟨hgeom, hocc, _, hscratch, _⟩ := resize_frame hr
    refine ⟨lookup_congr h h.shrink (h.holds_resize h1 (h2.trans hmax) (h3 hlt) hr), hocc, ?_, ?_⟩
    · rw [Table.removedKey, Table.removedKey, hgeom, hscratch]
    · rw [Table.removedItem, Table.removedItem, hgeom, hscratch]

/-- A good table's count has room for one more in its field (INV1). -/
theorem Table.Inv.occ_succ (h : t.Inv v) : (t.occ + 1#32).toNat = t.occ.toNat + 1 := by
  obtain ⟨_, hmax, hlt⟩ := h.bounds
  have hcap : t.cap ≤ 2 ^ 20 := Nat.pow_le_pow_right (by decide) hmax
  rw [BitVec.toNat_add]
  simp only [BitVec.toNat_ofNat]
  omega

/-- The grow arbiter fails with an error of its own (spec/41_probe_engine.md R216). -/
theorem growArbiter_fail_ne_ok {memBytes : Nat} {c : ErrCode} (h : t.growArbiter memBytes = .fail c) : c ≠ .ok := by
  rcases growArbiter_cases t memBytes with ⟨_, he⟩ | ⟨_, ⟨_, he⟩ | ⟨_, ⟨w, _, he⟩ | ⟨_, he⟩ | ⟨_, he⟩⟩⟩ <;>
    rw [he] at h <;> cases h <;> decide

/-- The map with a new key (R300): the walk that placed it met no entry of that key. -/
theorem Table.Inv.lookup_place (h : t.Inv v) (hroom : t.occ.toNat + 1 < t.cap) {key : KeyOperand}
    (hk : HashEntry v t.secret key.th key.key) {b : Memory}
    (hw : insertWalk t.geometry t.e.toNat t.array ⟨key.th, key.key, t.stage⟩ = .placed b) :
    t.lookup key = none ∧ Table.lookup { t with array := b, occ := t.occ + 1#32 } key = some t.stage ∧
      ∀ k, k.key ≠ key.key → Table.lookup { t with array := b, occ := t.occ + 1#32 } k = t.lookup k := by
  have hu := h.place hroom hk hw
  have hp := (h.walkKeeps hk).placed b hw
  refine ⟨Option.eq_none_iff_forall_ne_some.mpr fun m hm => ?_, ?_, fun k hne => ?_⟩
  · exact hp.fresh _ ((h.lookup_eq_some_iff key m).mp hm) rfl
  · exact (hu.lookup_eq_some_iff key t.stage).mpr ((hp.holds _).mpr (.inr rfl))
  · refine lookup_congr_of_key h hu fun x hx => (hp.holds x).trans (or_iff_left ?_)
    rintro rfl
    exact hne hx.symm

/-- The map with a new item for a key that it has (R304). -/
theorem Table.Inv.lookup_replace (h : t.Inv v) {key : KeyOperand} (hk : HashEntry v t.secret key.th key.key)
    {b : Memory} (hw : insertWalk t.geometry t.e.toNat t.array ⟨key.th, key.key, t.stage⟩ = .replaced b) :
    t.lookup key ≠ none ∧ Table.lookup { t with array := b } key = some t.stage ∧
      ∀ k, k.key ≠ key.key → Table.lookup { t with array := b } k = t.lookup k := by
  have hu := h.replace hk hw
  have hp := (h.walkKeeps hk).replaced b hw
  obtain ⟨x, hx, hkey⟩ := hp.found
  refine ⟨h.lookup_ne_none hk hx hkey, ?_, fun k hne => ?_⟩
  · exact (hu.lookup_eq_some_iff key t.stage).mpr ((hp.holds _).mpr (.inr rfl))
  · refine lookup_congr_of_key h hu fun x hx => (hp.holds x).trans ?_
    constructor
    · rintro (⟨hold, _⟩ | rfl)
      · exact hold
      · exact absurd hx.symm hne
    · exact fun hold => .inl ⟨hold, hx ▸ hne⟩

/-- The map without the key of a taken slot, and the count one lower (R320). -/
theorem Table.Inv.lookup_removeAt (h : t.Inv v) {i : Nat} (hi : t.takenAt i) :
    (∀ k, k.key = (t.slot i).key → (t.removeAt i).lookup k = none) ∧
      (∀ k, k.key ≠ (t.slot i).key → (t.removeAt i).lookup k = t.lookup k) ∧
      (t.removeAt i).occ.toNat + 1 = t.occ.toNat := by
  have hu := h.removeAt hi
  obtain ⟨hlt, ht⟩ := hi
  obtain ⟨_, hholds, hcount⟩ :=
    backwardShift_keeps_good h.shaped.fits h.shaped.one_le_e h.arrayGood hlt ht h.exists_empty
  refine ⟨fun k hk => Option.eq_none_iff_forall_ne_some.mpr fun m hm => ?_, fun k hne => ?_, ?_⟩
  · exact ((hholds _).mp ((hu.lookup_eq_some_iff k m).mp hm)).2 hk
  · exact lookup_congr_of_key h hu fun x hx => (hholds x).trans (and_iff_left (hx ▸ hne))
  · rw [hu.counted, h.counted]
    exact hcount

/-- The entry of slot `i` stands in REMOVED (R320). -/
theorem removed_removeAt (h : t.Shaped v) (i : Nat) :
    (t.removeAt i).removedKey = (t.slot i).key ∧ (t.removeAt i).removedItem = (t.slot i).item := by
  have hkey : (putKey t.geometry t.scratch removedSlot (t.slot i).key).wf = true := wf_putKey h.stored.2.1 _ _ _
  have hsane := getSlot_sane h.stored.1 t.geometry i
  refine ⟨?_, Memory.extract_blit hkey _ _ hsane.wf hsane.inside⟩
  have hread : (t.removeAt i).scratch.readLE (t.geometry.keyBase removedSlot) Config.keyBytes =
      (putKey t.geometry t.scratch removedSlot (t.slot i).key).readLE (t.geometry.keyBase removedSlot)
        Config.keyBytes := by
    refine Memory.readLE_eq_of_read fun y _ hy => ?_
    show (putItem _ _ _ _).read y = _
    rw [putItem, Memory.read_blit hkey, if_neg]
    exact fun hle => absurd hy (Nat.not_lt.mpr hle.1)
  show BitVec.ofNat 160 ((t.removeAt i).scratch.readLE (t.geometry.keyBase removedSlot) Config.keyBytes) = _
  have hlt : (t.slot i).key.toNat < 256 ^ Config.keyBytes := (t.slot i).key.isLt
  rw [hread, putKey, Memory.readLE_writeLE h.stored.2.1, Nat.mod_eq_of_lt hlt, BitVec.ofNat_toNat, BitVec.setWidth_eq]

end

/-! ## INSERT -/

/-- What the walk and the commit of INSERT do to the map of a good table with room (R300, R303, R304). -/
theorem insertInto_updates {s t : State} {u : Table} {v : Env} (h : u.Inv v) (hroom : u.occ.toNat + 1 < u.cap)
    {key : KeyOperand} (hk : HashEntry v u.secret key.th key.key) {grew : Bool} (ht : t = s.insertInto u grew key) :
    (t.err = .ok → t.tab.lookup key = some u.stage ∧
      (t.result = 1#32 ∧ u.lookup key = none ∧ t.tab.occ.toNat = u.occ.toNat + 1 ∨
        t.result = 2#32 ∧ u.lookup key ≠ none ∧ t.tab.occ = u.occ) ∧
      ∀ k, k.key ≠ key.key → t.tab.lookup k = u.lookup k) ∧
    (t.err ≠ .ok → t.tab = u) := by
  rcases insertInto_cases s u grew key with ⟨b, hw, he⟩ | ⟨b, hw, he⟩ | ⟨_, he⟩ <;> rw [ht, he]
  · obtain ⟨hnone, hsome, hother⟩ := h.lookup_place hroom hk hw
    exact ⟨fun _ => ⟨hsome, .inl ⟨rfl, hnone, h.occ_succ⟩, hother⟩, fun hne => absurd rfl hne⟩
  · obtain ⟨hfound, hsome, hother⟩ := h.lookup_replace hk hw
    exact ⟨fun _ => ⟨hsome, .inr ⟨rfl, hfound, rfl⟩, hother⟩, fun hne => absurd rfl hne⟩
  · exact ⟨fun hok => (by cases hok), fun _ => rfl⟩

/-- Settles O58: a pre-check that fails leaves the table, one that proceeds leaves the map, and the walk does the
rest. -/
theorem insertUpdatesTheMap : Obligations.InsertUpdatesTheMap := by
  unfold Obligations.InsertUpdatesTheMap
  intro s t key hinv hs hk hexec
  have htab := hinv.table (by rw [hs]; decide)
  cases hg : s.tab.growArbiter s.env.memBytes with
  | fail c =>
    rw [execInsert_of_fail hs hk hg] at hexec
    rw [next_inj hexec]
    exact ⟨fun hok => absurd hok (growArbiter_fail_ne_ok hg), fun _ _ => rfl⟩
  | proceed u grew =>
    obtain ⟨hlookup, hocc, hsecret, hstage⟩ := htab.grow_keeps hg
    obtain ⟨hu, hroom⟩ := htab.grow hg
    rw [execInsert_of_proceed hs hk hg] at hexec
    obtain ⟨hok, hfail⟩ := insertInto_updates hu hroom (hsecret ▸ hashEntry_of_getKey hk) (next_inj hexec)
    simp only [hlookup, hocc, hstage] at hok
    exact ⟨hok, fun hne k => by rw [hfail hne, hlookup]⟩

/-! ## REMOVE -/

/-- Settles O59: the entry that the lookup walk found is taken out, and the shrink arbiter keeps the map. -/
theorem removeUpdatesTheMap : Obligations.RemoveUpdatesTheMap := by
  unfold Obligations.RemoveUpdatesTheMap
  intro s t key hinv hs hk hexec hok
  have htab := hinv.table (by rw [hs]; decide)
  cases hf : findSlot s.tab.geometry s.tab.e.toNat s.tab.array key with
  | none =>
    rw [execRemove_of_absent hs hk hf] at hexec
    rw [next_inj hexec] at hok
    cases hok
  | some i =>
    rw [execRemove_of_found hs hk hf] at hexec
    rw [next_inj hexec]
    have htaken := takenAt_of_findSlot hf
    obtain ⟨_, _, _, hkey⟩ := findSlot_some hf
    obtain ⟨hgone, hother, hcount⟩ := htab.lookup_removeAt htaken
    obtain ⟨hremkey, hremitem⟩ := removed_removeAt htab.shaped i
    obtain ⟨hlookup, hocc, hsamekey, hsameitem⟩ := (htab.removeAt htaken).shrink_keeps
    refine ⟨(hlookup key).trans (hgone key hkey.symm), ?_, ?_, hsamekey.trans (hremkey.trans hkey), rfl,
      fun k hne => (hlookup k).trans (hother k (hkey ▸ hne))⟩
    · rw [← hcount, ← hocc]
      rfl
    · rw [Table.lookup_of_findSlot hf, ← hremitem, ← hsameitem]
      rfl

/-! ## GET -/

/-- Reading the REF aperture while it shows a slot reads that slot's item (spec/20_memory.md R85, R87). -/
theorem readData_read_slot {s : State} {i : Nat} (hs : s.phase = .idle) (hr : s.ref = .slot i) {off : BitVec 32}
    {n : Nat} (hf : s.refuses .ref off n = false) :
    (s.access (.read .ref off n)).env.readData.toNat = ((s.tab.slot i).item).readLE off.toNat n % 2 ^ 32 := by
  obtain ⟨_, _, hinside⟩ := refuses_ref_iff.mp hf
  have hitem : ((s.tab.slot i).item).readLE off.toNat n =
      s.tab.array.readLE (i * s.tab.slotSize.toNat + 24 + off.toNat) n := Memory.readLE_extract _ hinside
  rw [access_read_slot hs hr hf, State.returns_env, hitem]
  exact BitVec.toNat_ofNat _ _

/-- Settles O60: the map has the key just when the lookup walk finds a slot, and that slot is the reference. -/
theorem getShowsTheMapsItem : Obligations.GetShowsTheMapsItem := by
  unfold Obligations.GetShowsTheMapsItem
  intro s t key hs hk hexec
  cases hf : findSlot s.tab.geometry s.tab.e.toNat s.tab.array key with
  | none =>
    have hlookup : s.tab.lookup key = none := by rw [Table.lookup, hf, Option.map_none]
    rw [execGet_of_absent hs hk hf] at hexec
    rw [next_inj hexec, hlookup]
    exact ⟨⟨fun h => (by cases h), fun h => absurd rfl h⟩, rfl, rfl, rfl, fun h => (by cases h)⟩
  | some i =>
    obtain ⟨_, _, _, hkey⟩ := findSlot_some hf
    rw [execGet_of_found hs hk hf] at hexec
    rw [next_inj hexec, Table.lookup_of_findSlot hf]
    exact ⟨⟨fun _ => by simp, fun _ => rfl⟩, rfl, rfl, rfl,
      fun _ => ⟨i, rfl, rfl, rfl, hkey, fun off n => readData_read_slot rfl rfl⟩⟩

end Sys2Proof.Machine
end

section
/-! SUPPORT. The iteration commands (spec/44_iteration_commands.md R350 to R354): what a presentation answers by what the
search for the next taken slot finds, and each command where the rules allow it. -/

namespace Sys2Proof.Machine

section
variable {s : State} {i : Instr} {lo j : Nat}

/-! ## A presentation (R350, R352) -/

theorem present_of_firstTaken (hj : s.tab.firstTaken lo = some j) :
    s.present lo = { s with iterActive := true, iterCursor := j, ref := .slot j }.finish 0#32 := by
  rcases present_cases s lo with ⟨k, hk, he⟩ | ⟨hn, _⟩
  · rwa [Option.some.inj (hj.symm.trans hk)]
  · rw [hn] at hj
    cases hj

theorem present_of_none (hn : s.tab.firstTaken lo = none) :
    s.present lo = { s with iterActive := false, ref := .none }.finish 1#32 := by
  rcases present_cases s lo with ⟨k, hk, _⟩ | ⟨_, he⟩
  · rw [hn] at hk
    cases hk
  · exact he

/-! ## The commands (R350, R352, R354) -/

theorem execIterStart_of_ready (hs : s.tstate = .ready) : exec .iterStart s = .next (s.present 0) := by
  simp [exec, execIterStart, hs]

theorem execIterNext_of_active (hs : s.tstate = .ready) (ha : s.iterActive = true) :
    exec .iterNext s = .next (s.present (s.iterCursor + 1)) := by
  simp [exec, execIterNext, hs, ha]

theorem execIterStop_of_active (hs : s.tstate = .ready) (ha : s.iterActive = true) :
    exec .iterStop s = .next ({ s with iterActive := false, ref := .none }.finish 0#32) := by
  simp [exec, execIterStop, hs, ha]

/-- ITER_START and ITER_NEXT are one presentation and differ only in the slot they search from. -/
theorem exec_eq_present (hs : s.tstate = .ready)
    (hi : i = .iterStart ∧ lo = 0 ∨ i = .iterNext ∧ s.iterActive = true ∧ lo = s.iterCursor + 1) :
    exec i s = .next (s.present lo) := by
  rcases hi with ⟨rfl, rfl⟩ | ⟨rfl, ha, rfl⟩
  · exact execIterStart_of_ready hs
  · exact execIterNext_of_active hs ha

end

/-- Settles O27: the presentation follows what the search for the lowest taken slot from `lo` on finds. -/
theorem iterationPresentsTheNextTakenSlot : Obligations.IterationPresentsTheNextTakenSlot := by
  unfold Obligations.IterationPresentsTheNextTakenSlot
  refine ⟨fun s i lo hs hi => ?_, fun s hs ha => execIterStop_of_active hs ha⟩
  rw [exec_eq_present hs hi]
  constructor
  · intro j hlo hj ht hleast
    rw [present_of_firstTaken (firstTaken_eq_some hlo hj ht hleast)]
    rfl
  · intro hnone
    rw [present_of_none (firstTaken_eq_none hnone)]
    rfl

end Sys2Proof.Machine
end

section
/-! SUPPORT. How commands end (spec/60_exceptions.md R401, R402): which table state allows which command, from which
state an error past that check is raised, and, for every command, that it succeeds, fails in one of the listed ways, or is
the FREE of log entry 13. -/

namespace Sys2Proof.Machine

/-! ## The state check (R401, step 2) -/

/-- The table state, and for ITER_NEXT and ITER_STOP the iteration, that a command asks for. -/
def State.admits (s : State) : Instr → Prop
  | .init _ _ | .initSize _ _ => s.tstate = .none
  | .iterNext | .iterStop => s.tstate = .ready ∧ s.iterActive = true
  | .disposeAck => s.tstate = .disposing
  | .insert _ _ | .get _ | .remove _ | .len | .iterStart | .free | .peek => s.tstate = .ready

theorem exec_of_not_admits {s : State} {i : Instr} (h : ¬ s.admits i) : exec i s = .next (s.raise .state) := by
  cases i with
  | init z p => exact if_pos h
  | initSize z p => exact if_pos h
  | insert k d => exact if_pos h
  | get k => exact if_pos h
  | remove k => exact if_pos h
  | len => exact if_pos h
  | iterStart => exact if_pos h
  | iterNext => exact if_pos ((not_and_or.mp h).imp_right (Bool.not_eq_true _).mp)
  | iterStop => exact if_pos ((not_and_or.mp h).imp_right (Bool.not_eq_true _).mp)
  | free => exact if_pos h
  | disposeAck => exact if_pos h
  | peek => exact if_pos h

/-- Settles O15: the commands of each list ask for one and the same state. -/
theorem wrongStateRaisesErrState : Obligations.WrongStateRaisesErrState := by
  unfold Obligations.WrongStateRaisesErrState
  refine fun s => ⟨fun h i hi => exec_of_not_admits ?_, fun h i hi => exec_of_not_admits ?_,
    fun h i hi => exec_of_not_admits ?_, fun h => exec_of_not_admits h⟩
  · revert i
    simpa [State.admits] using h
  · revert i
    simpa [State.admits] using h
  · have hno : ¬(s.tstate = .ready ∧ s.iterActive = true) :=
      fun ⟨hready, hactive⟩ => h.elim (absurd hready) fun hoff => by rw [hactive] at hoff; cases hoff
    revert i
    simpa [State.admits] using hno

/-! ## Errors past the state check (R402) -/

/-- The state that an error past the state check leaves but for STATUS and RESULT: INSERT and REMOVE end the iteration
and the reference first (spec/43_map_commands.md R299), GET the reference (R310). -/
def State.afterStateCheck (s : State) : Instr → State
  | .insert _ _ | .remove _ => s.endReferences
  | .get _ => { s with ref := .none }
  | _ => s

section
variable (s : State) (i : Instr)

@[simp] theorem State.afterStateCheck_tstate : (s.afterStateCheck i).tstate = s.tstate := by cases i <;> rfl

@[simp] theorem State.afterStateCheck_tab : (s.afterStateCheck i).tab = s.tab := by cases i <;> rfl

@[simp] theorem State.afterStateCheck_disp : (s.afterStateCheck i).disp = s.disp := by cases i <;> rfl

@[simp] theorem State.afterStateCheck_iterCursor : (s.afterStateCheck i).iterCursor = s.iterCursor := by
  cases i <;> rfl

end

theorem afterStateCheck_of_not_keyed {s : State} {i : Instr} (hinsert : ∀ k d, i ≠ .insert k d)
    (hremove : ∀ k, i ≠ .remove k) (hget : ∀ k, i ≠ .get k) : s.afterStateCheck i = s := by
  cases i with
  | insert k d => exact absurd rfl (hinsert k d)
  | remove k => exact absurd rfl (hremove k)
  | get k => exact absurd rfl (hget k)
  | _ => rfl

/-- The codes of errors past the state check that never come with a growth: all but ERR_PSL_OVERFLOW (R303). -/
def ErrCode.leavesTable : ErrCode → Bool
  | .ok | .state | .pslOverflow => false
  | _ => true

theorem getKey_error_leavesTable {s : State} {k : Bool} {c : ErrCode} (h : s.getKey k = .error c) :
    c.leavesTable = true := by
  rcases getKey_cases s k with ⟨_, he⟩ | ⟨_, _, he⟩ | ⟨_, _, _, _, he⟩ <;> rw [he] at h <;> cases h <;> rfl

/-- Only a key that the command supplies passes GetKey. -/
theorem supplied_of_getKey {s : State} {k : Bool} {key : KeyOperand} (h : s.getKey k = .ok key) : k = true := by
  rcases getKey_cases s k with ⟨_, he⟩ | ⟨hk, _⟩ | ⟨hk, _⟩
  · rw [he] at h
    cases h
  · exact hk
  · exact hk

theorem growArbiter_fail_leavesTable {t : Table} {memBytes : Nat} {c : ErrCode}
    (h : t.growArbiter memBytes = .fail c) : c.leavesTable = true := by
  rcases growArbiter_cases t memBytes with ⟨_, he⟩ | ⟨_, ⟨_, he⟩ | ⟨_, ⟨w, _, he⟩ | ⟨_, he⟩ | ⟨_, he⟩⟩⟩ <;>
    rw [he] at h <;> cases h <;> rfl

/-- A pre-check that proceeds leaves the table as it was, or grown by one exponent (spec/41_probe_engine.md R216). -/
theorem growArbiter_proceed_grew {t u : Table} {memBytes : Nat} {grew : Bool}
    (h : t.growArbiter memBytes = .proceed u grew) :
    grew = false ∧ u = t ∨ grew = true ∧ t.resize memBytes (t.e.toNat + 1) = .ok u := by
  rcases growArbiter_cases t memBytes with ⟨_, he⟩ | ⟨_, ⟨_, he⟩ | ⟨_, ⟨w, hr, he⟩ | ⟨_, he⟩ | ⟨_, he⟩⟩⟩ <;>
    rw [he] at h <;> cases h
  · exact .inl ⟨rfl, rfl⟩
  · exact .inr ⟨rfl, hr⟩

/-! ## The ends of a command -/

/-- How command `i`, started in `s`, can end: it succeeds, it fails the state check, it fails past it with the table as
it was and at most one answer of the entropy port spent, or its insertion walk overflows and keeps the pre-check's
growth. -/
inductive CommandEnd (s : State) (i : Instr) : State → Prop where
  | succeeds {t : State} : t.err = .ok → CommandEnd s i t
  | wrongState : ¬ s.admits i → CommandEnd s i (s.raise .state)
  | fails {c : ErrCode} {v : Env} : c.leavesTable = true → v = s.env ∨ v = s.env.entropySpent →
      CommandEnd s i (State.raise { s.afterStateCheck i with env := v } c)
  | overflows {k d grew : Bool} {u : Table} : i = .insert k d → s.tab.growArbiter s.env.memBytes = .proceed u grew →
      CommandEnd s i ({ s.endReferences with tab := u }.complete { err := .pslOverflow, grew := grew })

/-- The command answers a next state, and ends in it. -/
def Ends (s : State) (i : Instr) : Prop := ∃ t, exec i s = .next t ∧ CommandEnd s i t

section
variable {s t : State} {i : Instr} {c : ErrCode}

theorem Ends.ofSuccess (h : exec i s = .next t) (hok : t.err = .ok) : Ends s i := ⟨t, h, .succeeds hok⟩

/-- A failure of a command that ends neither the iteration nor the reference. -/
theorem commandEnd_raise (hi : s.afterStateCheck i = s) (hc : c.leavesTable = true) : CommandEnd s i (s.raise c) := by
  have hend : CommandEnd s i (State.raise { s.afterStateCheck i with env := s.env } c) := .fails hc (.inl rfl)
  rwa [hi] at hend

theorem tableCreate_end (hi : s.afterStateCheck i = s) (exp item : Nat) (z p : Bool) :
    CommandEnd s i (s.tableCreate exp item z p) := by
  rcases tableCreate_cases s exp item z p with
    ⟨_, he⟩ | ⟨_, _, ⟨_, he⟩ | ⟨_, ⟨_, he⟩ | ⟨_, ⟨hsec, he⟩ | ⟨sec, _, he⟩⟩⟩⟩ <;> rw [he]
  · exact commandEnd_raise hi rfl
  · exact commandEnd_raise hi rfl
  · exact commandEnd_raise hi rfl
  · obtain ⟨rfl, _⟩ := (newSecret_eq_none_iff s z).mp hsec
    have hend : CommandEnd s i (State.raise { s.afterStateCheck i with env := s.env.entropySpent } .entropy) :=
      .fails rfl (.inr rfl)
    rwa [hi] at hend
  · exact .succeeds rfl

theorem execInitSize_ends (hs : s.tstate = .none) (z p : Bool) : Ends s (.initSize z p) := by
  have hexec := execInitSize_without_table hs z p
  cases hx : expForSize s.latch.arg0.toNat with
  | none =>
    rw [hx] at hexec
    exact ⟨_, hexec, commandEnd_raise rfl rfl⟩
  | some x =>
    rw [hx] at hexec
    exact ⟨_, hexec, tableCreate_end rfl _ _ _ _⟩

theorem insertInto_end {k d grew : Bool} {u : Table} (key : KeyOperand)
    (hg : s.tab.growArbiter s.env.memBytes = .proceed u grew) :
    CommandEnd s (.insert k d) (s.endReferences.insertInto u grew key) := by
  rcases insertInto_cases s.endReferences u grew key with ⟨b, _, he⟩ | ⟨b, _, he⟩ | ⟨_, he⟩ <;> rw [he]
  · exact .succeeds rfl
  · exact .succeeds rfl
  · exact .overflows rfl hg

theorem execInsert_ends (hs : s.tstate = .ready) (k d : Bool) : Ends s (.insert k d) := by
  cases hk : s.getKey k with
  | error c => exact ⟨_, execInsert_of_keyError hs hk d, .fails (getKey_error_leavesTable hk) (.inl rfl)⟩
  | ok key =>
    obtain rfl := supplied_of_getKey hk
    cases d with
    | false => exact ⟨_, execInsert_of_noData hs hk, .fails rfl (.inl rfl)⟩
    | true =>
      cases hg : s.tab.growArbiter s.env.memBytes with
      | fail c => exact ⟨_, execInsert_of_fail hs hk hg, .fails (growArbiter_fail_leavesTable hg) (.inl rfl)⟩
      | proceed u grew => exact ⟨_, execInsert_of_proceed hs hk hg, insertInto_end key hg⟩

theorem execGet_ends (hs : s.tstate = .ready) (k : Bool) : Ends s (.get k) := by
  cases hk : s.getKey k with
  | error c => exact ⟨_, execGet_of_keyError hs hk, .fails (getKey_error_leavesTable hk) (.inl rfl)⟩
  | ok key =>
    obtain rfl := supplied_of_getKey hk
    cases hf : findSlot s.tab.geometry s.tab.e.toNat s.tab.array key with
    | none => exact ⟨_, execGet_of_absent hs hk hf, .fails rfl (.inl rfl)⟩
    | some j => exact .ofSuccess (execGet_of_found hs hk hf) rfl

theorem execRemove_ends (hs : s.tstate = .ready) (k : Bool) : Ends s (.remove k) := by
  cases hk : s.getKey k with
  | error c => exact ⟨_, execRemove_of_keyError hs hk, .fails (getKey_error_leavesTable hk) (.inl rfl)⟩
  | ok key =>
    obtain rfl := supplied_of_getKey hk
    cases hf : findSlot s.tab.geometry s.tab.e.toNat s.tab.array key with
    | none => exact ⟨_, execRemove_of_absent hs hk hf, .fails rfl (.inl rfl)⟩
    | some j => exact .ofSuccess (execRemove_of_found hs hk hf) rfl

theorem present_err (s : State) (lo : Nat) : (s.present lo).err = .ok := by
  rcases present_cases s lo with ⟨j, _, he⟩ | ⟨_, he⟩ <;> rw [he] <;> rfl

theorem execPeek_ends (hs : s.tstate = .ready) : Ends s .peek := by
  rcases Nat.lt_or_ge s.latch.arg0.toNat s.tab.cap with hlt | hge
  · exact .ofSuccess (execPeek_of_lt hs hlt) rfl
  · exact ⟨_, execPeek_of_ge hs hge, commandEnd_raise rfl rfl⟩

theorem execDisposeAck_ends (hs : s.tstate = .disposing) : Ends s .disposeAck := by
  cases hj : s.tab.firstTaken (s.disp + 1) with
  | none => exact .ofSuccess (execDisposeAck_of_none hs hj) rfl
  | some j => exact .ofSuccess (execDisposeAck_of_firstTaken hs hj) rfl

/-- The state of log entry 13: the table is to be disposed of and counts entries, and no slot is taken. -/
structure State.CountsNoEntry (s : State) : Prop where
  ready : s.tstate = .ready
  disposer : s.tab.disposer = true
  counted : s.tab.occ.toNat > 0
  noEntry : s.tab.firstTaken 0 = none

theorem execFree_of_countsNoEntry (h : s.CountsNoEntry) : exec .free s = .fault .freeFoundNoEntry := by
  simp [exec, execFree, h.ready, h.disposer, h.counted, h.noEntry]

theorem execFree_ends (hs : s.tstate = .ready) (h : ¬ s.CountsNoEntry) : Ends s .free := by
  by_cases hd : s.tab.disposer = false ∨ s.tab.occ.toNat = 0
  · exact .ofSuccess (execFree_of_nothing_to_dispose hs hd) rfl
  · obtain ⟨hdisposer, hocc⟩ := not_or.mp hd
    have hdisposer := eq_true_of_ne_false hdisposer
    have hocc := Nat.pos_of_ne_zero hocc
    cases hj : s.tab.firstTaken 0 with
    | none => exact absurd ⟨hs, hdisposer, hocc, hj⟩ h
    | some j => exact .ofSuccess (execFree_of_firstTaken hs hdisposer hocc hj) rfl

/-- Every command answers a next state, but for the FREE of log entry 13. -/
theorem exec_ends (h : i = .free → ¬ s.CountsNoEntry) : Ends s i := by
  by_cases hs : s.admits i
  · cases i with
    | init z p => exact ⟨_, execInit_without_table hs z p, tableCreate_end rfl _ _ _ _⟩
    | initSize z p => exact execInitSize_ends hs z p
    | insert k d => exact execInsert_ends hs k d
    | get k => exact execGet_ends hs k
    | remove k => exact execRemove_ends hs k
    | len => exact .ofSuccess (execLen_of_ready hs) rfl
    | iterStart => exact .ofSuccess (execIterStart_of_ready hs) (present_err s _)
    | iterNext => exact .ofSuccess (execIterNext_of_active hs.1 hs.2) (present_err s _)
    | iterStop => exact .ofSuccess (execIterStop_of_active hs.1 hs.2) rfl
    | free => exact execFree_ends hs (h rfl)
    | disposeAck => exact execDisposeAck_ends hs
    | peek => exact execPeek_ends hs
  · exact ⟨_, exec_of_not_admits hs, .wrongState hs⟩

theorem commandEnd_of_next (ht : exec i s = .next t) : CommandEnd s i t := by
  have hfree : i = .free → ¬ s.CountsNoEntry := by
    rintro rfl hno
    rw [execFree_of_countsNoEntry hno] at ht
    cases ht
  obtain ⟨u, hu, hend⟩ := exec_ends hfree
  cases hu.symm.trans ht
  exact hend

end

/-- Settles O32, by how the command ended. -/
theorem failedCommandsChangeOnlyWhatIsListed : Obligations.FailedCommandsChangeOnlyWhatIsListed := by
  unfold Obligations.FailedCommandsChangeOnlyWhatIsListed
  intro i s t ht herr
  cases commandEnd_of_next ht with
  | succeeds hok => exact absurd hok herr
  | wrongState _ =>
    exact ⟨rfl, rfl, rfl, rfl, rfl, rfl, fun _ => ⟨rfl, rfl⟩, fun h => (by cases h), fun _ => ⟨rfl, rfl⟩,
      fun h => absurd rfl h, fun h => absurd rfl h, fun _ _ _ => ⟨rfl, rfl⟩⟩
  | @fails c v hc _ =>
    refine ⟨rfl, rfl, rfl, s.afterStateCheck_tstate i, s.afterStateCheck_disp i, s.afterStateCheck_iterCursor i,
      fun _ => ⟨rfl, s.afterStateCheck_tab i⟩, fun h => ?_, fun h => ?_, fun _ hi => ?_, fun _ hi => ?_,
      fun hinsert hremove hget => ?_⟩
    · obtain rfl : c = .pslOverflow := h
      cases hc
    · obtain rfl : c = .state := h
      cases hc
    · rcases hi with ⟨k, d, rfl⟩ | ⟨k, rfl⟩ <;> exact ⟨rfl, rfl⟩
    · obtain ⟨k, rfl⟩ := hi
      exact ⟨rfl, rfl⟩
    · rw [afterStateCheck_of_not_keyed hinsert hremove hget]
      exact ⟨rfl, rfl⟩
  | @overflows k d grew u hi hg =>
    refine ⟨rfl, rfl, rfl, rfl, rfl, rfl, fun h => absurd rfl h, fun _ => growArbiter_proceed_grew hg,
      fun h => (by cases h), fun _ _ => ⟨rfl, rfl⟩, fun _ hget => ?_, fun hinsert => absurd hi (hinsert k d)⟩
    obtain ⟨k', rfl⟩ := hget
    cases hi

/-! ## Good states (R407) -/

/-- INV2 rules the state of log entry 13 out. -/
theorem State.Inv.not_countsNoEntry {s : State} (h : s.Inv) : ¬ s.CountsNoEntry := fun hno => by
  have hcounted : s.tab.occ.toNat = s.tab.takenCount 0 := (h.table (by rw [hno.ready]; decide)).counted
  exact absurd hno.counted (by rw [hcounted, takenCount_of_firstTaken_none hno.noEntry]; decide)

theorem executeLatched_next_of_inv {s : State} (h : s.Inv) : ∃ t, s.executeLatched = .next t := by
  rcases executeLatched_cases s with ⟨i, _, hx⟩ | ⟨_, _, hx⟩ <;> rw [hx]
  · obtain ⟨t, ht, _⟩ := exec_ends (i := i) fun _ => h.not_countsNoEntry
    exact ⟨t, ht⟩
  · exact ⟨_, rfl⟩

/-- Settles O57: only an executing command could stop a step, and taking the event leaves the state good. -/
theorem goodStatesNeverStop : Obligations.GoodStatesNeverStop := by
  unfold Obligations.GoodStatesNeverStop
  intro s h
  obtain ⟨u, hu, hcases⟩ := step_cases s
  have hu' : u.Inv := by
    rcases hu with rfl | rfl
    · exact h
    · exact (inv_iff _).mpr (((inv_iff s).mp h).congr inv_keptByOperations rfl)
  rcases hcases with ⟨_, he⟩ | ⟨_, he⟩ | ⟨a, he⟩ | he <;> rw [he]
  · exact ⟨_, rfl⟩
  · exact executeLatched_next_of_inv hu'
  · exact ⟨_, rfl⟩
  · exact ⟨_, rfl⟩

end Sys2Proof.Machine
end

section
/-! SUPPORT. The reset event (spec/70_reset_and_hazards.md R450 to R452): neither the phase nor the table is looked at, so
a latched command and a live table go alike. -/

namespace Sys2Proof.Machine

/-- A reset event is taken in either phase and whatever stands in the table: nothing of the block is looked at. -/
theorem step_of_reset {s : State} {es : List Event} (h : s.env.events = .reset :: es) :
    step s = .next (State.onReset { s with env := { s.env with events := es } }) := by
  unfold step
  rw [← popEvent_of_cons h, h]

/-- Settles O8: the event is taken, and `onReset` keeps the environment alone. -/
theorem resetDropsCommandAndTable : Obligations.ResetDropsCommandAndTable := by
  unfold Obligations.ResetDropsCommandAndTable
  intro s es h
  calc step s = .next (State.onReset { s with env := { s.env with events := es } }) := step_of_reset h
    _ = .next { State.reset with env := { s.env with events := es } } := rfl

end Sys2Proof.Machine
end
